-- ==== Sys2Proof/Word.lean ====
section
/-! DEFINITION. The words of the APEX pipeline core and their plainest arithmetic (spec/00_scope.md R11, R12). -/

namespace Sys2Proof

/-- A register value, data-memory cell, immediate, result or address: XLEN = 32 bits (R9, R12). -/
abbrev Word := BitVec 32

/-- A register field of an instruction, naming R0 to R31 (R101, R106). -/
abbrev RegIdx := BitVec 5

/-- One entry of the instruction store (R101). -/
abbrev InstrWord := BitVec 64

/-- A scoreboard counter (R45, D25). -/
abbrev Count := BitVec 3

/-- `s(v)`: the signed integer a word denotes (R12). -/
def sval (v : Word) : Int := v.toInt

/-- `u(v)`: the unsigned integer a word denotes (R12). -/
def uval (v : Word) : Nat := v.toNat

/-- `wrap(n)`: the word congruent to `n` modulo 2^32 (R12). -/
def wrap (n : Int) : Word := BitVec.ofInt 32 n

end Sys2Proof
end

