-- ==== Sys2Proof/Config.lean ====
section
/-! DEFINITION. What an instance of the core fixes for its whole life: the parameters of spec/00_scope.md R9 and the
constants of the architecture. The one free value, `Config.afterFault`, stands in Machine/State.lean beside the types
it is made of. -/

namespace Sys2Proof

/-- The three condition flags (R34). -/
structure Flags where
  z : Bool
  p : Bool
  n : Bool
deriving DecidableEq, Repr, Inhabited

/-- The parameters of R9. NCODE is the length of the instruction store, which State holds. -/
structure Params where
  /-- NREGS, the number of general registers -/
  nregs : Nat
  /-- DMEM_SIZE, the number of data-memory cells -/
  dmemSize : Nat
  /-- CODE_BASE, the address of the first instruction -/
  codeBase : Word
  /-- FLAGS_RESET (R36) -/
  flagsReset : Flags
  /-- FORWARDING (R4, R38) -/
  forwarding : Bool
deriving DecidableEq, Repr, Inhabited

/-- The defaults of R9 and R36. R9 gives FORWARDING no default. DESIGN CHOICE (log entry 4): true. -/
def Params.default : Params :=
  { nregs := 16, dmemSize := 4096, codeBase := 4000, flagsReset := ⟨true, false, false⟩, forwarding := true }

/-- The ranges R9 gives the parameters, for a store of `ncode` words, with R35's demand on FLAGS_RESET. -/
def Params.ok (p : Params) (ncode : Nat) : Bool :=
  decide (1 ≤ p.nregs) && decide (p.nregs ≤ 32) && decide (1 ≤ p.dmemSize) &&
  decide (p.codeBase.toNat % 4 = 0) && decide (p.codeBase.toNat + 4 * ncode ≤ 2 ^ 32) && decide (1 ≤ ncode) &&
  (p.flagsReset == ⟨true, false, false⟩ || p.flagsReset == ⟨false, true, false⟩ ||
    p.flagsReset == ⟨false, false, true⟩)

/-- ILEN, the address units of one instruction (R9, R31). -/
def Config.ilen : Nat := 4

/-- POSTINC, what LOADP and STOREP add to the base register (R9). -/
def Config.postInc : Int := 4

end Sys2Proof
end

