-- ==== Sys2Proof/Syntax.lean ====
section
/-! DEFINITION. The instructions: one constructor per row of spec/opcode_table.json, holding the fields its format
uses (spec/30_encoding.md R104, R108). A field the format does not use is ignored (R107) and is not held. -/

namespace Sys2Proof

/-- The 25 instructions, in the order of their opcode numbers (R102). -/
inductive Instr where
  /-- `ADD Rrd,Rrs1,Rrs2` (R201) -/
  | add (rd rs1 rs2 : RegIdx)
  /-- `SUB Rrd,Rrs1,Rrs2` (R202) -/
  | sub (rd rs1 rs2 : RegIdx)
  /-- `MUL Rrd,Rrs1,Rrs2` (R203) -/
  | mul (rd rs1 rs2 : RegIdx)
  /-- `AND Rrd,Rrs1,Rrs2` (R204) -/
  | and (rd rs1 rs2 : RegIdx)
  /-- `OR Rrd,Rrs1,Rrs2` (R205) -/
  | or (rd rs1 rs2 : RegIdx)
  /-- `XOR Rrd,Rrs1,Rrs2` (R206) -/
  | xor (rd rs1 rs2 : RegIdx)
  /-- `ADDL Rrd,Rrs1,#imm` (R207) -/
  | addl (rd rs1 : RegIdx) (imm : Word)
  /-- `SUBL Rrd,Rrs1,#imm` (R208) -/
  | subl (rd rs1 : RegIdx) (imm : Word)
  /-- `MOVC Rrd,#imm` (R209) -/
  | movc (rd : RegIdx) (imm : Word)
  /-- `CMP Rrs1,Rrs2` (R210) -/
  | cmp (rs1 rs2 : RegIdx)
  /-- `CML Rrs1,#imm` (R211) -/
  | cml (rs1 : RegIdx) (imm : Word)
  /-- `LOAD Rrd,Rrs1,#imm` (R241) -/
  | load (rd rs1 : RegIdx) (imm : Word)
  /-- `LOADP Rrd,Rrs1,#imm` (R242) -/
  | loadp (rd rs1 : RegIdx) (imm : Word)
  /-- `STORE Rrs1,Rrs2,#imm`: `rs1` the value, `rs2` the base (R243) -/
  | store (rs1 rs2 : RegIdx) (imm : Word)
  /-- `STOREP Rrs1,Rrs2,#imm`: `rs1` the value, `rs2` the base (R244) -/
  | storep (rs1 rs2 : RegIdx) (imm : Word)
  /-- `JUMP Rrs1,#imm` (R261) -/
  | jump (rs1 : RegIdx) (imm : Word)
  /-- `JALR Rrd,Rrs1,#imm` (R262) -/
  | jalr (rd rs1 : RegIdx) (imm : Word)
  /-- `BZ #imm` (R264) -/
  | bz (imm : Word)
  /-- `BNZ #imm` (R265) -/
  | bnz (imm : Word)
  /-- `BP #imm` (R266) -/
  | bp (imm : Word)
  /-- `BNP #imm` (R267) -/
  | bnp (imm : Word)
  /-- `BN #imm` (R268) -/
  | bn (imm : Word)
  /-- `BNN #imm` (R269) -/
  | bnn (imm : Word)
  /-- `NOP` (R290) -/
  | nop
  /-- `HALT` (R291) -/
  | halt
deriving DecidableEq, Repr, Inhabited

/-- The opcode number of an instruction (R102). -/
def Instr.opcode : Instr → BitVec 5
  | .add .. => 0
  | .sub .. => 1
  | .mul .. => 2
  | .and .. => 3
  | .or .. => 4
  | .xor .. => 5
  | .addl .. => 6
  | .subl .. => 7
  | .movc .. => 8
  | .cmp .. => 9
  | .cml .. => 10
  | .load .. => 11
  | .loadp .. => 12
  | .store .. => 13
  | .storep .. => 14
  | .jump .. => 15
  | .jalr .. => 16
  | .bz .. => 17
  | .bnz .. => 18
  | .bp .. => 19
  | .bnp .. => 20
  | .bn .. => 21
  | .bnn .. => 22
  | .nop => 23
  | .halt => 24

/-! The assembly line of an instruction (R112, R113). The core never reads it. -/

/-- A register operand, `R<n>`. -/
def asmReg (r : RegIdx) : String := "R" ++ toString r.toNat

/-- An immediate operand, `#<n>` in signed decimal. -/
def asmImm (imm : Word) : String := "#" ++ toString (sval imm)

/-- A mnemonic and its operands, comma-separated. -/
def asmLine (mnemonic : String) (operands : List String) : String :=
  match operands with
  | [] => mnemonic
  | _ :: _ => mnemonic ++ " " ++ String.intercalate "," operands

/-- The line of an instruction, with the operand order of R113. -/
def Instr.assembly : Instr → String
  | .add rd rs1 rs2 => asmLine "ADD" [asmReg rd, asmReg rs1, asmReg rs2]
  | .sub rd rs1 rs2 => asmLine "SUB" [asmReg rd, asmReg rs1, asmReg rs2]
  | .mul rd rs1 rs2 => asmLine "MUL" [asmReg rd, asmReg rs1, asmReg rs2]
  | .and rd rs1 rs2 => asmLine "AND" [asmReg rd, asmReg rs1, asmReg rs2]
  | .or rd rs1 rs2 => asmLine "OR" [asmReg rd, asmReg rs1, asmReg rs2]
  | .xor rd rs1 rs2 => asmLine "XOR" [asmReg rd, asmReg rs1, asmReg rs2]
  | .addl rd rs1 imm => asmLine "ADDL" [asmReg rd, asmReg rs1, asmImm imm]
  | .subl rd rs1 imm => asmLine "SUBL" [asmReg rd, asmReg rs1, asmImm imm]
  | .movc rd imm => asmLine "MOVC" [asmReg rd, asmImm imm]
  | .cmp rs1 rs2 => asmLine "CMP" [asmReg rs1, asmReg rs2]
  | .cml rs1 imm => asmLine "CML" [asmReg rs1, asmImm imm]
  | .load rd rs1 imm => asmLine "LOAD" [asmReg rd, asmReg rs1, asmImm imm]
  | .loadp rd rs1 imm => asmLine "LOADP" [asmReg rd, asmReg rs1, asmImm imm]
  | .store rs1 rs2 imm => asmLine "STORE" [asmReg rs1, asmReg rs2, asmImm imm]
  | .storep rs1 rs2 imm => asmLine "STOREP" [asmReg rs1, asmReg rs2, asmImm imm]
  | .jump rs1 imm => asmLine "JUMP" [asmReg rs1, asmImm imm]
  | .jalr rd rs1 imm => asmLine "JALR" [asmReg rd, asmReg rs1, asmImm imm]
  | .bz imm => asmLine "BZ" [asmImm imm]
  | .bnz imm => asmLine "BNZ" [asmImm imm]
  | .bp imm => asmLine "BP" [asmImm imm]
  | .bnp imm => asmLine "BNP" [asmImm imm]
  | .bn imm => asmLine "BN" [asmImm imm]
  | .bnn imm => asmLine "BNN" [asmImm imm]
  | .nop => asmLine "NOP" []
  | .halt => asmLine "HALT" []

end Sys2Proof
end

