-- ==== Sys2Proof/WellFormed.lean ====
section
/-! DEFINITION. Which instructions are legal on a core of `n` general registers (spec/30_encoding.md R106, R109). -/

namespace Sys2Proof

/-- The register fields an instruction's format uses (R104). -/
def Instr.regFields : Instr → List RegIdx
  | .add rd rs1 rs2 | .sub rd rs1 rs2 | .mul rd rs1 rs2 => [rd, rs1, rs2]
  | .and rd rs1 rs2 | .or rd rs1 rs2 | .xor rd rs1 rs2 => [rd, rs1, rs2]
  | .addl rd rs1 _ | .subl rd rs1 _ | .load rd rs1 _ | .loadp rd rs1 _ | .jalr rd rs1 _ => [rd, rs1]
  | .movc rd _ => [rd]
  | .cmp rs1 rs2 => [rs1, rs2]
  | .cml rs1 _ | .jump rs1 _ => [rs1]
  | .store rs1 rs2 _ | .storep rs1 rs2 _ => [rs1, rs2]
  | .bz _ | .bnz _ | .bp _ | .bnp _ | .bn _ | .bnn _ => []
  | .nop | .halt => []

/-- Every register field the instruction uses names one of the `n` registers (R106, R109). -/
def Instr.wf (n : Nat) (i : Instr) : Bool :=
  i.regFields.all fun r => decide (r.toNat < n)

end Sys2Proof
end

