-- ==== Sys2Proof/Decode.lean ====
section
/-! DEFINITION. The instruction-store word: its fields, the decoder and the encoder (spec/30_encoding.md). -/

namespace Sys2Proof

/-- `opc`, bits 63:59 (R101). -/
def fieldOpc (w : InstrWord) : BitVec 5 := w.extractLsb' 59 5

/-- `rd`, bits 58:54 (R101). -/
def fieldRd (w : InstrWord) : RegIdx := w.extractLsb' 54 5

/-- `rs1`, bits 53:49 (R101). -/
def fieldRs1 (w : InstrWord) : RegIdx := w.extractLsb' 49 5

/-- `rs2`, bits 48:44 (R101). -/
def fieldRs2 (w : InstrWord) : RegIdx := w.extractLsb' 44 5

/-- `rsv`, bits 43:32 (R101). -/
def fieldRsv (w : InstrWord) : BitVec 12 := w.extractLsb' 32 12

/-- `imm`, bits 31:0, used as they are (R101, R105). -/
def fieldImm (w : InstrWord) : Word := w.extractLsb' 0 32

/-- Bits 63:32 of a word, which IllegalInstruction records (R302). -/
def highHalf (w : InstrWord) : Word := w.extractLsb' 32 32

/-- Why a word is illegal (R109). -/
inductive Illegal where
  /-- bits 43:32 are not zero (R103) -/
  | reservedBits
  /-- the opcode number is 25 to 31 (R102) -/
  | opcode
  /-- a register field the opcode uses is at or above NREGS (R106) -/
  | registerField
deriving DecidableEq, Repr

/-- The instruction an opcode number and the fields it uses name, none for 25 to 31 (R102, R104). -/
def unpack (w : InstrWord) : Option Instr :=
  match (fieldOpc w).toNat with
  | 0 => some (.add (fieldRd w) (fieldRs1 w) (fieldRs2 w))
  | 1 => some (.sub (fieldRd w) (fieldRs1 w) (fieldRs2 w))
  | 2 => some (.mul (fieldRd w) (fieldRs1 w) (fieldRs2 w))
  | 3 => some (.and (fieldRd w) (fieldRs1 w) (fieldRs2 w))
  | 4 => some (.or (fieldRd w) (fieldRs1 w) (fieldRs2 w))
  | 5 => some (.xor (fieldRd w) (fieldRs1 w) (fieldRs2 w))
  | 6 => some (.addl (fieldRd w) (fieldRs1 w) (fieldImm w))
  | 7 => some (.subl (fieldRd w) (fieldRs1 w) (fieldImm w))
  | 8 => some (.movc (fieldRd w) (fieldImm w))
  | 9 => some (.cmp (fieldRs1 w) (fieldRs2 w))
  | 10 => some (.cml (fieldRs1 w) (fieldImm w))
  | 11 => some (.load (fieldRd w) (fieldRs1 w) (fieldImm w))
  | 12 => some (.loadp (fieldRd w) (fieldRs1 w) (fieldImm w))
  | 13 => some (.store (fieldRs1 w) (fieldRs2 w) (fieldImm w))
  | 14 => some (.storep (fieldRs1 w) (fieldRs2 w) (fieldImm w))
  | 15 => some (.jump (fieldRs1 w) (fieldImm w))
  | 16 => some (.jalr (fieldRd w) (fieldRs1 w) (fieldImm w))
  | 17 => some (.bz (fieldImm w))
  | 18 => some (.bnz (fieldImm w))
  | 19 => some (.bp (fieldImm w))
  | 20 => some (.bnp (fieldImm w))
  | 21 => some (.bn (fieldImm w))
  | 22 => some (.bnn (fieldImm w))
  | 23 => some .nop
  | 24 => some .halt
  | _ => none

/-- Decoding of a word on a core of `n` general registers, total on all 64-bit words (R115). -/
def decode (n : Nat) (w : InstrWord) : Except Illegal Instr :=
  if fieldRsv w = 0 then
    match unpack w with
    | none => .error .opcode
    | some i => if i.wf n then .ok i else .error .registerField
  else .error .reservedBits

/-- Lays the six fields out, bit 63 first, the reserved bits zero (R101, R103). -/
def pack (opc : BitVec 5) (rd rs1 rs2 : RegIdx) (imm : Word) : InstrWord :=
  opc ++ rd ++ rs1 ++ rs2 ++ (0 : BitVec 12) ++ imm

/-- The word of an instruction, every field its format does not use zero (R101, R104, R107). -/
def encode (i : Instr) : InstrWord :=
  match i with
  | .add rd rs1 rs2 | .sub rd rs1 rs2 | .mul rd rs1 rs2 => pack i.opcode rd rs1 rs2 0
  | .and rd rs1 rs2 | .or rd rs1 rs2 | .xor rd rs1 rs2 => pack i.opcode rd rs1 rs2 0
  | .addl rd rs1 imm | .subl rd rs1 imm | .load rd rs1 imm | .loadp rd rs1 imm => pack i.opcode rd rs1 0 imm
  | .jalr rd rs1 imm => pack i.opcode rd rs1 0 imm
  | .movc rd imm => pack i.opcode rd 0 0 imm
  | .cmp rs1 rs2 => pack i.opcode 0 rs1 rs2 0
  | .cml rs1 imm | .jump rs1 imm => pack i.opcode 0 rs1 0 imm
  | .store rs1 rs2 imm | .storep rs1 rs2 imm => pack i.opcode 0 rs1 rs2 imm
  | .bz imm | .bnz imm | .bp imm | .bnp imm | .bn imm | .bnn imm => pack i.opcode 0 0 0 imm
  | .nop | .halt => pack i.opcode 0 0 0 0

/-- The 64-bit word whose lowest `nbits` bits are those of `w`, the others zero. An instruction is one word (R111). -/
def tableWord (nbits w : Nat) : InstrWord :=
  BitVec.ofNat 64 (w % 2 ^ nbits)

/-- The instruction the decoder reads, at the default NREGS, from the word of `nbits` bits `w`. -/
def decodeTableWord (nbits w : Nat) : Option Instr :=
  match decode Params.default.nregs (tableWord nbits w) with
  | .ok i => some i
  | .error _ => none

end Sys2Proof
end

