-- ==== Sys2Proof/Machine/State.lean ====
section
/-! DEFINITION. The state of the APEX pipeline core as plain data (spec/10_state.md), its faults and refusals, and the
state after reset (R57, R330). -/

namespace Sys2Proof.Machine

/-- A fatal error (R300, R302). None is ever an `Outcome.fault`: the spec describes what raising one does (R301), so
the model takes it as a next state, with the fault state written, and the engine is stuck from then on (R172). SAFE. -/
inductive Fault where
  /-- Code 1 (R303), raised by the fetch unit at a `pc` that is no legal fetch address. SAFE. -/
  | fetchOutOfRange (pc : Word)
  /-- Code 2 (R304), raised by the fetch unit at an illegal word; `high` is the word's bits 63:32. SAFE. -/
  | illegalInstruction (pc high : Word)
  /-- Code 3 (R305), raised by the memory unit on a data address outside 0..DMEM_SIZE-1. SAFE. -/
  | dataAddressOutOfRange (ea pc : Word)
  /-- Code 4 (R306), raised by the unit that would take a scoreboard counter below 0 or above 7. SAFE. -/
  | invariantViolation (r : RegIdx)
deriving DecidableEq, Repr

/-- Why the model answers no state. -/
inductive Refusal where
  /-- An instruction without a meaning. No arm of `exec` raises it: all 25 have one. SAFE. -/
  | notModelled (mnemonic : String)
  /-- Raised by `construct` and `step` when the instruction store is empty: no engine is created and no step exists
  (R168, R306, U7). SAFE. -/
  | emptyStore
deriving DecidableEq, Repr

/-- What a reservation's writeback will put into its register (R146). -/
inductive Kind where
  /-- `result`, known at the end of execute -/
  | alu
  /-- `result` loaded by the memory stage, known at the end of memory -/
  | mem
  /-- the post-increment value `inc`, known at the end of execute -/
  | inc
deriving DecidableEq, Repr, Inhabited

/-- A scoreboard reservation: a register and a kind (R41, R146). -/
structure Reservation where
  reg : RegIdx
  kind : Kind
deriving DecidableEq, Repr, Inhabited

/-- A valid pipeline latch (R41). A bubble (`valid = false`) is `none`; its fields are don't-care (R14, R42). -/
structure Latch where
  /-- `op` and the static fields the instruction uses (log entry 5) -/
  instr : Instr
  /-- the fetch-time program counter -/
  pc : Word
  /-- `src1_value` -/
  v1 : Word
  /-- `src2_value` -/
  v2 : Word
  /-- `result` -/
  result : Word
  /-- `memory_address` -/
  ea : Word
  /-- the post-increment value -/
  inc : Word
  /-- the reservations made at issue, in writeback order -/
  res : List Reservation
  /-- the reservations were already released -/
  rel : Bool
deriving DecidableEq, Repr, Inhabited

/-- The stage units, in the order a cycle evaluates them (R140). -/
inductive Stage where
  | writeback
  | memory
  | execute
  | decode
  | fetch
deriving DecidableEq, Repr, Inhabited

/-- A data-memory cell: its index and its word (R50, R72). -/
abbrev Cell := Nat × Word

/-- The state of the core, its parameters and the instruction store it reads. -/
structure State where
  /-- the parameters of this instance, fixed for its life (R9, R38) -/
  cfg : Params
  /-- the instruction store, immutable, NCODE words (R51) -/
  code : List InstrWord
  /-- R0 to R31; those at or above NREGS do not exist and no legal instruction names them (R30, R106) -/
  regs : Vector Word 32
  /-- the address of the next instruction fetch will read (R31) -/
  pc : Word
  /-- Z, P, N (R34) -/
  flags : Flags
  /-- `F.armed`: fetch may read the instruction store (R43) -/
  armed : Bool
  /-- the decode latch (R40) -/
  d : Option Latch
  /-- the execute latch -/
  e : Option Latch
  /-- the memory latch -/
  m : Option Latch
  /-- the writeback latch -/
  w : Option Latch
  /-- the hazard scoreboard (R45) -/
  sb : Vector Count 32
  /-- the data memory: the cells that do not hold 0, indexes rising (R50, R84) -/
  mem : List Cell
  /-- HALT has committed (R53) -/
  halted : Bool
  /-- cycles advanced (R54) -/
  cycleCount : BitVec 64
  /-- instructions committed (R55) -/
  retiredCount : BitVec 64
  /-- a fatal error was raised (R56) -/
  fault : Bool
  /-- its code (R56, R302) -/
  faultCause : BitVec 3
  /-- the value it recorded (R56, R302) -/
  faultInfo : BitVec 64
  /-- the unit being evaluated, the model's own; `writeback` at every cycle boundary (log entry 7) -/
  stage : Stage
  /-- decode could not issue this cycle (R49); false at every boundary (log entry 7) -/
  stalled : Bool
  /-- `redirect_pending`: a control transfer fired this cycle (R49); false at every boundary (log entry 7) -/
  redirect : Bool
deriving DecidableEq, Repr

/-- The state elements the host cannot inspect, whose values after a fault R301 leaves unspecified. -/
structure Internals where
  pc : Word
  armed : Bool
  d : Option Latch
  e : Option Latch
  m : Option Latch
  w : Option Latch
  sb : Vector Count 32
deriving Inhabited

end Sys2Proof.Machine

namespace Sys2Proof

/-- FREE VALUE (log entry 8): the latches, scoreboard, `pc` and `F.armed` after a fault, whose values are unspecified
(R301, U9). It is applied to the cycle count, the cause and the information of the fault, and has no body. -/
opaque Config.afterFault : BitVec 64 → BitVec 3 → BitVec 64 → Machine.Internals

end Sys2Proof

namespace Sys2Proof.Machine

/-- A data-memory cell nothing has written reads 0 (R50, R84, U17). -/
def unlistedCell : Word := 0

/-- What construction makes of its inputs, `mem` being the preload in canonical form (R57, R330). -/
def State.initial (cfg : Params) (code : List InstrWord) (mem : List Cell) : State :=
  { cfg, code, mem
    regs := Vector.replicate 32 0
    pc := cfg.codeBase
    flags := cfg.flagsReset
    armed := true
    d := none, e := none, m := none, w := none
    sb := Vector.replicate 32 0
    halted := false
    cycleCount := 0, retiredCount := 0
    fault := false, faultCause := 0, faultInfo := 0
    stage := .writeback, stalled := false, redirect := false }

/-- The machine right after reset, with the default parameters and nothing loaded: no program and no preload image
(R57; log entry 6 says how a program comes to run). -/
def State.reset : State :=
  State.initial Params.default [] []

end Sys2Proof.Machine
end

