-- ==== Sys2Proof/Machine/Flags.lean ====
section
/-! DEFINITION. Every flag computation of the spec: the flag rule of the arithmetic and logical instructions (R200), the
three-way compare (R210, R211), and the six branch tests (R264 to R269). -/

namespace Sys2Proof.Machine

/-- The three-way test both flag rules share (R35, R200, R210): exactly one flag is set. -/
def threeWay (left right : Int) : Flags :=
  { z := decide (left = right), p := decide (left > right), n := decide (left < right) }

/-- Flags of a 32-bit result read as signed (R200). -/
def resultFlags (result : Word) : Flags := threeWay (sval result) 0

/-- Flags of a compare of mathematical signed integers, with no subtraction and no wrap (R210, R211, D21). -/
def compareFlags (left right : Word) : Flags := threeWay (sval left) (sval right)

/-- BZ (R264). -/
def testZ (f : Flags) : Bool := f.z

/-- BNZ (R265). -/
def testNZ (f : Flags) : Bool := !f.z

/-- BP (R266). -/
def testP (f : Flags) : Bool := f.p

/-- BNP (R267). -/
def testNP (f : Flags) : Bool := !f.p

/-- BN (R268). -/
def testN (f : Flags) : Bool := f.n

/-- BNN (R269). -/
def testNN (f : Flags) : Bool := !f.n

end Sys2Proof.Machine
end

