-- ==== Sys2Proof/Machine/Ops.lean ====
section
/-! DEFINITION. The named operations over registers, data memory, the scoreboard and the fault state, and the sequencing
of units inside a cycle. -/

namespace Sys2Proof.Machine

/-! Registers (R30) -/

/-- The register file's value at an index. -/
def regAt (regs : Vector Word 32) (r : RegIdx) : Word :=
  regs[r.toNat]'r.isLt

/-- `x[r]` (R13). No register is hardwired (R30). -/
def State.reg (s : State) (r : RegIdx) : Word := regAt s.regs r

/-- `x[r] <- v` on the register file (R13). -/
def setReg (regs : Vector Word 32) (r : RegIdx) (v : Word) : Vector Word 32 :=
  regs.set r.toNat v r.isLt

/-! Data memory (R50, R74) -/

/-- The word of a cell. -/
def Memory.read (mem : List Cell) (a : Nat) : Word :=
  match mem with
  | [] => unlistedCell
  | c :: rest => if c.1 = a then c.2 else Memory.read rest a

/-- Writes one whole cell, keeping the list in canonical form. -/
def Memory.write (mem : List Cell) (a : Nat) (v : Word) : List Cell :=
  match mem with
  | [] => if v = unlistedCell then [] else [(a, v)]
  | c :: rest =>
    if a < c.1 then (if v = unlistedCell then c :: rest else (a, v) :: c :: rest)
    else if c.1 = a then (if v = unlistedCell then rest else (a, v) :: rest)
    else c :: Memory.write rest a v

/-- The canonical form: indexes strictly rising, and no cell listed that holds what an unlisted one reads as. -/
abbrev Memory.wf (mem : List Cell) : Prop :=
  mem.Pairwise (fun c c' => c.1 < c'.1) ∧ ∀ c ∈ mem, c.2 ≠ unlistedCell

/-- The bound check `0 ≤ s(ea) < DMEM_SIZE` (R76, R157). -/
def State.inRange (s : State) (ea : Word) : Bool :=
  decide (0 ≤ sval ea) && decide (sval ea < s.cfg.dmemSize)

/-- The cell index an effective address in range names: the address itself, unscaled (R70, R240). -/
def cellIndex (ea : Word) : Nat := (sval ea).toNat

/-- `MemRead(ea)` (R13). -/
def State.memRead (s : State) (ea : Word) : Word :=
  Memory.read s.mem (cellIndex ea)

/-- The instruction store holds no word to read at all. -/
def State.noStore (s : State) : Bool := s.code.isEmpty

/-! Instruction store (R33, R51) -/

/-- The index of a legal fetch address, none for any other: the three tests of R143 on integers, without wrap. -/
def State.fetchIndex (s : State) (pc : Word) : Option Nat :=
  if uval s.cfg.codeBase ≤ uval pc ∧ (uval pc - uval s.cfg.codeBase) % Config.ilen = 0 ∧
      (uval pc - uval s.cfg.codeBase) / Config.ilen < s.code.length then
    some ((uval pc - uval s.cfg.codeBase) / Config.ilen)
  else none

/-- `Code(pc)`, none where `pc` is no legal fetch address (R51). -/
def State.codeAt (s : State) (pc : Word) : Option InstrWord :=
  match s.fetchIndex pc with
  | some k => s.code[k]?
  | none => none

/-! Address sums (R12, D22) -/

/-- The wrapping sum of a word and an integer. -/
def wordPlus (v : Word) (n : Int) : Word := wrap (sval v + n)

/-- `wrap(pc + 4)` (R32, R143, R262). -/
def nextPc (pc : Word) : Word := wordPlus pc Config.ilen

/-! Scoreboard (R45 to R47, R306) -/

/-- The scoreboard's counter at an index. -/
def countAt (sb : Vector Count 32) (r : RegIdx) : Count :=
  sb[r.toNat]'r.isLt

/-- The scoreboard with one counter set. -/
def setCount (sb : Vector Count 32) (r : RegIdx) (n : Count) : Vector Count 32 :=
  sb.set r.toNat n r.isLt

/-- `sb[r]`. -/
def State.count (s : State) (r : RegIdx) : Count := countAt s.sb r

/-- `sb[r] -= 1` for every reservation of the list, or the register whose counter would go below 0. -/
def releaseAll (res : List Reservation) (sb : Vector Count 32) : Except RegIdx (Vector Count 32) :=
  match res with
  | [] => .ok sb
  | p :: rest =>
    if countAt sb p.reg = 0 then .error p.reg
    else releaseAll rest (setCount sb p.reg (countAt sb p.reg - 1))

/-- `sb[r] += 1` for every reservation of the list, or the register whose counter would go above 7. -/
def reserveAll (res : List Reservation) (sb : Vector Count 32) : Except RegIdx (Vector Count 32) :=
  match res with
  | [] => .ok sb
  | p :: rest =>
    if countAt sb p.reg = 7 then .error p.reg
    else reserveAll rest (setCount sb p.reg (countAt sb p.reg + 1))

/-! Faults (R301, R302) -/

/-- `fault_cause` of a fault (R302). -/
def Fault.code (f : Fault) : BitVec 3 :=
  match f with
  | .fetchOutOfRange _ => 1
  | .illegalInstruction _ _ => 2
  | .dataAddressOutOfRange _ _ => 3
  | .invariantViolation _ => 4

/-- `fault_info` of a fault, bits 63:32 first (R302). -/
def Fault.info (f : Fault) : BitVec 64 :=
  match f with
  | .fetchOutOfRange pc => (0 : Word) ++ pc
  | .illegalInstruction pc high => pc ++ high
  | .dataAddressOutOfRange ea pc => ea ++ pc
  | .invariantViolation r => (0 : Word) ++ r.setWidth 32

/-- `raise F(info)` (R301), `s` being the state the raising unit was given: what earlier-evaluated units of the cycle
wrote stands, nothing of the raising unit happens, and the internal state is unspecified (log entry 8). -/
def raise (f : Fault) (s : State) : State :=
  { s with
    fault := true
    faultCause := f.code
    faultInfo := f.info
    pc := (Config.afterFault s.cycleCount f.code f.info).pc
    armed := (Config.afterFault s.cycleCount f.code f.info).armed
    d := (Config.afterFault s.cycleCount f.code f.info).d
    e := (Config.afterFault s.cycleCount f.code f.info).e
    m := (Config.afterFault s.cycleCount f.code f.info).m
    w := (Config.afterFault s.cycleCount f.code f.info).w
    sb := (Config.afterFault s.cycleCount f.code f.info).sb }

/-! Sequencing -/

/-- Neither halted nor faulted (R167). -/
def State.running (s : State) : Bool := !s.halted && !s.fault

/-- Goes on with the next unit of the cycle unless the last one raised a fault, which ends the step at once (R167). -/
def andThen (o : Host.Outcome State Fault Refusal) (k : State → Host.Outcome State Fault Refusal) :
    Host.Outcome State Fault Refusal :=
  match o with
  | .next s => if s.fault then .next s else k s
  | .fault r => .fault r
  | .refused r => .refused r

end Sys2Proof.Machine
end

