-- ==== Sys2Proof/Machine/Operands.lean ====
section
/-! DEFINITION. How decode obtains operand values: the register file, the scoreboard and the two forwarding paths
(spec/40_pipeline.md R146 to R150). Decode is evaluated after execute and memory (R141), so the instruction execute
processed this cycle (`Xa`) stands in the memory latch and the one memory processed (`Xb`) in the writeback latch. -/

namespace Sys2Proof.Machine

/-- The kind of the last reservation of register `r` in a list (R149). -/
def lastKind (r : RegIdx) (res : List Reservation) : Option Kind :=
  match res with
  | [] => none
  | p :: rest =>
    match lastKind r rest with
    | some k => some k
    | none => if p.reg = r then some p.kind else none

/-- What a producer offers to forwarding (R149). -/
inductive Offer where
  | nothing
  | notReady
  | ready (v : Word)
deriving DecidableEq, Repr

/-- The path a producer is on (R149). -/
inductive Path where
  /-- (a): the instruction execute processed this cycle -/
  | xa
  /-- (b): the instruction memory processed this cycle -/
  | xb
deriving DecidableEq, Repr

/-- `offer(X, r)` (R149). A bubble offers nothing. -/
def offer (path : Path) (x : Option Latch) (r : RegIdx) : Offer :=
  match x with
  | none => .nothing
  | some l =>
    match lastKind r l.res with
    | none => .nothing
    | some .alu => .ready l.result
    | some .inc => .ready l.inc
    | some .mem =>
      match path with
      | .xa => .notReady
      | .xb => .ready l.result

/-- The register file's value where no writer is outstanding (R147, R148). -/
def registerOperand (s : State) (r : RegIdx) : Option Word :=
  if s.count r = 0 then some (s.reg r) else none

/-- `operand(r)`, none for NONE (R147). -/
def operand (s : State) (r : RegIdx) : Option Word :=
  if s.cfg.forwarding then
    match offer .xa s.m r with
    | .ready v => some v
    | .notReady => none
    | .nothing =>
      match offer .xb s.w r with
      | .ready v => some v
      | .notReady => none
      | .nothing => registerOperand s r
  else registerOperand s r

/-- The value of a source field: that of its register, or the field's own old value, a don't-care, where the instruction
does not use the source (R147). -/
def sourceValue (s : State) (src : Option RegIdx) (unused : Word) : Option Word :=
  match src with
  | none => some unused
  | some r => operand s r

end Sys2Proof.Machine
end

