-- ==== Sys2Proof/Machine/Stages.lean ====
section
/-! DEFINITION. What the five stage units do with the instruction in their latch, once for all instructions: the frame
of spec/40_pipeline.md that each instruction's rule fills in per stage (spec/00_scope.md R15). Every operation here is
the work of one unit on a state of which `stage` names that unit. A unit whose latch is a bubble passes a bubble on and
does nothing else (R42). -/

namespace Sys2Proof.Machine

/-- An instruction's meaning: its work in the unit being evaluated, one of its five stages (R15, R140). -/
def perStage (fetch decode execute memory writeback : State → State) (s : State) :
    Host.Outcome State Fault Refusal :=
  match s.stage with
  | .fetch => .next (fetch s)
  | .decode => .next (decode s)
  | .execute => .next (execute s)
  | .memory => .next (memory s)
  | .writeback => .next (writeback s)

/-! Fetch -/

/-- The latch a fetch delivers: the static fields and the fetch-time pc, the computed fields don't-care zeros (R143). -/
def fetchedLatch (i : Instr) (pc : Word) : Latch :=
  { instr := i, pc, v1 := 0, v2 := 0, result := 0, ea := 0, inc := 0, res := [], rel := false }

/-- Delivers a decoded instruction to D and advances `pc` (R143). -/
def deliver (i : Instr) (s : State) : State :=
  { s with d := some (fetchedLatch i s.pc), pc := nextPc s.pc }

/-- Delivers HALT, which also disarms fetch (R144). -/
def deliverHalt (s : State) : State :=
  { deliver .halt s with armed := false }

/-! Decode -/

/-- Decode holds its instruction: a bubble into E, D unchanged, no counter changed (R151). -/
def stall (s : State) : State :=
  { s with e := none, stalled := true }

/-- Issue or stall (R147, R151). `src1` and `src2` are the sources the instruction uses (`Srcs`), `dsts` its
reservations in writeback order (`Dsts`, R146). A counter that would pass 7 raises InvariantViolation (R306). -/
def issue (src1 src2 : Option RegIdx) (dsts : List Reservation) (s : State) : State :=
  match s.d with
  | none => { s with e := none }
  | some l =>
    match sourceValue s src1 l.v1, sourceValue s src2 l.v2 with
    | some v1, some v2 =>
      match reserveAll dsts s.sb with
      | .ok sb => { s with e := some { l with v1 := v1, v2 := v2, res := dsts, rel := false }, sb := sb }
      | .error r => raise (.invariantViolation r) s
    | _, _ => stall s

/-! Execute -/

/-- What an instruction's execute step returns: the latch with its computed fields, the flags, and the control-transfer
outcome, a target where it is taken (R152, R154). -/
structure Executed where
  latch : Latch
  flags : Flags
  target : Option Word

/-- The one shared redirect and flush step, triggered by a taken transfer (R154, R162, R163, R165). -/
def redirectTo (target : Option Word) (s : State) : State :=
  match target with
  | none => s
  | some t => { s with pc := t, armed := true, d := none, redirect := true }

/-- The execute unit: the instruction's step, the latch copied into M, then the shared redirect (R152 to R154). -/
def executeWith (step : Latch → Flags → Executed) (s : State) : State :=
  match s.e with
  | none => { s with m := none }
  | some l =>
    redirectTo (step l s.flags).target
      { s with m := some (step l s.flags).latch, flags := (step l s.flags).flags }

/-- Execute of an instruction that computes nothing there. -/
def executeNothing (l : Latch) (f : Flags) : Executed :=
  { latch := l, flags := f, target := none }

/-! Memory -/

/-- The memory unit for an instruction that accesses no memory: the latch passes unmodified (R156). -/
def passMemory (s : State) : State :=
  { s with w := s.m }

/-- The early release of a completing load's reservations with forwarding (R158); `l` is the latch after the access. -/
def releaseEarly (l : Latch) (s : State) : State :=
  if s.cfg.forwarding then
    match releaseAll l.res s.sb with
    | .ok sb => { s with sb := sb, w := some { l with rel := true } }
    | .error r => raise (.invariantViolation r) s
  else { s with w := some l }

/-- The memory unit for LOAD and LOADP (R156 to R158). -/
def loadMemory (s : State) : State :=
  match s.m with
  | none => { s with w := none }
  | some l =>
    if s.inRange l.ea then releaseEarly { l with result := s.memRead l.ea } s
    else raise (.dataAddressOutOfRange l.ea l.pc) s

/-- The memory unit for STORE and STOREP (R156, R157). -/
def storeMemory (s : State) : State :=
  match s.m with
  | none => { s with w := none }
  | some l =>
    if s.inRange l.ea then { s with mem := Memory.write s.mem (cellIndex l.ea) l.v1, w := some l }
    else raise (.dataAddressOutOfRange l.ea l.pc) s

/-! Writeback -/

/-- The register writes of a committing latch, in list order (R159). -/
def commitRegs (l : Latch) (res : List Reservation) (regs : Vector Word 32) : Vector Word 32 :=
  match res with
  | [] => regs
  | p :: rest => commitRegs l rest (setReg regs p.reg (if p.kind = .inc then l.inc else l.result))

/-- The writeback unit: register writes, release of what was not released in memory, the completed-instruction counter,
and the end of the run where the instruction halts (R159 to R161). -/
def commitWith (halts : Bool) (s : State) : State :=
  match s.w with
  | none => s
  | some l =>
    match (if l.rel then .ok s.sb else releaseAll l.res s.sb) with
    | .ok sb =>
      { s with
        regs := commitRegs l l.res s.regs
        sb := sb
        retiredCount := s.retiredCount + 1
        halted := s.halted || halts }
    | .error r => raise (.invariantViolation r) s

/-- The writeback unit for every instruction but HALT (R159, R160). -/
def commit (s : State) : State := commitWith false s

/-- The writeback unit for HALT (R161). -/
def commitHalt (s : State) : State := commitWith true s

end Sys2Proof.Machine
end

