-- ==== Sys2Proof/Machine/Alu.lean ====
section
/-! DEFINITION. The arithmetic, logical, move and compare instructions (spec/41_alu_compare.md). -/

namespace Sys2Proof.Machine

/-- `wrap(s(a) + s(b))` (R12, R201). -/
def addWords (a b : Word) : Word := wrap (sval a + sval b)

/-- `wrap(s(a) − s(b))` (R12, R202). -/
def subWords (a b : Word) : Word := wrap (sval a - sval b)

/-- `wrap(s(a) × s(b))`, the low 32 bits of the product (R12, R203). -/
def mulWords (a b : Word) : Word := wrap (sval a * sval b)

/-- `a & b` (R204). -/
def andWords (a b : Word) : Word := a &&& b

/-- `a | b` (R205). -/
def orWords (a b : Word) : Word := a ||| b

/-- `a ^ b` (R206). -/
def xorWords (a b : Word) : Word := a ^^^ b

/-- Execute of an instruction that computes a result and sets all three flags from it (R200). -/
def computeResult (result : Latch → Word) (l : Latch) (_ : Flags) : Executed :=
  { latch := { l with result := result l }, flags := resultFlags (result l), target := none }

/-- Execute of a compare: the flags alone (R210, R211). -/
def computeCompare (right : Latch → Word) (l : Latch) (_ : Flags) : Executed :=
  { latch := l, flags := compareFlags l.v1 (right l), target := none }

/-- A register-register instruction: reads rs1 and rs2, reserves rd, sets the flags (R200, R212). -/
def registerRegister (i : Instr) (f : Word → Word → Word) (rd rs1 rs2 : RegIdx) (s : State) :
    Host.Outcome State Fault Refusal :=
  perStage (deliver i) (issue (some rs1) (some rs2) [⟨rd, .alu⟩])
    (executeWith (computeResult fun l => f l.v1 l.v2)) passMemory commit s

/-- A register-immediate instruction: reads rs1, reserves rd, sets the flags (R200, R212). -/
def registerImmediate (i : Instr) (f : Word → Word → Word) (rd rs1 : RegIdx) (imm : Word) (s : State) :
    Host.Outcome State Fault Refusal :=
  perStage (deliver i) (issue (some rs1) none [⟨rd, .alu⟩])
    (executeWith (computeResult fun l => f l.v1 imm)) passMemory commit s

/-- ADD (R201). -/
def execAdd (rd rs1 rs2 : RegIdx) (s : State) : Host.Outcome State Fault Refusal :=
  registerRegister (.add rd rs1 rs2) addWords rd rs1 rs2 s

/-- SUB (R202). -/
def execSub (rd rs1 rs2 : RegIdx) (s : State) : Host.Outcome State Fault Refusal :=
  registerRegister (.sub rd rs1 rs2) subWords rd rs1 rs2 s

/-- MUL (R203). -/
def execMul (rd rs1 rs2 : RegIdx) (s : State) : Host.Outcome State Fault Refusal :=
  registerRegister (.mul rd rs1 rs2) mulWords rd rs1 rs2 s

/-- AND (R204). -/
def execAnd (rd rs1 rs2 : RegIdx) (s : State) : Host.Outcome State Fault Refusal :=
  registerRegister (.and rd rs1 rs2) andWords rd rs1 rs2 s

/-- OR (R205). -/
def execOr (rd rs1 rs2 : RegIdx) (s : State) : Host.Outcome State Fault Refusal :=
  registerRegister (.or rd rs1 rs2) orWords rd rs1 rs2 s

/-- XOR (R206). -/
def execXor (rd rs1 rs2 : RegIdx) (s : State) : Host.Outcome State Fault Refusal :=
  registerRegister (.xor rd rs1 rs2) xorWords rd rs1 rs2 s

/-- ADDL (R207). -/
def execAddl (rd rs1 : RegIdx) (imm : Word) (s : State) : Host.Outcome State Fault Refusal :=
  registerImmediate (.addl rd rs1 imm) addWords rd rs1 imm s

/-- SUBL (R208). -/
def execSubl (rd rs1 : RegIdx) (imm : Word) (s : State) : Host.Outcome State Fault Refusal :=
  registerImmediate (.subl rd rs1 imm) subWords rd rs1 imm s

/-- MOVC: reads no register, writes no flag (R209). -/
def execMovc (rd : RegIdx) (imm : Word) (s : State) : Host.Outcome State Fault Refusal :=
  perStage (deliver (.movc rd imm)) (issue none none [⟨rd, .alu⟩])
    (executeWith fun l f => { latch := { l with result := imm }, flags := f, target := none }) passMemory commit s

/-- CMP: writes no register (R210). -/
def execCmp (rs1 rs2 : RegIdx) (s : State) : Host.Outcome State Fault Refusal :=
  perStage (deliver (.cmp rs1 rs2)) (issue (some rs1) (some rs2) []) (executeWith (computeCompare fun l => l.v2))
    passMemory commit s

/-- CML: writes no register (R211). -/
def execCml (rs1 : RegIdx) (imm : Word) (s : State) : Host.Outcome State Fault Refusal :=
  perStage (deliver (.cml rs1 imm)) (issue (some rs1) none []) (executeWith (computeCompare fun _ => imm))
    passMemory commit s

end Sys2Proof.Machine
end

