-- ==== Sys2Proof/Machine/Control.lean ====
section
/-! DEFINITION. The control-transfer instructions (spec/43_control_transfer.md). -/

namespace Sys2Proof.Machine

/-- An absolute target `wrap(s(v1) + imm)` (R261, R262), or a relative one `wrap(pc + imm)` (R263), by the base. -/
def transferTarget (base imm : Word) : Word := wrap (sval base + sval imm)

/-- Execute of a conditional branch, relative to the branch's own fetch address (R263). -/
def computeBranch (test : Flags → Bool) (imm : Word) (l : Latch) (f : Flags) : Executed :=
  { latch := l, flags := f, target := if test f then some (transferTarget l.pc imm) else none }

/-- A conditional branch: reads no register, reserves none, writes no flag (R263). -/
def conditionalBranch (i : Instr) (test : Flags → Bool) (imm : Word) (s : State) :
    Host.Outcome State Fault Refusal :=
  perStage (deliver i) (issue none none []) (executeWith (computeBranch test imm)) passMemory commit s

/-- JUMP: always taken (R261). -/
def execJump (rs1 : RegIdx) (imm : Word) (s : State) : Host.Outcome State Fault Refusal :=
  perStage (deliver (.jump rs1 imm)) (issue (some rs1) none [])
    (executeWith fun l f => { latch := l, flags := f, target := some (transferTarget l.v1 imm) }) passMemory commit s

/-- JALR: always taken, and the link value into rd (R262). -/
def execJalr (rd rs1 : RegIdx) (imm : Word) (s : State) : Host.Outcome State Fault Refusal :=
  perStage (deliver (.jalr rd rs1 imm)) (issue (some rs1) none [⟨rd, .alu⟩])
    (executeWith fun l f =>
      { latch := { l with result := nextPc l.pc }, flags := f, target := some (transferTarget l.v1 imm) })
    passMemory commit s

/-- BZ (R264). -/
def execBz (imm : Word) (s : State) : Host.Outcome State Fault Refusal :=
  conditionalBranch (.bz imm) testZ imm s

/-- BNZ (R265). -/
def execBnz (imm : Word) (s : State) : Host.Outcome State Fault Refusal :=
  conditionalBranch (.bnz imm) testNZ imm s

/-- BP (R266). -/
def execBp (imm : Word) (s : State) : Host.Outcome State Fault Refusal :=
  conditionalBranch (.bp imm) testP imm s

/-- BNP (R267). -/
def execBnp (imm : Word) (s : State) : Host.Outcome State Fault Refusal :=
  conditionalBranch (.bnp imm) testNP imm s

/-- BN (R268). -/
def execBn (imm : Word) (s : State) : Host.Outcome State Fault Refusal :=
  conditionalBranch (.bn imm) testN imm s

/-- BNN (R269). -/
def execBnn (imm : Word) (s : State) : Host.Outcome State Fault Refusal :=
  conditionalBranch (.bnn imm) testNN imm s

end Sys2Proof.Machine
end

