-- ==== Sys2Proof/Machine/LoadStore.lean ====
section
/-! DEFINITION. The load and store instructions (spec/42_load_store.md). -/

namespace Sys2Proof.Machine

/-- The effective address `wrap(s(base) + imm)` (R240). -/
def effectiveAddress (base imm : Word) : Word := wrap (sval base + sval imm)

/-- The post-increment value `wrap(s(base) + 4)` (R240). -/
def postIncrement (base : Word) : Word := wordPlus base Config.postInc

/-- Execute of a form without post-increment (R241, R243). -/
def computeAddress (base : Latch → Word) (imm : Word) (l : Latch) (f : Flags) : Executed :=
  { latch := { l with ea := effectiveAddress (base l) imm }, flags := f, target := none }

/-- Execute of a post-increment form: the access uses the base before the increment (R240, R242, R244). -/
def computeAddressInc (base : Latch → Word) (imm : Word) (l : Latch) (f : Flags) : Executed :=
  { latch := { l with ea := effectiveAddress (base l) imm, inc := postIncrement (base l) }, flags := f, target := none }

/-- LOAD (R241). -/
def execLoad (rd rs1 : RegIdx) (imm : Word) (s : State) : Host.Outcome State Fault Refusal :=
  perStage (deliver (.load rd rs1 imm)) (issue (some rs1) none [⟨rd, .mem⟩])
    (executeWith (computeAddress (fun l => l.v1) imm)) loadMemory commit s

/-- LOADP: the loaded value into rd, then the post-increment value into rs1 (R242). -/
def execLoadp (rd rs1 : RegIdx) (imm : Word) (s : State) : Host.Outcome State Fault Refusal :=
  perStage (deliver (.loadp rd rs1 imm)) (issue (some rs1) none [⟨rd, .mem⟩, ⟨rs1, .inc⟩])
    (executeWith (computeAddressInc (fun l => l.v1) imm)) loadMemory commit s

/-- STORE: rs1 the value, rs2 the base (R243). -/
def execStore (rs1 rs2 : RegIdx) (imm : Word) (s : State) : Host.Outcome State Fault Refusal :=
  perStage (deliver (.store rs1 rs2 imm)) (issue (some rs1) (some rs2) [])
    (executeWith (computeAddress (fun l => l.v2) imm)) storeMemory commit s

/-- STOREP: rs1 the value, rs2 the base, which is incremented at writeback (R244). -/
def execStorep (rs1 rs2 : RegIdx) (imm : Word) (s : State) : Host.Outcome State Fault Refusal :=
  perStage (deliver (.storep rs1 rs2 imm)) (issue (some rs1) (some rs2) [⟨rs2, .inc⟩])
    (executeWith (computeAddressInc (fun l => l.v2) imm)) storeMemory commit s

end Sys2Proof.Machine
end

