-- ==== Sys2Proof/Machine/NopHalt.lean ====
section
/-! DEFINITION. NOP and HALT (spec/44_nop_halt.md). -/

namespace Sys2Proof.Machine

/-- NOP: nothing in any stage, but it is retired (R290). -/
def execNop (s : State) : Host.Outcome State Fault Refusal :=
  perStage (deliver .nop) (issue none none []) (executeWith executeNothing) passMemory commit s

/-- HALT: disarms fetch when fetched and ends the run when it commits (R291). -/
def execHalt (s : State) : Host.Outcome State Fault Refusal :=
  perStage deliverHalt (issue none none []) (executeWith executeNothing) passMemory commitHalt s

end Sys2Proof.Machine
end

