-- ==== Sys2Proof/Machine/Units.lean ====
section
/-! DEFINITION. The pipeline driver: the five stage units in reverse pipeline order, each giving the instruction in its
latch to that instruction's meaning, and the fetch unit's four cases (spec/40_pipeline.md R140 to R145, R167). -/

namespace Sys2Proof.Machine

/-- The state a unit's instruction is given: `stage` names the unit. -/
def State.at (s : State) (u : Stage) : State := { s with stage := u }

/-- Writeback: a bubble in W does nothing (R42, R159). -/
def writebackUnit (s : State) : Host.Outcome State Fault Refusal :=
  match s.w with
  | none => .next s
  | some l => exec l.instr (s.at .writeback)

/-- Memory: a bubble in M leaves a bubble in W (R156). -/
def memoryUnit (s : State) : Host.Outcome State Fault Refusal :=
  match s.m with
  | none => .next { s with w := none }
  | some l => exec l.instr (s.at .memory)

/-- Execute: a bubble in E leaves a bubble in M (R152). -/
def executeUnit (s : State) : Host.Outcome State Fault Refusal :=
  match s.e with
  | none => .next { s with m := none }
  | some l => exec l.instr (s.at .execute)

/-- Decode: a bubble in D, also one a redirect has flushed, leaves a bubble in E (R151, R165). -/
def decodeUnit (s : State) : Host.Outcome State Fault Refusal :=
  match s.d with
  | none => .next { s with e := none }
  | some l => exec l.instr (s.at .decode)

/-- Reads the instruction store at `pc`, decodes the word and gives the instruction to its meaning; a `pc` that is no
legal fetch address raises FetchOutOfRange, an illegal word IllegalInstruction (R143, R303, R304). -/
def fetchInstr (s : State) : Host.Outcome State Fault Refusal :=
  match s.codeAt s.pc with
  | none => .next (raise (.fetchOutOfRange s.pc) s)
  | some w =>
    match decode s.cfg.nregs w with
    | .error _ => .next (raise (.illegalInstruction s.pc (highHalf w)) s)
    | .ok i => exec i (s.at .fetch)

/-- The fetch unit's four cases in the order they are tested: a redirect this cycle, a stall this cycle, armed, disarmed
(R142, R145, R164). -/
def fetchUnit (s : State) : Host.Outcome State Fault Refusal :=
  if s.redirect then .next { s with d := none }
  else if s.stalled then .next s
  else if s.armed then fetchInstr s
  else .next { s with d := none }

/-- What opens a cycle: the cycle counter, and no signal raised yet (R49, R54, R167). -/
def beginCycle (s : State) : State :=
  { s with cycleCount := s.cycleCount + 1, stalled := false, redirect := false }

/-- What closes a cycle: the signals have no value between cycles (R49, U14). -/
def endCycle (s : State) : State :=
  { s with stage := .writeback, stalled := false, redirect := false }

/-- The cycle up to the state the fetch unit is given (R140, R167). -/
def cycleToFetch (s : State) : Host.Outcome State Fault Refusal :=
  andThen (andThen (andThen (writebackUnit (beginCycle s)) memoryUnit) executeUnit) decodeUnit

/-- Closes the cycle on whatever state its units left. -/
def closeCycle (o : Host.Outcome State Fault Refusal) : Host.Outcome State Fault Refusal :=
  match o with
  | .next s => .next (endCycle s)
  | .fault r => .fault r
  | .refused r => .refused r

/-- One cycle of a running engine (R167). -/
def cycle (s : State) : Host.Outcome State Fault Refusal :=
  closeCycle (andThen (cycleToFetch s) fetchUnit)

/-- One step: there is none without an instruction store (R306), a halted or faulted engine does not change (R172), and
a running one advances by exactly one cycle (R169). -/
def engineStep (s : State) : Host.Outcome State Fault Refusal :=
  if s.noStore then .refused .emptyStore
  else if s.running then cycle s
  else .next s

/-- The store index at which the next fetch will read: that of `pc`, or the first word where `pc` lies on no word's
address. -/
def placeIndex (s : State) : Nat :=
  if uval s.cfg.codeBase ≤ uval s.pc ∧ (uval s.pc - uval s.cfg.codeBase) % Config.ilen = 0 then
    (uval s.pc - uval s.cfg.codeBase) / Config.ilen
  else 0

/-- The word NOP, which fills store places below the one a word is put at. -/
def nopWord : InstrWord := encode .nop

/-- Puts a word at an index of the store, which grows by NOP words where it is shorter. -/
def placeWord (code : List InstrWord) (k : Nat) (w : InstrWord) : List InstrWord :=
  match k, code with
  | 0, [] => [w]
  | 0, _ :: rest => w :: rest
  | n + 1, [] => nopWord :: placeWord [] n w
  | n + 1, c :: rest => c :: placeWord rest n w

end Sys2Proof.Machine
end

