-- ==== Sys2Proof/Machine/Step.lean ====
section
/-! DEFINITION. One step of the machine, and how a word is placed where the next step fetches. -/

namespace Sys2Proof.Machine

/-- One step is one clock cycle (R140, R169). -/
def step (s : State) : Host.Outcome State Fault Refusal := engineStep s

/-- `s` with the word of `nbits` bits `w` where the next step fetches, on an engine whose pipeline is empty and which is
running with fetch armed, so that the next step does fetch it (log entry 6). -/
def State.withFetchWord (s : State) (nbits w : Nat) : State :=
  { s with
    code := placeWord s.code (placeIndex s) (tableWord nbits w)
    pc := s.cfg.codeBase + BitVec.ofNat 32 (Config.ilen * placeIndex s)
    armed := true
    d := none, e := none, m := none, w := none
    halted := false
    fault := false }

end Sys2Proof.Machine
end

