-- ==== Sys2Proof/Machine/HostOps.lean ====
section
/-! DEFINITION. The host's operations on the core: construction, status, run, inspection and the ports
(spec/00_scope.md R10, spec/40_pipeline.md R168 to R172, spec/70_reset_and_hazards.md R330, R333). -/

namespace Sys2Proof.Machine

/-- The data memory a preload image makes: a later entry for a cell wins, an entry that names no cell is ignored
(R84; log entry 9). -/
def preloadImage (dmemSize : Nat) (image : List (Nat × Word)) : List Cell :=
  image.foldl (fun mem c => if c.1 < dmemSize then Memory.write mem c.1 c.2 else mem) []

/-- Construction, which is reset (R168, R330): refused with an empty store, and the words are not checked (R306, D26). -/
def construct (cfg : Params) (code : List InstrWord) (image : List (Nat × Word)) :
    Host.Outcome State Fault Refusal :=
  if code.isEmpty then .refused .emptyStore
  else .next (State.initial cfg code (preloadImage cfg.dmemSize image))

/-- What a step reports (R169). -/
inductive Status where
  | running
  | halted
  | fault (cause : BitVec 3) (info : BitVec 64)
deriving DecidableEq, Repr

/-- The status of an engine, the same at every later step of a halted or faulted one (R169, R172). -/
def State.status (s : State) : Status :=
  if s.fault then .fault s.faultCause s.faultInfo
  else if s.halted then .halted
  else .running

/-- The bound a run is given: `run(B)`, or run-to-completion, `run(∞)` (R171). -/
inductive Budget where
  | cycles (bound : Nat)
  | unbounded
deriving DecidableEq, Repr

/-- Whether the budget lets a running engine step once more: `cycle_count < B` (R171). `cycle_count` wraps modulo 2^64
(R313), so a bound of 2^64 or more is never reached and is no other than `run(∞)`. -/
def Budget.allows (budget : Budget) (cycleCount : BitVec 64) : Bool :=
  match budget with
  | .cycles bound => decide (cycleCount.toNat < bound)
  | .unbounded => true

/-- The status a run returns (R171, R333). -/
inductive RunStatus where
  | halted
  | fault (cause : BitVec 3) (info : BitVec 64)
  | budgetExhausted
deriving DecidableEq, Repr

/-- What a run returns: `(cycle_count, retired_count, status)` (R171). -/
structure RunResult where
  cycleCount : BitVec 64
  retiredCount : BitVec 64
  status : RunStatus
deriving DecidableEq, Repr

/-- What a run that stops at this state returns: an engine still running has exhausted its budget (R171, R333). -/
def State.runResult (s : State) : RunResult :=
  { cycleCount := s.cycleCount
    retiredCount := s.retiredCount
    status :=
      match s.status with
      | .running => .budgetExhausted
      | .halted => .halted
      | .fault cause info => .fault cause info }

/-- How far a run has come: it has returned, or it is still stepping. -/
inductive RunProgress where
  | returned (final : State) (result : RunResult)
  | stepping (s : State)
deriving DecidableEq, Repr

/-- A run watched for at most `steps` steps: it steps while the engine is running and the budget allows it, and returns as
soon as one of them fails (R171). There is no run without an engine (R306). -/
def runFor (budget : Budget) (steps : Nat) (s : State) : Host.Outcome RunProgress Fault Refusal :=
  if s.noStore then .refused .emptyStore
  else if s.running && budget.allows s.cycleCount then
    match steps with
    | 0 => .next (.stepping s)
    | n + 1 =>
      match step s with
      | .next t => runFor budget n t
      | .fault r => .fault r
      | .refused r => .refused r
  else .next (.returned s s.runResult)

/-- The run returns `result` and leaves the engine in `final`: after some number of steps it does (R171). -/
def RunReturns (budget : Budget) (s final : State) (result : RunResult) : Prop :=
  ∃ steps, runFor budget steps s = .next (.returned final result)

/-- The run does not return: however long it is watched, it is still stepping (R171, R333). -/
def RunEndless (budget : Budget) (s : State) : Prop :=
  ∀ steps, ∃ t, runFor budget steps s = .next (.stepping t)

/-- What the host may read (R170). -/
structure Inspection where
  regs : List Word
  flags : Flags
  mem : List Cell
  cycleCount : BitVec 64
  retiredCount : BitVec 64
  halted : Bool
  fault : Bool
  faultCause : BitVec 3
  faultInfo : BitVec 64
deriving DecidableEq, Repr

/-- Inspection: R0 to R(NREGS-1), the flags, the data memory, the counters, `halted` and the fault state (R170). -/
def State.inspect (s : State) : Inspection :=
  { regs := s.regs.toList.take s.cfg.nregs
    flags := s.flags
    mem := s.mem
    cycleCount := s.cycleCount
    retiredCount := s.retiredCount
    halted := s.halted
    fault := s.fault
    faultCause := s.faultCause
    faultInfo := s.faultInfo }

/-- The output ports that follow from the state alone (R10). -/
structure Ports where
  halted : Bool
  fault : Bool
  faultCause : BitVec 3
  faultInfo : BitVec 64
  cycleCount : BitVec 64
  retiredCount : BitVec 64
deriving DecidableEq, Repr

/-- The values of those ports (R10). -/
def State.ports (s : State) : Ports :=
  { halted := s.halted, fault := s.fault, faultCause := s.faultCause, faultInfo := s.faultInfo
    cycleCount := s.cycleCount, retiredCount := s.retiredCount }

/-- The index fetch reads in the cycle that starts in `s`: `imem_addr` where `imem_rd` is 1, none where it is 0 (R10). -/
def imemRead (s : State) : Option Nat :=
  if s.noStore || !s.running then none
  else
    match cycleToFetch s with
    | .next t => if t.fault || t.redirect || t.stalled || !t.armed then none else t.fetchIndex t.pc
    | .fault _ => none
    | .refused _ => none

/-- One clock edge with the pins `rst` and `step` (R10): reset constructs anew, with `step = 0` the state holds. DESIGN
CHOICE (log entry 13): with both pins 1 reset acts and no step is taken, which R10 and R330 leave open. -/
def clockEdge (rst stepPin : Bool) (cfg : Params) (code : List InstrWord) (image : List (Nat × Word)) (s : State) :
    Host.Outcome State Fault Refusal :=
  if rst then construct cfg code image
  else if stepPin then step s
  else .next s

end Sys2Proof.Machine
end

