-- ==== Sys2Proof/Safety.lean ====
section
/-! DEFINITION. The terms claims are stated in: the spec's operand-use table, and the conditions on a state that runs
keep. Nothing of the machine depends on this file. -/

namespace Sys2Proof

/-! The table of spec/30_encoding.md R104 and R108, which the per-instruction rules agree with -/

/-- The formats that use `rd` (R104). -/
def usesRd (opc : BitVec 5) : Bool :=
  decide (opc.toNat ≤ 8) || opc == 11 || opc == 12 || opc == 16

/-- The formats that use `rs1` (R104). -/
def usesRs1 (opc : BitVec 5) : Bool :=
  decide (opc.toNat ≤ 7) || (decide (9 ≤ opc.toNat) && decide (opc.toNat ≤ 16))

/-- The formats that use `rs2` (R104). -/
def usesRs2 (opc : BitVec 5) : Bool :=
  decide (opc.toNat ≤ 5) || opc == 9 || opc == 13 || opc == 14

/-- The formats that use `imm` (R104). -/
def usesImm (opc : BitVec 5) : Bool :=
  opc == 6 || opc == 7 || opc == 8 || (decide (10 ≤ opc.toNat) && decide (opc.toNat ≤ 22))

/-- The first source register, where the instruction reads `rs1` (R108). -/
def Instr.src1 : Instr → Option RegIdx
  | .add _ rs1 _ | .sub _ rs1 _ | .mul _ rs1 _ | .and _ rs1 _ | .or _ rs1 _ | .xor _ rs1 _ => some rs1
  | .addl _ rs1 _ | .subl _ rs1 _ | .load _ rs1 _ | .loadp _ rs1 _ | .jalr _ rs1 _ => some rs1
  | .cmp rs1 _ | .cml rs1 _ | .store rs1 _ _ | .storep rs1 _ _ | .jump rs1 _ => some rs1
  | .movc _ _ | .bz _ | .bnz _ | .bp _ | .bnp _ | .bn _ | .bnn _ | .nop | .halt => none

/-- The second source register, where the instruction reads `rs2` (R108). -/
def Instr.src2 : Instr → Option RegIdx
  | .add _ _ rs2 | .sub _ _ rs2 | .mul _ _ rs2 | .and _ _ rs2 | .or _ _ rs2 | .xor _ _ rs2 => some rs2
  | .cmp _ rs2 | .store _ rs2 _ | .storep _ rs2 _ => some rs2
  | .addl _ _ _ | .subl _ _ _ | .load _ _ _ | .loadp _ _ _ | .jalr _ _ _ | .cml _ _ | .jump _ _ => none
  | .movc _ _ | .bz _ | .bnz _ | .bp _ | .bnp _ | .bn _ | .bnn _ | .nop | .halt => none

open Machine in
/-- The reservations made at issue, in writeback order (R108, R146). -/
def Instr.dsts : Instr → List Reservation
  | .add rd _ _ | .sub rd _ _ | .mul rd _ _ | .and rd _ _ | .or rd _ _ | .xor rd _ _ => [⟨rd, .alu⟩]
  | .addl rd _ _ | .subl rd _ _ | .movc rd _ | .jalr rd _ _ => [⟨rd, .alu⟩]
  | .load rd _ _ => [⟨rd, .mem⟩]
  | .loadp rd rs1 _ => [⟨rd, .mem⟩, ⟨rs1, .inc⟩]
  | .storep _ rs2 _ => [⟨rs2, .inc⟩]
  | .cmp _ _ | .cml _ _ | .store _ _ _ | .jump _ _ => []
  | .bz _ | .bnz _ | .bp _ | .bnp _ | .bn _ | .bnn _ | .nop | .halt => []

/-- LOAD and LOADP, which read a cell (R70). -/
def Instr.isLoad : Instr → Bool
  | .load _ _ _ | .loadp _ _ _ => true
  | _ => false

/-- STORE and STOREP, which write a cell (R70). -/
def Instr.isStore : Instr → Bool
  | .store _ _ _ | .storep _ _ _ => true
  | _ => false

/-- The ten instructions that write the flags (R34). -/
def Instr.writesFlags (i : Instr) : Bool :=
  decide (i.opcode.toNat ≤ 7) || i.opcode == 9 || i.opcode == 10

/-- Whether an instruction transfers control, by the flags it reads when it executes (R154, R261 to R269). -/
def Instr.takes (i : Instr) (f : Flags) : Bool :=
  match i with
  | .jump _ _ | .jalr _ _ _ => true
  | .bz _ => f.z
  | .bnz _ => !f.z
  | .bp _ => f.p
  | .bnp _ => !f.p
  | .bn _ => f.n
  | .bnn _ => !f.n
  | _ => false

/-- Exactly one of Z, P, N is set (R35). -/
def Flags.oneHot (f : Flags) : Bool :=
  f == ⟨true, false, false⟩ || f == ⟨false, true, false⟩ || f == ⟨false, false, true⟩

end Sys2Proof

namespace Sys2Proof.Machine

/-- An engine that exists (R306) and neither has halted nor faulted (R167). -/
def State.Live (s : State) : Prop :=
  s.code ≠ [] ∧ s.halted = false ∧ s.fault = false

/-- How often register `r` stands in the reservations of a latch, none in a bubble. -/
def resCount (r : RegIdx) (x : Option Latch) : Nat :=
  match x with
  | none => 0
  | some l => l.res.countP fun p => p.reg = r

/-- The same, not counting a latch whose reservations were released early (R48). -/
def heldCount (r : RegIdx) (x : Option Latch) : Nat :=
  match x with
  | none => 0
  | some l => if l.rel then 0 else l.res.countP fun p => p.reg = r

/-- What a latch after decode holds of its instruction's reservations (R41, R151). -/
def Latch.Issued (l : Latch) : Prop :=
  l.res = l.instr.dsts ∧ l.rel = false

/-- What a latch after memory holds of them: only LOAD and LOADP release early, and only with FORWARDING (R47, R158). -/
def Latch.Passed (l : Latch) (forwarding : Bool) : Prop :=
  l.res = l.instr.dsts ∧ (l.rel = true → forwarding = true ∧ l.instr.isLoad = true)

/-- `sb[r]` counts the reservations of E, M and W that have not been released, and those are what the instructions
there reserved at issue (R48). Nothing is said after a fault (R301). -/
def State.ScoreboardInv (s : State) : Prop :=
  s.fault = false →
    (∀ r, (s.count r).toNat = resCount r s.e + resCount r s.m + heldCount r s.w) ∧
    (∀ l ∈ s.e, l.Issued) ∧ (∀ l ∈ s.m, l.Issued) ∧ (∀ l ∈ s.w, l.Passed s.cfg.forwarding)

/-- The same at the moment decode evaluates, when `Xa` stands in M and `Xb` in W and nothing else is in flight
(R174). -/
def State.ScoreboardAtDecode (s : State) : Prop :=
  (∀ r, (s.count r).toNat = resCount r s.m + heldCount r s.w) ∧
  (∀ l ∈ s.m, l.Issued) ∧ (∀ l ∈ s.w, l.Passed s.cfg.forwarding)

/-- The data memory is in canonical form and lists only cells that exist. -/
def State.MemoryInv (s : State) : Prop :=
  Memory.wf s.mem ∧ ∀ c ∈ s.mem, c.1 < s.cfg.dmemSize

/-- Every instruction in flight is legal on this core (R109). -/
def State.LatchesLegal (s : State) : Prop :=
  (∀ l ∈ s.d, l.instr.wf s.cfg.nregs) ∧ (∀ l ∈ s.e, l.instr.wf s.cfg.nregs ∧ l.res = l.instr.dsts) ∧
  (∀ l ∈ s.m, l.instr.wf s.cfg.nregs ∧ l.res = l.instr.dsts) ∧
  (∀ l ∈ s.w, l.instr.wf s.cfg.nregs ∧ l.res = l.instr.dsts)

/-- No register at or above NREGS ever holds anything but its initial 0, and no instruction in flight names one (R30,
R106). Nothing is said of the latches after a fault (R301). -/
def State.RegistersInv (s : State) : Prop :=
  (∀ r : RegIdx, s.cfg.nregs ≤ r.toNat → s.reg r = 0) ∧ (s.fault = false → s.LatchesLegal)

/-- The latch holds the instruction of the word that the store holds at the latch's fetch address, read as R33 and R51 say
(R143). -/
def Latch.FetchedFrom (l : Latch) (s : State) : Prop :=
  uval s.cfg.codeBase ≤ uval l.pc ∧ (uval l.pc - uval s.cfg.codeBase) % 4 = 0 ∧
    ∃ w, s.code[(uval l.pc - uval s.cfg.codeBase) / 4]? = some w ∧ decode s.cfg.nregs w = .ok l.instr

/-- Every instruction in flight is the one at its fetch address. Nothing is said of the latches after a fault (R301). -/
def State.FetchedInv (s : State) : Prop :=
  s.fault = false →
    (∀ l ∈ s.d, l.FetchedFrom s) ∧ (∀ l ∈ s.e, l.FetchedFrom s) ∧ (∀ l ∈ s.m, l.FetchedFrom s) ∧
      ∀ l ∈ s.w, l.FetchedFrom s

/-- The latch holds HALT. -/
def isHalt (x : Option Latch) : Prop := ∃ l, x = some l ∧ l.instr = .halt

/-- Behind a HALT in flight there are only bubbles and fetch is disarmed, and so it stays once HALT has committed (R144,
R174). Nothing is said after a fault (R301). -/
def State.HaltInv (s : State) : Prop :=
  s.fault = false →
    (isHalt s.d → s.armed = false) ∧
    (isHalt s.e → s.armed = false ∧ s.d = none) ∧
    (isHalt s.m → s.armed = false ∧ s.d = none ∧ s.e = none) ∧
    (isHalt s.w → s.armed = false ∧ s.d = none ∧ s.e = none ∧ s.m = none) ∧
    (s.halted = true → s.armed = false ∧ s.d = none ∧ s.e = none ∧ s.m = none ∧ s.w = none)

/-- The register file once the two issued instructions have committed in program order, `Xb` before `Xa`, each as its
latch stands: what an instruction in decode must read (R78, R177). -/
def State.settledRegs (s : State) : Vector Word 32 :=
  let afterXb := match s.w with
    | none => s.regs
    | some l => commitRegs l l.res s.regs
  match s.m with
  | none => afterXb
  | some l => commitRegs l l.res afterXb

/-- One instruction alone in the pipeline, just fetched into D: nothing issued before it is in flight, no register is
busy, and fetch is disarmed so that nothing follows it. -/
def State.Lone (s : State) (l : Latch) : Prop :=
  s.Live ∧ s.d = some l ∧ s.e = none ∧ s.m = none ∧ s.w = none ∧ s.armed = false ∧ ∀ r, s.count r = 0

/-- The pipeline has emptied: bubbles everywhere and no register busy. -/
def State.Drained (s : State) : Prop :=
  s.d = none ∧ s.e = none ∧ s.m = none ∧ s.w = none ∧ ∀ r, s.count r = 0

/-! What an instruction's rule says of the units in which all instructions of its shape are alike (R15) -/

/-- The scoreboard with 1 added for every reservation (R46). -/
def reserved (dsts : List Reservation) (sb : Vector Count 32) : Vector Count 32 :=
  dsts.foldl (fun sb p => setCount sb p.reg (countAt sb p.reg + 1)) sb

/-- The scoreboard with 1 taken off for every reservation (R47). -/
def released (dsts : List Reservation) (sb : Vector Count 32) : Vector Count 32 :=
  dsts.foldl (fun sb p => setCount sb p.reg (countAt sb p.reg - 1)) sb

/-- No counter passes 7 when these reservations are made (R306). -/
def CanReserve (dsts : List Reservation) (s : State) : Prop :=
  ∀ r, (s.count r).toNat + (dsts.countP fun p => p.reg = r) ≤ 7

/-- No counter passes below 0 when these reservations are released (R306). -/
def CanRelease (dsts : List Reservation) (s : State) : Prop :=
  ∀ r, (dsts.countP fun p => p.reg = r) ≤ (s.count r).toNat

/-- Fetch delivers the instruction to D with its fetch address, and advances `pc` by 4 (R143). -/
def FetchDelivers (i : Instr) : Prop :=
  ∀ s : State, s.stage = .fetch →
    exec i s = .next { s with d := some (fetchedLatch i s.pc), pc := wrap (sval s.pc + 4) }

/-- Decode issues the instruction when every source has a value, with the values and the reservations in its latch and
the counters of the reserved registers raised, and stalls it when some source has none (R147, R151). -/
def DecodeIssues (i : Instr) (srcs1 srcs2 : Option RegIdx) (dsts : List Reservation) : Prop :=
  (∀ (s : State) (l : Latch) (v1 v2 : Word), s.stage = .decode → s.d = some l →
    (∀ r ∈ srcs1, operand s r = some v1) → (srcs1 = none → v1 = l.v1) →
    (∀ r ∈ srcs2, operand s r = some v2) → (srcs2 = none → v2 = l.v2) → CanReserve dsts s →
    exec i s = .next
      { s with
        e := some { l with v1 := v1, v2 := v2, res := dsts, rel := false }
        sb := reserved dsts s.sb }) ∧
  (∀ (s : State) (l : Latch) (r : RegIdx), s.stage = .decode → s.d = some l → r ∈ srcs1 ∨ r ∈ srcs2 →
    operand s r = none → exec i s = .next { s with e := none, stalled := true })

/-- Memory passes the latch on unmodified (R156). -/
def MemoryPasses (i : Instr) : Prop :=
  ∀ (s : State) (l : Latch), s.stage = .memory → s.m = some l → exec i s = .next { s with w := some l }

/-- Writeback commits: `writes` on the register file, the reservations released unless memory released them, one more
instruction retired, and the run ended where `halts` (R159 to R161). -/
def WritebackCommits (i : Instr) (dsts : List Reservation) (writes : Latch → Vector Word 32 → Vector Word 32)
    (halts : Bool) : Prop :=
  ∀ (s : State) (l : Latch), s.stage = .writeback → s.w = some l → l.res = dsts →
    (l.rel = false → CanRelease dsts s) →
    exec i s = .next
      { s with
        regs := writes l s.regs
        sb := if l.rel then s.sb else released dsts s.sb
        retiredCount := s.retiredCount + 1
        halted := s.halted || halts }

/-- A valid latch with these reservations offers its result for `r` on both paths (R149). -/
def OffersResult (dsts : List Reservation) (r : RegIdx) : Prop :=
  ∀ l : Latch, l.res = dsts → offer .xa (some l) r = .ready l.result ∧ offer .xb (some l) r = .ready l.result

/-- It offers the post-increment value for `r` on both paths (R149). -/
def OffersIncrement (dsts : List Reservation) (r : RegIdx) : Prop :=
  ∀ l : Latch, l.res = dsts → offer .xa (some l) r = .ready l.inc ∧ offer .xb (some l) r = .ready l.inc

/-- It offers the loaded value for `r` once memory has processed it, and is not ready before (R149). -/
def OffersLoaded (dsts : List Reservation) (r : RegIdx) : Prop :=
  ∀ l : Latch, l.res = dsts → offer .xa (some l) r = .notReady ∧ offer .xb (some l) r = .ready l.result

/-- It offers nothing for any register (R149). -/
def OffersNothing (dsts : List Reservation) : Prop :=
  ∀ (l : Latch) (path : Path) (r : RegIdx), l.res = dsts → offer path (some l) r = .nothing

/-! The instruction set without a pipeline: what one instruction does to what a program can see (files 41 to 44) -/

/-- What a program can see, and where it goes on. -/
structure Seen where
  regs : Vector Word 32
  flags : Flags
  mem : List Cell
  next : Word
  halted : Bool

/-- The flags of a result (R200). -/
def flagsOf (v : Word) : Flags :=
  { z := decide (sval v = 0), p := decide (sval v > 0), n := decide (sval v < 0) }

/-- The flags of a comparison of two signed integers (R210, R211). -/
def flagsOfCompare (left right : Int) : Flags :=
  { z := decide (left = right), p := decide (left > right), n := decide (left < right) }

/-- The flags after the instruction of a latch has executed, from its operand values (R34, R200, R210, R211). -/
def Latch.flagsAfter (l : Latch) (f : Flags) : Flags :=
  match l.instr with
  | .add _ _ _ => flagsOf (wrap (sval l.v1 + sval l.v2))
  | .sub _ _ _ => flagsOf (wrap (sval l.v1 - sval l.v2))
  | .mul _ _ _ => flagsOf (wrap (sval l.v1 * sval l.v2))
  | .and _ _ _ => flagsOf (l.v1 &&& l.v2)
  | .or _ _ _ => flagsOf (l.v1 ||| l.v2)
  | .xor _ _ _ => flagsOf (l.v1 ^^^ l.v2)
  | .addl _ _ imm => flagsOf (wrap (sval l.v1 + sval imm))
  | .subl _ _ imm => flagsOf (wrap (sval l.v1 - sval imm))
  | .cmp _ _ => flagsOfCompare (sval l.v1) (sval l.v2)
  | .cml _ imm => flagsOfCompare (sval l.v1) (sval imm)
  | _ => f

/-- At the start of a cycle: decode will have no value for register `r` in it. With FORWARDING that is so where the
instruction in E will load it (R150), without it where one in E or M will write it (R148). -/
def State.HoldsBack (s : State) (r : RegIdx) : Prop :=
  if s.cfg.forwarding then
    ∃ l before after, s.e = some l ∧ l.res = before ++ ⟨r, .mem⟩ :: after ∧ ∀ p ∈ after, p.reg ≠ r
  else (∃ l ∈ s.e, ∃ p ∈ l.res, p.reg = r) ∨ ∃ l ∈ s.m, ∃ p ∈ l.res, p.reg = r

/-- At the start of a cycle: fetch will read the store in it, at `pc`. No load or store faults, no transfer is taken, decode
does not stall and fetch is armed (R142, R157). -/
def State.WillFetch (s : State) : Prop :=
  (∀ l ∈ s.m, l.instr.isLoad = true ∨ l.instr.isStore = true → 0 ≤ sval l.ea ∧ sval l.ea < s.cfg.dmemSize) ∧
  (∀ l ∈ s.e, l.instr.takes s.flags = false) ∧
  (∀ l ∈ s.d, ∀ r, r ∈ l.instr.src1 ∨ r ∈ l.instr.src2 → ¬ s.HoldsBack r) ∧
  s.armed = true

/-- The effective address of a load or store (R240). -/
def dataAddress (i : Instr) (regs : Vector Word 32) : Option Word :=
  match i with
  | .load _ rs1 imm | .loadp _ rs1 imm => some (wrap (sval (regAt regs rs1) + sval imm))
  | .store _ rs2 imm | .storep _ rs2 imm => some (wrap (sval (regAt regs rs2) + sval imm))
  | _ => none

/-- The effect of one instruction at address `pc` on what a program sees, its data address in range. -/
def sequential (i : Instr) (pc : Word) (a : Seen) : Seen :=
  let x := regAt a.regs
  let ea := cellIndex ((dataAddress i a.regs).getD 0)
  let on := { a with next := wrap (sval pc + 4) }
  let put := fun rd v => { on with regs := setReg a.regs rd v, flags := flagsOf v }
  let branch := fun (taken : Bool) imm => { a with next := if taken then wrap (sval pc + sval imm) else wrap (sval pc + 4) }
  match i with
  | .add rd rs1 rs2 => put rd (wrap (sval (x rs1) + sval (x rs2)))
  | .sub rd rs1 rs2 => put rd (wrap (sval (x rs1) - sval (x rs2)))
  | .mul rd rs1 rs2 => put rd (wrap (sval (x rs1) * sval (x rs2)))
  | .and rd rs1 rs2 => put rd (x rs1 &&& x rs2)
  | .or rd rs1 rs2 => put rd (x rs1 ||| x rs2)
  | .xor rd rs1 rs2 => put rd (x rs1 ^^^ x rs2)
  | .addl rd rs1 imm => put rd (wrap (sval (x rs1) + sval imm))
  | .subl rd rs1 imm => put rd (wrap (sval (x rs1) - sval imm))
  | .movc rd imm => { on with regs := setReg a.regs rd imm }
  | .cmp rs1 rs2 => { on with flags := flagsOfCompare (sval (x rs1)) (sval (x rs2)) }
  | .cml rs1 imm => { on with flags := flagsOfCompare (sval (x rs1)) (sval imm) }
  | .load rd _ _ => { on with regs := setReg a.regs rd (Memory.read a.mem ea) }
  | .loadp rd rs1 _ =>
    { on with regs := setReg (setReg a.regs rd (Memory.read a.mem ea)) rs1 (wrap (sval (x rs1) + 4)) }
  | .store rs1 _ _ => { on with mem := Memory.write a.mem ea (x rs1) }
  | .storep rs1 rs2 _ =>
    { on with mem := Memory.write a.mem ea (x rs1), regs := setReg a.regs rs2 (wrap (sval (x rs2) + 4)) }
  | .jump rs1 imm => { a with next := wrap (sval (x rs1) + sval imm) }
  | .jalr rd rs1 imm => { a with next := wrap (sval (x rs1) + sval imm), regs := setReg a.regs rd (wrap (sval pc + 4)) }
  | .bz imm => branch a.flags.z imm
  | .bnz imm => branch (!a.flags.z) imm
  | .bp imm => branch a.flags.p imm
  | .bnp imm => branch (!a.flags.p) imm
  | .bn imm => branch a.flags.n imm
  | .bnn imm => branch (!a.flags.n) imm
  | .nop => on
  | .halt => { on with halted := true }

/-- Where the program goes on after the issued instructions: at the instruction waiting in D, else where fetch will
read. -/
def State.nextAddress (s : State) : Word :=
  match s.d with
  | some l => l.pc
  | none => s.pc

/-- What a program sees of a state of the core. -/
def State.seen (s : State) : Seen :=
  { regs := s.regs, flags := s.flags, mem := s.mem, next := s.nextAddress, halted := s.halted }

/-- The target of a control transfer, from the instruction's latch: absolute for JUMP and JALR, relative to the branch's own
fetch address for the others (R261 to R263). -/
def Latch.target (l : Latch) : Word :=
  match l.instr with
  | .jump _ imm | .jalr _ _ imm => wrap (sval l.v1 + sval imm)
  | .bz imm | .bnz imm | .bp imm | .bnp imm | .bn imm | .bnn imm => wrap (sval l.pc + sval imm)
  | _ => l.pc

/-- Finishes the issued instructions and nothing else: what is left of W, then of M, then of E, in program order. -/
def drain (s : State) : Host.Outcome State Fault Refusal :=
  andThen (andThen (andThen (andThen (andThen (writebackUnit s) memoryUnit) executeUnit) writebackUnit) memoryUnit)
    writebackUnit

/-- What a program would see if the issued instructions were finished and nothing were issued any more. -/
def State.Settles (s : State) (a : Seen) : Prop :=
  ∃ u, drain s = .next u ∧ u.fault = false ∧ a = u.seen

/-- `pc` stands behind the instruction that waits in D (R143, R145). -/
def State.PcInv (s : State) : Prop :=
  s.fault = false → ∀ l ∈ s.d, s.pc = wrap (sval l.pc + 4)

end Sys2Proof.Machine
end

