-- ==== Sys2Proof/Certificates/Slice0/Obligations.lean ====
section
/-! DEFINITION. The statements for the provers, from the numbered rules of spec/. -/

open Sys2Proof Sys2Proof.Machine

/-! ## Encoding -/

/-- Every legal instruction is read back from its own word, on a core of any number of registers (R101, R102, R115). -/
def Obligations.DecodeReadsBackEncode : Prop :=
  ∀ (n : Nat) (i : Instr), i.wf n = true → decode n (encode i) = .ok i

/-- A decoded instruction is legal and its own word has the fields of the word it was decoded from, those its format does
not use replaced by zero (R101, R104, R115). -/
def Obligations.DecodedInstructionHasTheWordsFields : Prop :=
  ∀ (n : Nat) (w : InstrWord) (i : Instr), decode n w = .ok i →
    i.wf n = true ∧ i.opcode = fieldOpc w ∧
    encode i = pack (fieldOpc w) (if usesRd (fieldOpc w) then fieldRd w else 0)
      (if usesRs1 (fieldOpc w) then fieldRs1 w else 0) (if usesRs2 (fieldOpc w) then fieldRs2 w else 0)
      (if usesImm (fieldOpc w) then fieldImm w else 0)

/-- Which words are illegal, and that fetching one raises IllegalInstruction, code 2, with the pc and the word's bits 63:32
(R109, R302, R304). -/
def Obligations.IllegalWordsAreExactlyThoseOfTheRule : Prop :=
  (∀ (n : Nat) (w : InstrWord),
    (∃ why, decode n w = .error why) ↔
      (25 ≤ (fieldOpc w).toNat ∨ fieldRsv w ≠ 0 ∨ (usesRd (fieldOpc w) = true ∧ n ≤ (fieldRd w).toNat) ∨
        (usesRs1 (fieldOpc w) = true ∧ n ≤ (fieldRs1 w).toNat) ∨
        (usesRs2 (fieldOpc w) = true ∧ n ≤ (fieldRs2 w).toNat))) ∧
  (∀ (s : State) (w : InstrWord), s.codeAt s.pc = some w → (∃ why, decode s.cfg.nregs w = .error why) →
    fetchInstr s = .next (raise (.illegalInstruction s.pc (highHalf w)) s) ∧
    (raise (.illegalInstruction s.pc (highHalf w)) s).fault = true ∧
    (raise (.illegalInstruction s.pc (highHalf w)) s).faultCause = 2 ∧
    (raise (.illegalInstruction s.pc (highHalf w)) s).faultInfo = s.pc ++ w.extractLsb' 32 32)

/-- Words that differ only in fields their format does not use decode alike, and a legal one has the same effect whichever
of them the store holds (R107). -/
def Obligations.UnusedFieldsAreIgnored : Prop :=
  (∀ (n : Nat) (w w' : InstrWord), fieldOpc w = fieldOpc w' → fieldRsv w = fieldRsv w' →
    (usesRd (fieldOpc w) = true → fieldRd w = fieldRd w') →
    (usesRs1 (fieldOpc w) = true → fieldRs1 w = fieldRs1 w') →
    (usesRs2 (fieldOpc w) = true → fieldRs2 w = fieldRs2 w') →
    (usesImm (fieldOpc w) = true → fieldImm w = fieldImm w') →
    decode n w = decode n w') ∧
  (∀ (s : State) (other : List InstrWord) (w w' : InstrWord) (i : Instr), s.codeAt s.pc = some w →
    State.codeAt { s with code := other } s.pc = some w' → decode s.cfg.nregs w = .ok i →
    decode s.cfg.nregs w' = .ok i →
    ∃ t, fetchInstr s = .next t ∧ fetchInstr { s with code := other } = .next { t with code := other })

/-- Some words of spec/95_test_vectors.md and the instructions they stand for. -/
def Obligations.SampleWordsDecode : Prop :=
  decode 16 0x0080100000000000 = .ok (.add 2 0 1) ∧
  decode 16 0x40800000FFFFFFFB = .ok (.movc 2 (-5)) ∧
  decode 16 0x6804100000000000 = .ok (.store 2 1 0) ∧
  decode 16 0x6102000000000000 = .ok (.loadp 4 1 0) ∧
  decode 16 0x81CC000000000000 = .ok (.jalr 7 6 0) ∧
  decode 16 0x90000000FFFFFFF4 = .ok (.bnz (-12)) ∧
  decode 16 0xC000000000000000 = .ok .halt

/-! ## Construction, status and the step -/

/-- Construction refuses an empty store and otherwise gives the reset state, data memory holding the preload image's
last entry for a cell and 0 elsewhere (R168, R330, R57, R84). Two halves of it are the model's choice (log entry 9): that of
several entries for one cell the last one stands, and that an entry naming no cell is ignored. -/
def Obligations.ConstructionGivesTheResetState : Prop :=
  ∀ (cfg : Params) (code : List InstrWord) (image : List (Nat × Word)),
    (code = [] → construct cfg code image = .refused .emptyStore) ∧
    (code ≠ [] → ∃ s, construct cfg code image = .next s ∧
      (∀ r, s.reg r = 0) ∧ s.pc = cfg.codeBase ∧ s.flags = cfg.flagsReset ∧ s.cfg = cfg ∧ s.code = code ∧
      s.armed = true ∧ s.d = none ∧ s.e = none ∧ s.m = none ∧ s.w = none ∧ (∀ r, s.count r = 0) ∧
      s.halted = false ∧ s.cycleCount = 0 ∧ s.retiredCount = 0 ∧
      s.fault = false ∧ s.faultCause = 0 ∧ s.faultInfo = 0 ∧
      ∀ a, Memory.read s.mem a =
        match image.reverse.find? (fun c => c.1 == a && decide (c.1 < cfg.dmemSize)) with
        | some c => c.2
        | none => 0)

/-- The default parameters reset the flags to Z = 1, P = 0, N = 0 and the pc to 4000 (R36, R331), on 16 registers and
4096 cells (R9). That State.reset has FORWARDING true and an empty store is the model's choice (log entries 4 and 6). -/
def Obligations.ResetWithTheDefaultParameters : Prop :=
  State.reset.flags = ⟨true, false, false⟩ ∧ State.reset.pc = 4000 ∧ State.reset.cfg.nregs = 16 ∧
  State.reset.cfg.dmemSize = 4096 ∧ State.reset.cfg.codeBase = 4000

/-- A step of a halted or faulted engine changes nothing and reports the same status, and only reset leaves these states
(R172). -/
def Obligations.HaltedOrFaultedEngineIsStuck : Prop :=
  ∀ s : State, s.code ≠ [] → s.halted = true ∨ s.fault = true →
    step s = .next s ∧ s.status ≠ .running ∧
    (∀ stepPin cfg code image, clockEdge false stepPin cfg code image s = .next s)

/-- Every step of a live engine is answered by a next state and adds 1 to cycle_count, also the step in which HALT
commits or a fault is raised; a halted or faulted engine's count stays (R54). -/
def Obligations.CycleCountCountsEveryLiveStep : Prop :=
  (∀ s : State, s.Live → ∃ t, step s = .next t ∧ t.cycleCount = s.cycleCount + 1) ∧
  (∀ s t : State, ¬ s.Live → step s = .next t → t.cycleCount = s.cycleCount) ∧
  State.reset.cycleCount = 0

/-- retired_count rises by 1 exactly in the cycles whose W latch is valid, whatever its opcode, and by nothing else
(R55). -/
def Obligations.RetiredCountCountsCommits : Prop :=
  (∀ s t : State, s.Live → s.ScoreboardInv → step s = .next t →
    t.retiredCount = s.retiredCount + (if s.w.isSome then 1 else 0)) ∧
  State.reset.retiredCount = 0

/-- `halted` is set exactly when HALT commits, and a step never clears it (R53, R161). -/
def Obligations.HaltedIsSetExactlyWhenHaltCommits : Prop :=
  (∀ s t : State, s.Live → s.ScoreboardInv → step s = .next t → (t.halted = true ↔ isHalt s.w)) ∧
  (∀ s t : State, step s = .next t → s.halted = true → t.halted = true) ∧
  State.reset.halted = false

/-- A run ends (R171, R333). With a bound B below 2^64 it has returned after at most B - cycle_count steps. Whatever the
budget, a run that returns has made its steps while the engine was running and cycle_count was below the bound, ends where
one of them first fails, with cycle_count at the bound if the engine still runs and had not passed it, and returns the final
counts with Fault, Halted or BudgetExhausted; watching it longer changes nothing. -/
def Obligations.RunStopsAtTheBoundOrTheEnd : Prop :=
  (∀ (s : State) (bound : Nat), s.code ≠ [] → bound < 2 ^ 64 →
    ∃ t r, runFor (.cycles bound) (bound - s.cycleCount.toNat) s = .next (.returned t r)) ∧
  (∀ (s : State) (budget : Budget) (n : Nat) (t : State) (r : RunResult),
    runFor budget n s = .next (.returned t r) →
    (∃ k ≤ n, Host.Core.run Sys2Proof.core k s = .next t ∧
      ∀ j < k, ∃ u, Host.Core.run Sys2Proof.core j s = .next u ∧ u.running = true ∧
        ∀ bound, budget = .cycles bound → u.cycleCount.toNat < bound) ∧
    (t.running = false ∨ ∃ bound, budget = .cycles bound ∧ bound ≤ t.cycleCount.toNat) ∧
    (∀ bound, budget = .cycles bound → t.running = true → s.cycleCount.toNat ≤ bound →
      t.cycleCount.toNat = bound) ∧
    r.cycleCount = t.cycleCount ∧ r.retiredCount = t.retiredCount ∧
    r.status = (if t.fault then .fault t.faultCause t.faultInfo else if t.halted then .halted else .budgetExhausted) ∧
    ∀ m, n ≤ m → runFor budget m s = .next (.returned t r))

/-- The parameters, FORWARDING among them, and the instruction store never change (R38, R51, R82). -/
def Obligations.ParametersAndStoreAreImmutable : Prop :=
  ∀ s t : State, step s = .next t → t.cfg = s.cfg ∧ t.code = s.code

/-- A STEP RUNS THE DECODED INSTRUCTION: with an empty pipeline and fetch armed, the step of a live engine is the fetch of
the instruction the word at `pc` decodes to, run by exec in the fetch unit, with the cycle counted before it and the
cycle closed after it (R142, R143, R167). -/
def Obligations.StepRunsTheFetchedInstruction : Prop :=
  ∀ (s : State) (w : InstrWord) (i : Instr), s.Live → s.armed = true → s.d = none → s.e = none → s.m = none →
    s.w = none → s.codeAt s.pc = some w → decode s.cfg.nregs w = .ok i →
    step s = closeCycle (exec i ((beginCycle s).at .fetch))

/-- A STEP RUNS THE INSTRUCTION OF EVERY LATCH: with all four latches valid and no unit raising a fault, the step of a live
engine is exec of W's instruction, then M's, then E's, then D's unless E's took a transfer, then the fetch unit; each
unit reads its latch as it stood at the start of the cycle (R140, R141, R165). -/
def Obligations.StepRunsTheInstructionOfEveryLatch : Prop :=
  ∀ (s s1 s2 s3 : State) (lw lm le ld : Latch), s.Live →
    s.w = some lw → s.m = some lm → s.e = some le → s.d = some ld →
    exec lw.instr ((beginCycle s).at .writeback) = .next s1 → s1.fault = false →
    exec lm.instr (s1.at .memory) = .next s2 → s2.fault = false →
    exec le.instr (s2.at .execute) = .next s3 →
    (s3.redirect = true → step s = closeCycle (fetchUnit { s3 with e := none })) ∧
    (s3.redirect = false → ∀ s4, exec ld.instr (s3.at .decode) = .next s4 → s4.fault = false →
      step s = closeCycle (fetchUnit s4))

/-! ## Each instruction, unit by unit: completion and result -/

/-- ADD, SUB, MUL, AND, OR, XOR (R201 to R206, R200, R212). -/
def Obligations.RegisterRegisterInstructions : Prop :=
  ∀ p ∈ ([(0, .add, fun a b => wrap (sval a + sval b)), (1, .sub, fun a b => wrap (sval a - sval b)),
      (2, .mul, fun a b => wrap (sval a * sval b)), (3, .and, fun a b => a &&& b), (4, .or, fun a b => a ||| b),
      (5, .xor, fun a b => a ^^^ b)] :
      List (BitVec 5 × (RegIdx → RegIdx → RegIdx → Instr) × (Word → Word → Word))),
    ∀ rd rs1 rs2 : RegIdx,
      encode (p.2.1 rd rs1 rs2) = pack p.1 rd rs1 rs2 0 ∧
      FetchDelivers (p.2.1 rd rs1 rs2) ∧
      DecodeIssues (p.2.1 rd rs1 rs2) (some rs1) (some rs2) [⟨rd, .alu⟩] ∧
      (∀ (s : State) (l : Latch), s.stage = .execute → s.e = some l →
        exec (p.2.1 rd rs1 rs2) s = .next
          { s with
            m := some { l with result := p.2.2 l.v1 l.v2 }
            flags := flagsOf (p.2.2 l.v1 l.v2) }) ∧
      MemoryPasses (p.2.1 rd rs1 rs2) ∧
      WritebackCommits (p.2.1 rd rs1 rs2) [⟨rd, .alu⟩] (fun l regs => setReg regs rd l.result) false ∧
      OffersResult [⟨rd, .alu⟩] rd

/-- ADDL, SUBL (R207, R208, R200, R212). -/
def Obligations.RegisterImmediateInstructions : Prop :=
  ∀ p ∈ ([(6, .addl, fun a b => wrap (sval a + sval b)), (7, .subl, fun a b => wrap (sval a - sval b))] :
      List (BitVec 5 × (RegIdx → RegIdx → Word → Instr) × (Word → Word → Word))),
    ∀ (rd rs1 : RegIdx) (imm : Word),
      encode (p.2.1 rd rs1 imm) = pack p.1 rd rs1 0 imm ∧
      FetchDelivers (p.2.1 rd rs1 imm) ∧
      DecodeIssues (p.2.1 rd rs1 imm) (some rs1) none [⟨rd, .alu⟩] ∧
      (∀ (s : State) (l : Latch), s.stage = .execute → s.e = some l →
        exec (p.2.1 rd rs1 imm) s = .next
          { s with
            m := some { l with result := p.2.2 l.v1 imm }
            flags := flagsOf (p.2.2 l.v1 imm) }) ∧
      MemoryPasses (p.2.1 rd rs1 imm) ∧
      WritebackCommits (p.2.1 rd rs1 imm) [⟨rd, .alu⟩] (fun l regs => setReg regs rd l.result) false ∧
      OffersResult [⟨rd, .alu⟩] rd

/-- The one flag rule of the eight arithmetic and logical instructions: all three flags from the 32-bit result, read as
signed (R200). -/
def Obligations.ArithmeticFlagRule : Prop :=
  ∀ (i : Instr) (s : State) (l : Latch), i.opcode.toNat ≤ 7 → s.stage = .execute → s.e = some l →
    ∃ t l', exec i s = .next t ∧ t.m = some l' ∧
      (t.flags.z = true ↔ sval l'.result = 0) ∧ (t.flags.p = true ↔ 0 < sval l'.result) ∧
      (t.flags.n = true ↔ sval l'.result < 0)

/-- MOVC (R209). -/
def Obligations.MoveConstant : Prop :=
  ∀ (rd : RegIdx) (imm : Word),
    encode (.movc rd imm) = pack 8 rd 0 0 imm ∧
    FetchDelivers (.movc rd imm) ∧
    DecodeIssues (.movc rd imm) none none [⟨rd, .alu⟩] ∧
    (∀ (s : State) (l : Latch), s.stage = .execute → s.e = some l →
      exec (.movc rd imm) s = .next { s with m := some { l with result := imm } }) ∧
    MemoryPasses (.movc rd imm) ∧
    WritebackCommits (.movc rd imm) [⟨rd, .alu⟩] (fun l regs => setReg regs rd l.result) false ∧
    OffersResult [⟨rd, .alu⟩] rd

/-- CMP and CML: signed comparison without subtraction, no register written (R210, R211). -/
def Obligations.CompareInstructions : Prop :=
  (∀ rs1 rs2 : RegIdx,
    encode (.cmp rs1 rs2) = pack 9 0 rs1 rs2 0 ∧
    FetchDelivers (.cmp rs1 rs2) ∧
    DecodeIssues (.cmp rs1 rs2) (some rs1) (some rs2) [] ∧
    (∀ (s : State) (l : Latch), s.stage = .execute → s.e = some l →
      exec (.cmp rs1 rs2) s = .next { s with m := some l, flags := flagsOfCompare (sval l.v1) (sval l.v2) }) ∧
    MemoryPasses (.cmp rs1 rs2) ∧
    WritebackCommits (.cmp rs1 rs2) [] (fun _ regs => regs) false) ∧
  (∀ (rs1 : RegIdx) (imm : Word),
    encode (.cml rs1 imm) = pack 10 0 rs1 0 imm ∧
    FetchDelivers (.cml rs1 imm) ∧
    DecodeIssues (.cml rs1 imm) (some rs1) none [] ∧
    (∀ (s : State) (l : Latch), s.stage = .execute → s.e = some l →
      exec (.cml rs1 imm) s = .next { s with m := some l, flags := flagsOfCompare (sval l.v1) (sval imm) }) ∧
    MemoryPasses (.cml rs1 imm) ∧
    WritebackCommits (.cml rs1 imm) [] (fun _ regs => regs) false)

/-- LOAD and LOADP: the address, the cell read, the early release with FORWARDING, and the two writes of LOADP, the base
last; a bad address raises the fault (R240 to R242, R245). -/
def Obligations.LoadInstructions : Prop :=
  (∀ (rd rs1 : RegIdx) (imm : Word),
    encode (.load rd rs1 imm) = pack 11 rd rs1 0 imm ∧
    FetchDelivers (.load rd rs1 imm) ∧
    DecodeIssues (.load rd rs1 imm) (some rs1) none [⟨rd, .mem⟩] ∧
    (∀ (s : State) (l : Latch), s.stage = .execute → s.e = some l →
      exec (.load rd rs1 imm) s = .next { s with m := some { l with ea := wrap (sval l.v1 + sval imm) } }) ∧
    WritebackCommits (.load rd rs1 imm) [⟨rd, .mem⟩] (fun l regs => setReg regs rd l.result) false ∧
    OffersLoaded [⟨rd, .mem⟩] rd) ∧
  (∀ (rd rs1 : RegIdx) (imm : Word),
    encode (.loadp rd rs1 imm) = pack 12 rd rs1 0 imm ∧
    FetchDelivers (.loadp rd rs1 imm) ∧
    DecodeIssues (.loadp rd rs1 imm) (some rs1) none [⟨rd, .mem⟩, ⟨rs1, .inc⟩] ∧
    (∀ (s : State) (l : Latch), s.stage = .execute → s.e = some l →
      exec (.loadp rd rs1 imm) s = .next
        { s with m := some { l with ea := wrap (sval l.v1 + sval imm), inc := wrap (sval l.v1 + 4) } }) ∧
    WritebackCommits (.loadp rd rs1 imm) [⟨rd, .mem⟩, ⟨rs1, .inc⟩]
      (fun l regs => setReg (setReg regs rd l.result) rs1 l.inc) false ∧
    OffersIncrement [⟨rd, .mem⟩, ⟨rs1, .inc⟩] rs1 ∧
    (rd ≠ rs1 → OffersLoaded [⟨rd, .mem⟩, ⟨rs1, .inc⟩] rd)) ∧
  (∀ (i : Instr) (s : State) (l : Latch), i.isLoad = true → s.stage = .memory → s.m = some l →
    0 ≤ sval l.ea → sval l.ea < s.cfg.dmemSize →
    (s.cfg.forwarding = true → CanRelease l.res s) →
    exec i s = .next
      { s with
        w := some { l with
          result := Memory.read s.mem (sval l.ea).toNat
          rel := if s.cfg.forwarding then true else l.rel }
        sb := if s.cfg.forwarding then released l.res s.sb else s.sb }) ∧
  (∀ (i : Instr) (s : State) (l : Latch), i.isLoad = true → s.stage = .memory → s.m = some l →
    ¬ (0 ≤ sval l.ea ∧ sval l.ea < s.cfg.dmemSize) →
    exec i s = .next (raise (.dataAddressOutOfRange l.ea l.pc) s))

/-- STORE and STOREP: the address from rs2, the value from rs1, the one cell written, and STOREP's incremented base; a bad
address raises the fault (R240, R243 to R245). -/
def Obligations.StoreInstructions : Prop :=
  (∀ (rs1 rs2 : RegIdx) (imm : Word),
    encode (.store rs1 rs2 imm) = pack 13 0 rs1 rs2 imm ∧
    FetchDelivers (.store rs1 rs2 imm) ∧
    DecodeIssues (.store rs1 rs2 imm) (some rs1) (some rs2) [] ∧
    (∀ (s : State) (l : Latch), s.stage = .execute → s.e = some l →
      exec (.store rs1 rs2 imm) s = .next { s with m := some { l with ea := wrap (sval l.v2 + sval imm) } }) ∧
    WritebackCommits (.store rs1 rs2 imm) [] (fun _ regs => regs) false ∧
    OffersNothing []) ∧
  (∀ (rs1 rs2 : RegIdx) (imm : Word),
    encode (.storep rs1 rs2 imm) = pack 14 0 rs1 rs2 imm ∧
    FetchDelivers (.storep rs1 rs2 imm) ∧
    DecodeIssues (.storep rs1 rs2 imm) (some rs1) (some rs2) [⟨rs2, .inc⟩] ∧
    (∀ (s : State) (l : Latch), s.stage = .execute → s.e = some l →
      exec (.storep rs1 rs2 imm) s = .next
        { s with m := some { l with ea := wrap (sval l.v2 + sval imm), inc := wrap (sval l.v2 + 4) } }) ∧
    WritebackCommits (.storep rs1 rs2 imm) [⟨rs2, .inc⟩] (fun l regs => setReg regs rs2 l.inc) false ∧
    OffersIncrement [⟨rs2, .inc⟩] rs2) ∧
  (∀ (i : Instr) (s : State) (l : Latch), i.isStore = true → s.stage = .memory → s.m = some l →
    0 ≤ sval l.ea → sval l.ea < s.cfg.dmemSize →
    exec i s = .next { s with mem := Memory.write s.mem (sval l.ea).toNat l.v1, w := some l }) ∧
  (∀ (i : Instr) (s : State) (l : Latch), i.isStore = true → s.stage = .memory → s.m = some l →
    ¬ (0 ≤ sval l.ea ∧ sval l.ea < s.cfg.dmemSize) →
    exec i s = .next (raise (.dataAddressOutOfRange l.ea l.pc) s))

/-- JUMP and JALR: always taken, the target absolute, the link value pc + 4; the redirect sets pc, re-arms fetch and
flushes D (R261, R262, R163, R165). -/
def Obligations.JumpInstructions : Prop :=
  (∀ (rs1 : RegIdx) (imm : Word),
    encode (.jump rs1 imm) = pack 15 0 rs1 0 imm ∧
    FetchDelivers (.jump rs1 imm) ∧
    DecodeIssues (.jump rs1 imm) (some rs1) none [] ∧
    (∀ (s : State) (l : Latch), s.stage = .execute → s.e = some l →
      exec (.jump rs1 imm) s = .next
        { s with m := some l, pc := wrap (sval l.v1 + sval imm), armed := true, d := none, redirect := true }) ∧
    MemoryPasses (.jump rs1 imm) ∧
    WritebackCommits (.jump rs1 imm) [] (fun _ regs => regs) false) ∧
  (∀ (rd rs1 : RegIdx) (imm : Word),
    encode (.jalr rd rs1 imm) = pack 16 rd rs1 0 imm ∧
    FetchDelivers (.jalr rd rs1 imm) ∧
    DecodeIssues (.jalr rd rs1 imm) (some rs1) none [⟨rd, .alu⟩] ∧
    (∀ (s : State) (l : Latch), s.stage = .execute → s.e = some l →
      exec (.jalr rd rs1 imm) s = .next
        { s with
          m := some { l with result := wrap (sval l.pc + 4) }
          pc := wrap (sval l.v1 + sval imm), armed := true, d := none, redirect := true }) ∧
    MemoryPasses (.jalr rd rs1 imm) ∧
    WritebackCommits (.jalr rd rs1 imm) [⟨rd, .alu⟩] (fun l regs => setReg regs rd l.result) false ∧
    OffersResult [⟨rd, .alu⟩] rd)

/-- BZ, BNZ, BP, BNP, BN, BNN: the flag test, the target relative to the branch's own fetch address, nothing else when it
is not taken (R263 to R269). -/
def Obligations.ConditionalBranches : Prop :=
  ∀ p ∈ ([(17, .bz, fun f => f.z), (18, .bnz, fun f => !f.z), (19, .bp, fun f => f.p), (20, .bnp, fun f => !f.p),
      (21, .bn, fun f => f.n), (22, .bnn, fun f => !f.n)] : List (BitVec 5 × (Word → Instr) × (Flags → Bool))),
    ∀ imm : Word,
      encode (p.2.1 imm) = pack p.1 0 0 0 imm ∧
      FetchDelivers (p.2.1 imm) ∧
      DecodeIssues (p.2.1 imm) none none [] ∧
      (∀ (s : State) (l : Latch), s.stage = .execute → s.e = some l → p.2.2 s.flags = true →
        exec (p.2.1 imm) s = .next
          { s with m := some l, pc := wrap (sval l.pc + sval imm), armed := true, d := none, redirect := true }) ∧
      (∀ (s : State) (l : Latch), s.stage = .execute → s.e = some l → p.2.2 s.flags = false →
        exec (p.2.1 imm) s = .next { s with m := some l }) ∧
      MemoryPasses (p.2.1 imm) ∧
      WritebackCommits (p.2.1 imm) [] (fun _ regs => regs) false

/-- NOP: nothing in any unit but its commit, which is counted (R290). -/
def Obligations.NopDoesNothingButRetire : Prop :=
  encode .nop = 0xB800000000000000 ∧ FetchDelivers .nop ∧ DecodeIssues .nop none none [] ∧
  (∀ (s : State) (l : Latch), s.stage = .execute → s.e = some l → exec .nop s = .next { s with m := some l }) ∧
  MemoryPasses .nop ∧
  WritebackCommits .nop [] (fun _ regs => regs) false ∧
  OffersNothing []

/-- HALT: fetching it disarms fetch, its commit sets `halted` (R291, R144, R161). -/
def Obligations.HaltDisarmsAndHalts : Prop :=
  encode .halt = 0xC000000000000000 ∧
  (∀ s : State, s.stage = .fetch →
    exec .halt s = .next
      { s with d := some (fetchedLatch .halt s.pc), pc := wrap (sval s.pc + 4), armed := false }) ∧
  DecodeIssues .halt none none [] ∧
  (∀ (s : State) (l : Latch), s.stage = .execute → s.e = some l → exec .halt s = .next { s with m := some l }) ∧
  MemoryPasses .halt ∧
  WritebackCommits .halt [] (fun _ regs => regs) true

/-! ## Faults -/

/-- A load or store with a bad address raises DataAddressOutOfRange with the address and the pc: nothing is accessed, no
reservation is released, no register, flag or counter changes, and the older instruction's commit of this cycle stands
(R76, R305, R301, R302). -/
def Obligations.BadDataAddressFaults : Prop :=
  (∀ (i : Instr) (s : State) (l : Latch), i.isLoad = true ∨ i.isStore = true → s.stage = .memory → s.m = some l →
    sval l.ea < 0 ∨ (s.cfg.dmemSize : Int) ≤ sval l.ea →
    exec i s = .next (raise (.dataAddressOutOfRange l.ea l.pc) s)) ∧
  (∀ (s : State) (l : Latch), s.Live → s.ScoreboardInv → s.m = some l → l.instr.isLoad = true ∨ l.instr.isStore = true →
    sval l.ea < 0 ∨ (s.cfg.dmemSize : Int) ≤ sval l.ea →
    ∃ t, step s = .next t ∧ t.fault = true ∧ t.faultCause = 3 ∧ t.faultInfo = l.ea ++ l.pc ∧
      t.mem = s.mem ∧ t.flags = s.flags ∧
      t.regs = (match s.w with
        | none => s.regs
        | some lw => commitRegs lw lw.res s.regs))

/-- Fetching at a `pc` below CODE_BASE, off a word boundary or past the last word raises FetchOutOfRange with that pc
(R303, R302, R33). -/
def Obligations.FetchOutOfRangeFaults : Prop :=
  ∀ s : State, s.redirect = false → s.stalled = false → s.armed = true →
    uval s.pc < uval s.cfg.codeBase ∨ (uval s.pc - uval s.cfg.codeBase) % 4 ≠ 0 ∨
      s.code.length ≤ (uval s.pc - uval s.cfg.codeBase) / 4 →
    fetchUnit s = .next (raise (.fetchOutOfRange s.pc) s) ∧
    (raise (.fetchOutOfRange s.pc) s).faultCause = 1 ∧
    (raise (.fetchOutOfRange s.pc) s).faultInfo = (0 : Word) ++ s.pc

/-- The fetch unit does exactly one of four things, tested in order: a redirect and a disarmed fetch leave a bubble in D, a
stall leaves D and `pc`, and otherwise it fetches, giving a legal word's instruction to its meaning (R142, R145). -/
def Obligations.FetchUnitHasFourCases : Prop :=
  ∀ s : State,
    (s.redirect = true → fetchUnit s = .next { s with d := none }) ∧
    (s.redirect = false → s.stalled = true → fetchUnit s = .next s) ∧
    (s.redirect = false → s.stalled = false → s.armed = false → fetchUnit s = .next { s with d := none }) ∧
    (s.redirect = false → s.stalled = false → s.armed = true →
      fetchUnit s = fetchInstr s ∧
      ∀ (w : InstrWord) (i : Instr), s.codeAt s.pc = some w → decode s.cfg.nregs w = .ok i →
        fetchInstr s = exec i (s.at .fetch))

/-- What raising a fault writes and what it leaves: the fault state is written, everything the host can inspect stands as
the units before left it (R301, R302). Nothing is said of the latches, the scoreboard, pc and F.armed, which are free
values (log entry 8). -/
def Obligations.RaisingAFaultKeepsWhatTheHostInspects : Prop :=
  ∀ (f : Fault) (s : State),
    (raise f s).inspect = { s.inspect with fault := true, faultCause := f.code, faultInfo := f.info } ∧
    (raise f s).status = .fault f.code f.info

/-! ## Frames -/

/-- What each unit leaves unchanged whatever the instruction, unless a fault is raised: only writeback changes registers,
retired_count and halted; only memory changes data memory; only execute changes flags; only fetch, and execute with a
redirect, change pc and F.armed; only decode changes the E latch, only execute M and only memory W; the counters of the
scoreboard change in decode, memory and writeback only; the parameters, the store and cycle_count never change (R30, R32,
R34, R50, R53, R54, R55). -/
def Obligations.UnitsChangeOnlyTheirOwnState : Prop :=
  ∀ (i : Instr) (s t : State), exec i s = .next t →
    t.cfg = s.cfg ∧ t.code = s.code ∧ t.cycleCount = s.cycleCount ∧
    (s.stage ≠ .writeback → t.regs = s.regs ∧ t.retiredCount = s.retiredCount ∧ t.halted = s.halted) ∧
    (s.stage ≠ .memory → t.mem = s.mem) ∧
    (s.stage ≠ .execute → t.flags = s.flags) ∧
    (s.stage ≠ .decode → t.stalled = s.stalled) ∧
    (t.fault = false →
      (s.stage ≠ .fetch → t.redirect = false → t.pc = s.pc ∧ t.armed = s.armed ∧ t.d = s.d) ∧
      (s.stage ≠ .decode → t.e = s.e) ∧
      (s.stage ≠ .execute → t.m = s.m) ∧
      (s.stage ≠ .memory → t.w = s.w) ∧
      (s.stage = .fetch ∨ s.stage = .execute → t.sb = s.sb) ∧
      t.faultCause = s.faultCause ∧ t.faultInfo = s.faultInfo)

/-- A step changes no register but those the committing instruction reserved, and gives each of those the value of its
last reservation: the post-increment value for `inc`, else the result (R30, R159). -/
def Obligations.OnlyTheCommittingInstructionWritesRegisters : Prop :=
  ∀ s t : State, s.Live → step s = .next t →
    (s.w = none → t.regs = s.regs) ∧
    (∀ l, s.w = some l → ∀ r,
      ((∀ p ∈ l.res, p.reg ≠ r) → t.reg r = s.reg r) ∧
      (s.ScoreboardInv → ∀ before after k, l.res = before ++ ⟨r, k⟩ :: after → (∀ p ∈ after, p.reg ≠ r) →
        t.reg r = if k = .inc then l.inc else l.result))

/-- A step leaves the flags as they are unless the instruction in E is one of ADD, SUB, MUL, AND, OR, XOR, ADDL, SUBL, CMP
and CML (R34). -/
def Obligations.OnlyTenInstructionsWriteFlags : Prop :=
  ∀ s t : State, s.Live → step s = .next t → (∀ l ∈ s.e, l.instr.writesFlags = false) → t.flags = s.flags

/-- A step changes no cell of data memory but the one whose index is the effective address of a store in M, computed by
execute, and that one holds the stored value (R50, R70, R74, R82). -/
def Obligations.OnlyAStoreInMemoryWritesItsCell : Prop :=
  ∀ s t : State, s.Live → s.MemoryInv → step s = .next t →
    (∀ a, (∀ l ∈ s.m, l.instr.isStore = true → cellIndex l.ea ≠ a) → Memory.read t.mem a = Memory.read s.mem a) ∧
    (s.ScoreboardInv → ∀ l ∈ s.m, l.instr.isStore = true → 0 ≤ sval l.ea → sval l.ea < s.cfg.dmemSize →
      Memory.read t.mem (cellIndex l.ea) = l.v1)

/-- A step that raises no fault changes `pc` only by a fetch, which advances it by 4, or by a redirect, which sets the
target of the control transfer in E; a cycle with neither leaves it (R32). -/
def Obligations.PcChangesOnlyByFetchOrRedirect : Prop :=
  ∀ s t : State, s.Live → step s = .next t → t.fault = false →
    t.pc = s.pc ∨ (t.pc = wrap (sval s.pc + 4) ∧ ∃ l, t.d = some l ∧ l.pc = s.pc) ∨
    (∃ l, s.e = some l ∧ t.d = none ∧ t.e = none ∧ t.armed = true ∧
      ((∃ rs1 imm, l.instr = .jump rs1 imm ∧ t.pc = wrap (sval l.v1 + sval imm)) ∨
       (∃ rd rs1 imm, l.instr = .jalr rd rs1 imm ∧ t.pc = wrap (sval l.v1 + sval imm)) ∨
       (∃ imm, l.instr ∈ [.bz imm, .bnz imm, .bp imm, .bnp imm, .bn imm, .bnn imm] ∧
         t.pc = wrap (sval l.pc + sval imm))))

/-! ## Hazards and forwarding -/

/-- THE FORWARDED VALUE IS THE PROGRAM-ORDER VALUE: in either mode, the operand an instruction in decode is given is what
the register will hold once the two issued instructions have committed in program order (R147 to R149, R177). -/
def Obligations.OperandIsTheProgramOrderValue : Prop :=
  ∀ (s : State) (r : RegIdx) (v : Word), s.ScoreboardAtDecode → operand s r = some v → v = regAt s.settledRegs r

/-- The two forwarding paths and their priority: the instruction execute processed this cycle, then the one memory processed,
then the register file where no writer is outstanding; a load in execute is not ready and is never passed over (R147,
R149). -/
def Obligations.ForwardingPathsAndPriority : Prop :=
  (∀ (path : Path) (r : RegIdx), offer path none r = .nothing) ∧
  (∀ (path : Path) (l : Latch) (r : RegIdx), (∀ p ∈ l.res, p.reg ≠ r) → offer path (some l) r = .nothing) ∧
  (∀ (path : Path) (l : Latch) (r : RegIdx) (before after : List Reservation) (k : Kind),
    l.res = before ++ ⟨r, k⟩ :: after → (∀ p ∈ after, p.reg ≠ r) →
    offer path (some l) r =
      match k, path with
      | .alu, _ => .ready l.result
      | .inc, _ => .ready l.inc
      | .mem, .xa => .notReady
      | .mem, .xb => .ready l.result) ∧
  (∀ (s : State) (r : RegIdx), s.cfg.forwarding = true →
    (∀ v, offer .xa s.m r = .ready v → operand s r = some v) ∧
    (offer .xa s.m r = .notReady → operand s r = none) ∧
    (∀ v, offer .xa s.m r = .nothing → offer .xb s.w r = .ready v → operand s r = some v) ∧
    (offer .xa s.m r = .nothing → offer .xb s.w r = .nothing →
      operand s r = if s.count r = 0 then some (s.reg r) else none)) ∧
  (∀ (s : State) (r : RegIdx), s.cfg.forwarding = false →
    operand s r = if s.count r = 0 then some (s.reg r) else none)

/-- With FORWARDING the only source that stalls is one whose youngest producer in execute will load it, the last
reservation of that register in its list having kind `mem` (R150). -/
def Obligations.ForwardingStallsOnlyOnLoadUse : Prop :=
  ∀ (s : State) (r : RegIdx), s.cfg.forwarding = true → s.ScoreboardAtDecode →
    (operand s r = none ↔
      ∃ l before after, s.m = some l ∧ l.res = before ++ ⟨r, .mem⟩ :: after ∧ ∀ p ∈ after, p.reg ≠ r)

/-- Without FORWARDING a source has its register's value where its counter is 0 and none elsewhere, an instruction issues
exactly when every source's counter is 0, and a counter is not 0 exactly while an issued, uncommitted instruction will write
the register (R148). -/
def Obligations.WithoutForwardingBusySourcesStall : Prop :=
  (∀ (s : State) (r : RegIdx), s.cfg.forwarding = false →
    operand s r = if s.count r = 0 then some (s.reg r) else none) ∧
  (∀ (s t : State) (l : Latch), s.cfg.forwarding = false → s.stage = .decode → s.d = some l → s.fault = false →
    exec l.instr s = .next t → t.fault = false →
    ((∃ l', t.e = some l') ↔ ∀ r, l.instr.src1 = some r ∨ l.instr.src2 = some r → s.count r = 0)) ∧
  ∀ (s : State) (r : RegIdx), s.cfg.forwarding = false → s.ScoreboardAtDecode →
    (operand s r = none ↔ (∃ l, s.m = some l ∧ ∃ p ∈ l.res, p.reg = r) ∨ (∃ l, s.w = some l ∧ ∃ p ∈ l.res, p.reg = r))

/-- A taken JUMP, JALR or branch in E sets `pc` to its target, re-arms fetch, flushes the instruction in D and makes fetch
skip the cycle, so that the step leaves bubbles in D and E (R162 to R165). -/
def Obligations.TakenTransferRedirectsAndFlushes : Prop :=
  ∀ (s t : State) (l : Latch), s.Live → s.e = some l → l.instr.takes s.flags = true → step s = .next t →
    t.fault = false → t.pc = l.target ∧ t.armed = true ∧ t.d = none ∧ t.e = none

/-- An instruction in D is never silently dropped or duplicated: in a step without a fault it issues, whole, into E; or it
is flushed by a transfer taken in E, with a bubble into E; or it reappears unchanged in D, with a bubble into E and no
fetch (R145, R151, R165, R175). -/
def Obligations.InstructionInDecodeIsNeverDropped : Prop :=
  ∀ (s t : State) (l : Latch), s.Live → s.d = some l → step s = .next t → t.fault = false →
    (∃ v1 v2, t.e = some { l with v1 := v1, v2 := v2, res := l.instr.dsts, rel := false }) ∨
    (t.e = none ∧ t.d = none ∧ ∃ le, s.e = some le ∧ le.instr.takes s.flags = true ∧ t.pc = le.target) ∨
    (t.e = none ∧ t.d = some l ∧ t.pc = s.pc ∧ t.armed = s.armed)

/-- The instruction in E moves to M, and the one in M to W, in every step without a fault: nothing stays there or
overtakes (R44, R140). -/
def Obligations.InstructionsMoveInProgramOrder : Prop :=
  ∀ s t : State, s.Live → step s = .next t → t.fault = false →
    t.m.map (fun l => (l.instr, l.pc, l.res)) = s.e.map (fun l => (l.instr, l.pc, l.res)) ∧
    t.w.map (fun l => (l.instr, l.pc, l.res)) = s.m.map (fun l => (l.instr, l.pc, l.res))

/-! ## Invariants -/

/-- The scoreboard invariant (R48): every step keeps it. -/
def Obligations.ScoreboardInvariantIsKept : Prop :=
  ∀ s t : State, s.ScoreboardInv → step s = .next t → t.ScoreboardInv

/-- InvariantViolation is never raised from a state that meets the scoreboard invariant (R306). -/
def Obligations.InvariantViolationIsUnreachable : Prop :=
  ∀ s t : State, s.ScoreboardInv → s.fault = false → step s = .next t → t.fault = true → t.faultCause ≠ 4

/-- Exactly one flag is set, and every step keeps it so (R35). -/
def Obligations.ExactlyOneFlagStaysSet : Prop :=
  ∀ s t : State, s.flags.oneHot = true → step s = .next t → t.flags.oneHot = true

/-- The data memory stays in canonical form and lists only cells below DMEM_SIZE (R50, R76). -/
def Obligations.MemoryInvariantIsKept : Prop :=
  ∀ s t : State, s.MemoryInv → step s = .next t → t.MemoryInv

/-- No register at or above NREGS is ever written, and only legal instructions are in flight (R30, R106, R109). -/
def Obligations.RegistersInvariantIsKept : Prop :=
  ∀ s t : State, s.RegistersInv → step s = .next t → t.RegistersInv

/-- Behind a HALT in flight there are only bubbles and fetch stays disarmed, and after it commits all latches are bubbles
(R144, R174). -/
def Obligations.HaltInvariantIsKept : Prop :=
  ∀ s t : State, s.HaltInv → step s = .next t → t.HaltInv

/-- `pc` stays behind the instruction that waits in D (R143, R145). -/
def Obligations.PcInvariantIsKept : Prop :=
  ∀ s t : State, s.PcInv → step s = .next t → t.PcInv

/-- State.reset meets every invariant above, and so does every construction with parameters in their ranges. -/
def Obligations.ResetMeetsTheInvariants : Prop :=
  (State.reset.ScoreboardInv ∧ State.reset.flags.oneHot = true ∧ State.reset.MemoryInv ∧ State.reset.RegistersInv ∧
    State.reset.HaltInv ∧ State.reset.PcInv ∧ State.reset.FetchedInv) ∧
  (∀ (cfg : Params) (code : List InstrWord) (image : List (Nat × Word)) (s : State), cfg.ok code.length = true →
    construct cfg code image = .next s →
    s.ScoreboardInv ∧ s.flags.oneHot = true ∧ s.MemoryInv ∧ s.RegistersInv ∧ s.HaltInv ∧ s.PcInv ∧ s.FetchedInv)

/-! ## The pipeline as a whole -/

/-- A LONE INSTRUCTION: one instruction alone in the pipeline that takes no transfer, its data address in range, is
finished after four cycles, in either mode, and what a program sees is exactly the instruction's sequential effect
(R350; files 41 to 44). HALT ends halted, every other instruction live. -/
def Obligations.LoneInstructionTakesFourCycles : Prop :=
  ∀ (s : State) (l : Latch), s.Lone l → s.PcInv → l.instr.takes s.flags = false →
    (∀ ea ∈ dataAddress l.instr s.regs, 0 ≤ sval ea ∧ sval ea < s.cfg.dmemSize) →
    ∃ t, Host.Core.run Sys2Proof.core 4 s = .next t ∧ t.Drained ∧ t.seen = sequential l.instr l.pc s.seen ∧
      t.cycleCount = s.cycleCount + 4 ∧ t.retiredCount = s.retiredCount + 1 ∧ t.fault = false ∧
      t.halted = decide (l.instr = .halt)

/-- A LONE TAKEN TRANSFER: one JUMP, JALR or taken branch alone in the pipeline has redirected after two cycles: `pc` is its
sequential successor, fetch is armed, D and E are bubbles, and JALR's link value is in its latch, so that the target is
fetched in the third cycle (R163 to R165, R262, R343). -/
def Obligations.LoneTakenTransferRedirectsInTwoCycles : Prop :=
  ∀ (s : State) (l : Latch), s.Lone l → l.instr.takes s.flags = true →
    ∃ t l', Host.Core.run Sys2Proof.core 2 s = .next t ∧ t.fault = false ∧
      t.pc = (sequential l.instr l.pc s.seen).next ∧ t.armed = true ∧ t.d = none ∧ t.e = none ∧ t.m = some l' ∧
      l'.instr = l.instr ∧ l'.pc = l.pc ∧
      (∀ rd rs1 imm, l.instr = .jalr rd rs1 imm → l'.result = wrap (sval l.pc + 4) ∧ l'.res = [⟨rd, .alu⟩])

/-- THE PIPELINE REFINES THE SEQUENTIAL MACHINE: what a program would see once the issued instructions have finished is
changed by a step in one of two ways only. If the step issues nothing, it stays. If it issues an instruction, that is the
instruction the store holds at the address where the program goes on, and what is seen becomes that instruction's
sequential effect on it. So in either mode, whatever stalls, forwards, flushes and redirects, a run does what its
instructions do one after another (R51, R78, R140, R143, R176, R177). -/
def Obligations.PipelineRefinesSequentialExecution : Prop :=
  ∀ (s t : State) (a b : Seen), s.Live → s.ScoreboardInv → s.PcInv → s.FetchedInv → step s = .next t →
    t.fault = false → s.Settles a → t.Settles b →
    (t.e = none → b = a) ∧
    (∀ l, t.e = some l → l.pc = a.next ∧ l.FetchedFrom s ∧ b = sequential l.instr l.pc a)

/-! ## Where the instructions in flight come from, fetch faults in a whole step, run-to-completion -/

/-- Every instruction in flight is the one the store holds at its fetch address, and every step keeps it so (R51, R143). -/
def Obligations.FetchedInvariantIsKept : Prop :=
  ∀ s t : State, s.FetchedInv → step s = .next t → t.FetchedInv

/-- A FETCH FAULT IN A WHOLE STEP: where this cycle's fetch will read at a `pc` that is no legal address, or at an illegal
word, the step raises that fault with its code and information, and this cycle's commit, memory access and flag write
stand (R301 to R304). -/
def Obligations.FetchFaultKeepsTheOlderWork : Prop :=
  ∀ s : State, s.Live → s.ScoreboardInv → s.WillFetch →
    ∃ t, step s = .next t ∧
      ((uval s.pc < uval s.cfg.codeBase ∨ (uval s.pc - uval s.cfg.codeBase) % 4 ≠ 0 ∨
          s.code.length ≤ (uval s.pc - uval s.cfg.codeBase) / 4 →
        t.fault = true ∧ t.faultCause = 1 ∧ t.faultInfo = (0 : Word) ++ s.pc) ∧
      (∀ w why, uval s.cfg.codeBase ≤ uval s.pc → (uval s.pc - uval s.cfg.codeBase) % 4 = 0 →
        s.code[(uval s.pc - uval s.cfg.codeBase) / 4]? = some w → decode s.cfg.nregs w = .error why →
        t.fault = true ∧ t.faultCause = 2 ∧ t.faultInfo = s.pc ++ w.extractLsb' 32 32) ∧
      (t.fault = true →
        t.cycleCount = s.cycleCount + 1 ∧
        t.retiredCount = s.retiredCount + (if s.w.isSome then 1 else 0) ∧
        t.regs = (match s.w with
          | none => s.regs
          | some lw => commitRegs lw lw.res s.regs) ∧
        t.mem = (match s.m with
          | none => s.mem
          | some lm => if lm.instr.isStore then Memory.write s.mem (sval lm.ea).toNat lm.v1 else s.mem) ∧
        t.flags = (match s.e with
          | none => s.flags
          | some le => le.flagsAfter s.flags)))

/-- RUN-TO-COMPLETION, and any bound that the 64-bit cycle_count never reaches: it returns exactly where some number of
steps halts or faults the engine, there, and on every other program it does not return (R171, R313, R333). -/
def Obligations.RunToCompletionReturnsOnlyAtTheEnd : Prop :=
  ∀ (s : State) (budget : Budget), s.code ≠ [] →
    budget = .unbounded ∨ (∃ bound, budget = .cycles bound ∧ 2 ^ 64 ≤ bound) →
    (∀ t r, RunReturns budget s t r → t.running = false ∧ r.status ≠ .budgetExhausted) ∧
    ((∃ t r, RunReturns budget s t r) ↔ ∃ k t, Host.Core.run Sys2Proof.core k s = .next t ∧ t.running = false) ∧
    (RunEndless budget s ↔ ∀ k t, Host.Core.run Sys2Proof.core k s = .next t → t.running = true)
end

