-- ==== Sys2Proof/Laws/State.lean ====
section
/-! SUPPORT. What each named update of the state leaves in each field, so that no later proof unfolds a record update. -/

namespace Sys2Proof.Machine

/-! State.at -/

@[simp] theorem State.at_cfg (s : State) (u : Stage) : (s.at u).cfg = s.cfg := rfl
@[simp] theorem State.at_code (s : State) (u : Stage) : (s.at u).code = s.code := rfl
@[simp] theorem State.at_regs (s : State) (u : Stage) : (s.at u).regs = s.regs := rfl
@[simp] theorem State.at_pc (s : State) (u : Stage) : (s.at u).pc = s.pc := rfl
@[simp] theorem State.at_flags (s : State) (u : Stage) : (s.at u).flags = s.flags := rfl
@[simp] theorem State.at_armed (s : State) (u : Stage) : (s.at u).armed = s.armed := rfl
@[simp] theorem State.at_d (s : State) (u : Stage) : (s.at u).d = s.d := rfl
@[simp] theorem State.at_e (s : State) (u : Stage) : (s.at u).e = s.e := rfl
@[simp] theorem State.at_m (s : State) (u : Stage) : (s.at u).m = s.m := rfl
@[simp] theorem State.at_w (s : State) (u : Stage) : (s.at u).w = s.w := rfl
@[simp] theorem State.at_sb (s : State) (u : Stage) : (s.at u).sb = s.sb := rfl
@[simp] theorem State.at_mem (s : State) (u : Stage) : (s.at u).mem = s.mem := rfl
@[simp] theorem State.at_halted (s : State) (u : Stage) : (s.at u).halted = s.halted := rfl
@[simp] theorem State.at_cycleCount (s : State) (u : Stage) : (s.at u).cycleCount = s.cycleCount := rfl
@[simp] theorem State.at_retiredCount (s : State) (u : Stage) : (s.at u).retiredCount = s.retiredCount := rfl
@[simp] theorem State.at_fault (s : State) (u : Stage) : (s.at u).fault = s.fault := rfl
@[simp] theorem State.at_faultCause (s : State) (u : Stage) : (s.at u).faultCause = s.faultCause := rfl
@[simp] theorem State.at_faultInfo (s : State) (u : Stage) : (s.at u).faultInfo = s.faultInfo := rfl
@[simp] theorem State.at_stage (s : State) (u : Stage) : (s.at u).stage = u := rfl
@[simp] theorem State.at_stalled (s : State) (u : Stage) : (s.at u).stalled = s.stalled := rfl
@[simp] theorem State.at_redirect (s : State) (u : Stage) : (s.at u).redirect = s.redirect := rfl

/-! beginCycle -/

@[simp] theorem beginCycle_cfg (s : State) : (beginCycle s).cfg = s.cfg := rfl
@[simp] theorem beginCycle_code (s : State) : (beginCycle s).code = s.code := rfl
@[simp] theorem beginCycle_regs (s : State) : (beginCycle s).regs = s.regs := rfl
@[simp] theorem beginCycle_pc (s : State) : (beginCycle s).pc = s.pc := rfl
@[simp] theorem beginCycle_flags (s : State) : (beginCycle s).flags = s.flags := rfl
@[simp] theorem beginCycle_armed (s : State) : (beginCycle s).armed = s.armed := rfl
@[simp] theorem beginCycle_d (s : State) : (beginCycle s).d = s.d := rfl
@[simp] theorem beginCycle_e (s : State) : (beginCycle s).e = s.e := rfl
@[simp] theorem beginCycle_m (s : State) : (beginCycle s).m = s.m := rfl
@[simp] theorem beginCycle_w (s : State) : (beginCycle s).w = s.w := rfl
@[simp] theorem beginCycle_sb (s : State) : (beginCycle s).sb = s.sb := rfl
@[simp] theorem beginCycle_mem (s : State) : (beginCycle s).mem = s.mem := rfl
@[simp] theorem beginCycle_halted (s : State) : (beginCycle s).halted = s.halted := rfl
@[simp] theorem beginCycle_cycleCount (s : State) : (beginCycle s).cycleCount = s.cycleCount + 1 := rfl
@[simp] theorem beginCycle_retiredCount (s : State) : (beginCycle s).retiredCount = s.retiredCount := rfl
@[simp] theorem beginCycle_fault (s : State) : (beginCycle s).fault = s.fault := rfl
@[simp] theorem beginCycle_faultCause (s : State) : (beginCycle s).faultCause = s.faultCause := rfl
@[simp] theorem beginCycle_faultInfo (s : State) : (beginCycle s).faultInfo = s.faultInfo := rfl
@[simp] theorem beginCycle_stage (s : State) : (beginCycle s).stage = s.stage := rfl
@[simp] theorem beginCycle_stalled (s : State) : (beginCycle s).stalled = false := rfl
@[simp] theorem beginCycle_redirect (s : State) : (beginCycle s).redirect = false := rfl

/-! endCycle -/

@[simp] theorem endCycle_cfg (s : State) : (endCycle s).cfg = s.cfg := rfl
@[simp] theorem endCycle_code (s : State) : (endCycle s).code = s.code := rfl
@[simp] theorem endCycle_regs (s : State) : (endCycle s).regs = s.regs := rfl
@[simp] theorem endCycle_pc (s : State) : (endCycle s).pc = s.pc := rfl
@[simp] theorem endCycle_flags (s : State) : (endCycle s).flags = s.flags := rfl
@[simp] theorem endCycle_armed (s : State) : (endCycle s).armed = s.armed := rfl
@[simp] theorem endCycle_d (s : State) : (endCycle s).d = s.d := rfl
@[simp] theorem endCycle_e (s : State) : (endCycle s).e = s.e := rfl
@[simp] theorem endCycle_m (s : State) : (endCycle s).m = s.m := rfl
@[simp] theorem endCycle_w (s : State) : (endCycle s).w = s.w := rfl
@[simp] theorem endCycle_sb (s : State) : (endCycle s).sb = s.sb := rfl
@[simp] theorem endCycle_mem (s : State) : (endCycle s).mem = s.mem := rfl
@[simp] theorem endCycle_halted (s : State) : (endCycle s).halted = s.halted := rfl
@[simp] theorem endCycle_cycleCount (s : State) : (endCycle s).cycleCount = s.cycleCount := rfl
@[simp] theorem endCycle_retiredCount (s : State) : (endCycle s).retiredCount = s.retiredCount := rfl
@[simp] theorem endCycle_fault (s : State) : (endCycle s).fault = s.fault := rfl
@[simp] theorem endCycle_faultCause (s : State) : (endCycle s).faultCause = s.faultCause := rfl
@[simp] theorem endCycle_faultInfo (s : State) : (endCycle s).faultInfo = s.faultInfo := rfl
@[simp] theorem endCycle_stage (s : State) : (endCycle s).stage = .writeback := rfl
@[simp] theorem endCycle_stalled (s : State) : (endCycle s).stalled = false := rfl
@[simp] theorem endCycle_redirect (s : State) : (endCycle s).redirect = false := rfl

/-! deliver -/

@[simp] theorem deliver_cfg (i : Instr) (s : State) : (deliver i s).cfg = s.cfg := rfl
@[simp] theorem deliver_code (i : Instr) (s : State) : (deliver i s).code = s.code := rfl
@[simp] theorem deliver_regs (i : Instr) (s : State) : (deliver i s).regs = s.regs := rfl
@[simp] theorem deliver_pc (i : Instr) (s : State) : (deliver i s).pc = nextPc s.pc := rfl
@[simp] theorem deliver_flags (i : Instr) (s : State) : (deliver i s).flags = s.flags := rfl
@[simp] theorem deliver_armed (i : Instr) (s : State) : (deliver i s).armed = s.armed := rfl
@[simp] theorem deliver_d (i : Instr) (s : State) : (deliver i s).d = some (fetchedLatch i s.pc) := rfl
@[simp] theorem deliver_e (i : Instr) (s : State) : (deliver i s).e = s.e := rfl
@[simp] theorem deliver_m (i : Instr) (s : State) : (deliver i s).m = s.m := rfl
@[simp] theorem deliver_w (i : Instr) (s : State) : (deliver i s).w = s.w := rfl
@[simp] theorem deliver_sb (i : Instr) (s : State) : (deliver i s).sb = s.sb := rfl
@[simp] theorem deliver_mem (i : Instr) (s : State) : (deliver i s).mem = s.mem := rfl
@[simp] theorem deliver_halted (i : Instr) (s : State) : (deliver i s).halted = s.halted := rfl
@[simp] theorem deliver_cycleCount (i : Instr) (s : State) : (deliver i s).cycleCount = s.cycleCount := rfl
@[simp] theorem deliver_retiredCount (i : Instr) (s : State) : (deliver i s).retiredCount = s.retiredCount := rfl
@[simp] theorem deliver_fault (i : Instr) (s : State) : (deliver i s).fault = s.fault := rfl
@[simp] theorem deliver_faultCause (i : Instr) (s : State) : (deliver i s).faultCause = s.faultCause := rfl
@[simp] theorem deliver_faultInfo (i : Instr) (s : State) : (deliver i s).faultInfo = s.faultInfo := rfl
@[simp] theorem deliver_stage (i : Instr) (s : State) : (deliver i s).stage = s.stage := rfl
@[simp] theorem deliver_stalled (i : Instr) (s : State) : (deliver i s).stalled = s.stalled := rfl
@[simp] theorem deliver_redirect (i : Instr) (s : State) : (deliver i s).redirect = s.redirect := rfl

/-! deliverHalt -/

@[simp] theorem deliverHalt_cfg (s : State) : (deliverHalt s).cfg = s.cfg := rfl
@[simp] theorem deliverHalt_code (s : State) : (deliverHalt s).code = s.code := rfl
@[simp] theorem deliverHalt_regs (s : State) : (deliverHalt s).regs = s.regs := rfl
@[simp] theorem deliverHalt_pc (s : State) : (deliverHalt s).pc = nextPc s.pc := rfl
@[simp] theorem deliverHalt_flags (s : State) : (deliverHalt s).flags = s.flags := rfl
@[simp] theorem deliverHalt_armed (s : State) : (deliverHalt s).armed = false := rfl
@[simp] theorem deliverHalt_d (s : State) : (deliverHalt s).d = some (fetchedLatch .halt s.pc) := rfl
@[simp] theorem deliverHalt_e (s : State) : (deliverHalt s).e = s.e := rfl
@[simp] theorem deliverHalt_m (s : State) : (deliverHalt s).m = s.m := rfl
@[simp] theorem deliverHalt_w (s : State) : (deliverHalt s).w = s.w := rfl
@[simp] theorem deliverHalt_sb (s : State) : (deliverHalt s).sb = s.sb := rfl
@[simp] theorem deliverHalt_mem (s : State) : (deliverHalt s).mem = s.mem := rfl
@[simp] theorem deliverHalt_halted (s : State) : (deliverHalt s).halted = s.halted := rfl
@[simp] theorem deliverHalt_cycleCount (s : State) : (deliverHalt s).cycleCount = s.cycleCount := rfl
@[simp] theorem deliverHalt_retiredCount (s : State) : (deliverHalt s).retiredCount = s.retiredCount := rfl
@[simp] theorem deliverHalt_fault (s : State) : (deliverHalt s).fault = s.fault := rfl
@[simp] theorem deliverHalt_faultCause (s : State) : (deliverHalt s).faultCause = s.faultCause := rfl
@[simp] theorem deliverHalt_faultInfo (s : State) : (deliverHalt s).faultInfo = s.faultInfo := rfl
@[simp] theorem deliverHalt_stage (s : State) : (deliverHalt s).stage = s.stage := rfl
@[simp] theorem deliverHalt_stalled (s : State) : (deliverHalt s).stalled = s.stalled := rfl
@[simp] theorem deliverHalt_redirect (s : State) : (deliverHalt s).redirect = s.redirect := rfl

/-! stall -/

@[simp] theorem stall_cfg (s : State) : (stall s).cfg = s.cfg := rfl
@[simp] theorem stall_code (s : State) : (stall s).code = s.code := rfl
@[simp] theorem stall_regs (s : State) : (stall s).regs = s.regs := rfl
@[simp] theorem stall_pc (s : State) : (stall s).pc = s.pc := rfl
@[simp] theorem stall_flags (s : State) : (stall s).flags = s.flags := rfl
@[simp] theorem stall_armed (s : State) : (stall s).armed = s.armed := rfl
@[simp] theorem stall_d (s : State) : (stall s).d = s.d := rfl
@[simp] theorem stall_e (s : State) : (stall s).e = none := rfl
@[simp] theorem stall_m (s : State) : (stall s).m = s.m := rfl
@[simp] theorem stall_w (s : State) : (stall s).w = s.w := rfl
@[simp] theorem stall_sb (s : State) : (stall s).sb = s.sb := rfl
@[simp] theorem stall_mem (s : State) : (stall s).mem = s.mem := rfl
@[simp] theorem stall_halted (s : State) : (stall s).halted = s.halted := rfl
@[simp] theorem stall_cycleCount (s : State) : (stall s).cycleCount = s.cycleCount := rfl
@[simp] theorem stall_retiredCount (s : State) : (stall s).retiredCount = s.retiredCount := rfl
@[simp] theorem stall_fault (s : State) : (stall s).fault = s.fault := rfl
@[simp] theorem stall_faultCause (s : State) : (stall s).faultCause = s.faultCause := rfl
@[simp] theorem stall_faultInfo (s : State) : (stall s).faultInfo = s.faultInfo := rfl
@[simp] theorem stall_stage (s : State) : (stall s).stage = s.stage := rfl
@[simp] theorem stall_stalled (s : State) : (stall s).stalled = true := rfl
@[simp] theorem stall_redirect (s : State) : (stall s).redirect = s.redirect := rfl

/-! raise -/

@[simp] theorem raise_cfg (f : Fault) (s : State) : (raise f s).cfg = s.cfg := rfl
@[simp] theorem raise_code (f : Fault) (s : State) : (raise f s).code = s.code := rfl
@[simp] theorem raise_regs (f : Fault) (s : State) : (raise f s).regs = s.regs := rfl
@[simp] theorem raise_pc (f : Fault) (s : State) : (raise f s).pc = (Config.afterFault s.cycleCount f.code f.info).pc := rfl
@[simp] theorem raise_flags (f : Fault) (s : State) : (raise f s).flags = s.flags := rfl
@[simp] theorem raise_armed (f : Fault) (s : State) : (raise f s).armed = (Config.afterFault s.cycleCount f.code f.info).armed := rfl
@[simp] theorem raise_d (f : Fault) (s : State) : (raise f s).d = (Config.afterFault s.cycleCount f.code f.info).d := rfl
@[simp] theorem raise_e (f : Fault) (s : State) : (raise f s).e = (Config.afterFault s.cycleCount f.code f.info).e := rfl
@[simp] theorem raise_m (f : Fault) (s : State) : (raise f s).m = (Config.afterFault s.cycleCount f.code f.info).m := rfl
@[simp] theorem raise_w (f : Fault) (s : State) : (raise f s).w = (Config.afterFault s.cycleCount f.code f.info).w := rfl
@[simp] theorem raise_sb (f : Fault) (s : State) : (raise f s).sb = (Config.afterFault s.cycleCount f.code f.info).sb := rfl
@[simp] theorem raise_mem (f : Fault) (s : State) : (raise f s).mem = s.mem := rfl
@[simp] theorem raise_halted (f : Fault) (s : State) : (raise f s).halted = s.halted := rfl
@[simp] theorem raise_cycleCount (f : Fault) (s : State) : (raise f s).cycleCount = s.cycleCount := rfl
@[simp] theorem raise_retiredCount (f : Fault) (s : State) : (raise f s).retiredCount = s.retiredCount := rfl
@[simp] theorem raise_fault (f : Fault) (s : State) : (raise f s).fault = true := rfl
@[simp] theorem raise_faultCause (f : Fault) (s : State) : (raise f s).faultCause = f.code := rfl
@[simp] theorem raise_faultInfo (f : Fault) (s : State) : (raise f s).faultInfo = f.info := rfl
@[simp] theorem raise_stage (f : Fault) (s : State) : (raise f s).stage = s.stage := rfl
@[simp] theorem raise_stalled (f : Fault) (s : State) : (raise f s).stalled = s.stalled := rfl
@[simp] theorem raise_redirect (f : Fault) (s : State) : (raise f s).redirect = s.redirect := rfl

/-! redirectTo: without a target nothing changes; with one, pc, armed, d and the signal do -/

@[simp] theorem redirectTo_cfg (t : Option Word) (s : State) : (redirectTo t s).cfg = s.cfg := by cases t <;> rfl
@[simp] theorem redirectTo_code (t : Option Word) (s : State) : (redirectTo t s).code = s.code := by cases t <;> rfl
@[simp] theorem redirectTo_regs (t : Option Word) (s : State) : (redirectTo t s).regs = s.regs := by cases t <;> rfl
@[simp] theorem redirectTo_flags (t : Option Word) (s : State) : (redirectTo t s).flags = s.flags := by cases t <;> rfl
@[simp] theorem redirectTo_e (t : Option Word) (s : State) : (redirectTo t s).e = s.e := by cases t <;> rfl
@[simp] theorem redirectTo_m (t : Option Word) (s : State) : (redirectTo t s).m = s.m := by cases t <;> rfl
@[simp] theorem redirectTo_w (t : Option Word) (s : State) : (redirectTo t s).w = s.w := by cases t <;> rfl
@[simp] theorem redirectTo_sb (t : Option Word) (s : State) : (redirectTo t s).sb = s.sb := by cases t <;> rfl
@[simp] theorem redirectTo_mem (t : Option Word) (s : State) : (redirectTo t s).mem = s.mem := by cases t <;> rfl
@[simp] theorem redirectTo_halted (t : Option Word) (s : State) : (redirectTo t s).halted = s.halted := by cases t <;> rfl
@[simp] theorem redirectTo_cycleCount (t : Option Word) (s : State) : (redirectTo t s).cycleCount = s.cycleCount := by cases t <;> rfl
@[simp] theorem redirectTo_retiredCount (t : Option Word) (s : State) : (redirectTo t s).retiredCount = s.retiredCount := by cases t <;> rfl
@[simp] theorem redirectTo_fault (t : Option Word) (s : State) : (redirectTo t s).fault = s.fault := by cases t <;> rfl
@[simp] theorem redirectTo_faultCause (t : Option Word) (s : State) : (redirectTo t s).faultCause = s.faultCause := by cases t <;> rfl
@[simp] theorem redirectTo_faultInfo (t : Option Word) (s : State) : (redirectTo t s).faultInfo = s.faultInfo := by cases t <;> rfl
@[simp] theorem redirectTo_stage (t : Option Word) (s : State) : (redirectTo t s).stage = s.stage := by cases t <;> rfl
@[simp] theorem redirectTo_stalled (t : Option Word) (s : State) : (redirectTo t s).stalled = s.stalled := by cases t <;> rfl
@[simp] theorem redirectTo_some_pc (t : Word) (s : State) : (redirectTo (some t) s).pc = t := rfl
@[simp] theorem redirectTo_some_armed (t : Word) (s : State) : (redirectTo (some t) s).armed = true := rfl
@[simp] theorem redirectTo_some_d (t : Word) (s : State) : (redirectTo (some t) s).d = none := rfl
@[simp] theorem redirectTo_some_redirect (t : Word) (s : State) : (redirectTo (some t) s).redirect = true := rfl
@[simp] theorem redirectTo_none (s : State) : redirectTo none s = s := rfl

/-! Reads that look at one field only -/

@[simp] theorem State.at_reg (s : State) (u : Stage) (r : RegIdx) : (s.at u).reg r = s.reg r := rfl
@[simp] theorem State.at_count (s : State) (u : Stage) (r : RegIdx) : (s.at u).count r = s.count r := rfl
@[simp] theorem beginCycle_reg (s : State) (r : RegIdx) : (beginCycle s).reg r = s.reg r := rfl
@[simp] theorem beginCycle_count (s : State) (r : RegIdx) : (beginCycle s).count r = s.count r := rfl
@[simp] theorem endCycle_reg (s : State) (r : RegIdx) : (endCycle s).reg r = s.reg r := rfl
@[simp] theorem endCycle_count (s : State) (r : RegIdx) : (endCycle s).count r = s.count r := rfl
@[simp] theorem deliver_reg (i : Instr) (s : State) (r : RegIdx) : (deliver i s).reg r = s.reg r := rfl
@[simp] theorem deliver_count (i : Instr) (s : State) (r : RegIdx) : (deliver i s).count r = s.count r := rfl
@[simp] theorem deliverHalt_reg (s : State) (r : RegIdx) : (deliverHalt s).reg r = s.reg r := rfl
@[simp] theorem deliverHalt_count (s : State) (r : RegIdx) : (deliverHalt s).count r = s.count r := rfl
@[simp] theorem stall_reg (s : State) (r : RegIdx) : (stall s).reg r = s.reg r := rfl
@[simp] theorem stall_count (s : State) (r : RegIdx) : (stall s).count r = s.count r := rfl
@[simp] theorem raise_reg (f : Fault) (s : State) (r : RegIdx) : (raise f s).reg r = s.reg r := rfl

end Sys2Proof.Machine
end

