-- ==== Sys2Proof/Laws/Storage.lean ====
section
/-! SUPPORT. The laws of the register file, the data memory, the scoreboard and the sums of words. -/

namespace Sys2Proof.Machine

/-! Words -/

@[simp] theorem addWords_eq (a b : Word) : addWords a b = a + b := by
  simp [addWords, wrap, sval, BitVec.ofInt_add]

@[simp] theorem mulWords_eq (a b : Word) : mulWords a b = a * b := by
  simp [mulWords, wrap, sval, BitVec.ofInt_mul]

@[simp] theorem subWords_eq (a b : Word) : subWords a b = a - b := by
  apply BitVec.eq_of_toInt_eq
  simp [subWords, wrap, sval, BitVec.toInt_sub]

/-- Exactly one flag is set by the three-way test (R35). -/
theorem threeWay_oneHot (left right : Int) : (threeWay left right).oneHot = true := by
  rcases lt_trichotomy left right with h | h | h
  · simp [threeWay, Flags.oneHot, h, h.ne, not_lt.mpr h.le]
  · simp [threeWay, Flags.oneHot, h]
  · simp [threeWay, Flags.oneHot, h, h.ne', not_lt.mpr h.le]

/-! Registers -/

theorem reg_eq_regAt (s : State) (r : RegIdx) : s.reg r = regAt s.regs r := rfl

/-- A register reads what was last written to it, and a write changes no other. -/
theorem regAt_setReg (regs : Vector Word 32) (r q : RegIdx) (v : Word) :
    regAt (setReg regs r v) q = if r = q then v else regAt regs q := by
  simp only [regAt, setReg, Vector.getElem_set, BitVec.toNat_inj]

@[simp] theorem regAt_setReg_self (regs : Vector Word 32) (r : RegIdx) (v : Word) :
    regAt (setReg regs r v) r = v := by
  simp [regAt_setReg]

theorem regAt_setReg_ne (regs : Vector Word 32) {r q : RegIdx} (v : Word) (h : r ≠ q) :
    regAt (setReg regs r v) q = regAt regs q := by
  simp [regAt_setReg, h]

/-- The value a latch's writeback puts into a register it reserved with kind `k` (R159). -/
def Latch.valueOf (l : Latch) (k : Kind) : Word := if k = .inc then l.inc else l.result

/-- Everything a commit's register writes do: a reserved register holds the value of its last reservation, every other
register is unchanged (R159). -/
theorem regAt_commitRegs (l : Latch) (res : List Reservation) (regs : Vector Word 32) (r : RegIdx) :
    regAt (commitRegs l res regs) r =
      match lastKind r res with
      | some k => l.valueOf k
      | none => regAt regs r := by
  induction res generalizing regs with
  | nil => rfl
  | cons p rest ih =>
    simp only [commitRegs, lastKind, ih]
    cases h : lastKind r rest with
    | some k => rfl
    | none =>
      by_cases hp : p.reg = r
      · simp [hp, Latch.valueOf]
      · simp [hp, regAt_setReg]

theorem lastKind_none_iff (r : RegIdx) (res : List Reservation) :
    lastKind r res = none ↔ ∀ p ∈ res, p.reg ≠ r := by
  induction res with
  | nil => simp [lastKind]
  | cons p rest ih =>
    simp only [lastKind]
    cases h : lastKind r rest with
    | some k =>
      have := mt ih.mpr (by simp [h])
      simp only [List.mem_cons, forall_eq_or_imp]
      simp [this]
    | none =>
      have := ih.mp h
      by_cases hp : p.reg = r
      · simp [hp]
      · simpa [hp] using this

theorem countP_eq_zero_iff_lastKind (r : RegIdx) (res : List Reservation) :
    (res.countP fun p => p.reg = r) = 0 ↔ lastKind r res = none := by
  simp [lastKind_none_iff, List.countP_eq_zero]

/-! Data memory -/

theorem read_of_not_listed {mem : List Cell} {a : Nat} (h : ∀ c ∈ mem, c.1 ≠ a) :
    Memory.read mem a = unlistedCell := by
  induction mem with
  | nil => rfl
  | cons c rest ih =>
    simp only [List.mem_cons, forall_eq_or_imp] at h
    simp [Memory.read, h.1, ih h.2]

theorem wf_tail {c : Cell} {rest : List Cell} (h : Memory.wf (c :: rest)) : Memory.wf rest :=
  ⟨(List.pairwise_cons.mp h.1).2, fun c' hc => h.2 c' (List.mem_cons_of_mem _ hc)⟩

/-- Reading a cell of a canonical memory after a write. -/
theorem read_write {mem : List Cell} (h : Memory.wf mem) (a b : Nat) (v : Word) :
    Memory.read (Memory.write mem a v) b = if b = a then v else Memory.read mem b := by
  induction mem with
  | nil =>
    by_cases hv : v = unlistedCell <;> by_cases hb : b = a <;>
      simp [Memory.write, Memory.read, hv, hb, eq_comm]
    simp [Ne.symm hb]
  | cons c rest ih =>
    have hr := List.pairwise_cons.mp h.1
    simp only [Memory.write]
    split
    · rename_i hlt
      have hnot : ∀ c' ∈ c :: rest, c'.1 ≠ a := by
        intro c' hc
        rcases List.mem_cons.mp hc with rfl | hc
        · exact hlt.ne'
        · exact (hlt.trans (hr.1 c' hc)).ne'
      by_cases hv : v = unlistedCell <;> by_cases hb : b = a
      · subst hb; simp [hv, read_of_not_listed hnot]
      · simp [hv, hb]
      · subst hb; simp [hv, Memory.read]
      · simp [hv, hb, Memory.read, Ne.symm hb]
    · split
      · rename_i _ heq
        have hnot : ∀ c' ∈ rest, c'.1 ≠ a := fun c' hc => (heq ▸ hr.1 c' hc).ne'
        by_cases hv : v = unlistedCell <;> by_cases hb : b = a
        · subst hb; simp [hv, read_of_not_listed hnot]
        · simp [hv, hb, Memory.read, heq, Ne.symm hb]
        · subst hb; simp [hv, Memory.read]
        · simp [hv, hb, Memory.read, heq, Ne.symm hb]
      · rename_i _ hne
        by_cases hb : b = a
        · subst hb; simp [Memory.read, hne, ih (wf_tail h)]
        · by_cases hc : c.1 = b
          · simp [Memory.read, hc, hb]
          · simp [Memory.read, hc, hb, ih (wf_tail h)]

/-- Every cell a written memory lists was listed before or is the cell written. -/
theorem mem_of_mem_write {mem : List Cell} {a : Nat} {v : Word} {c : Cell} (h : c ∈ Memory.write mem a v) :
    c ∈ mem ∨ (c = (a, v) ∧ v ≠ unlistedCell) := by
  induction mem with
  | nil =>
    by_cases hv : v = unlistedCell <;> simp [Memory.write, hv] at h
    exact .inr ⟨h, hv⟩
  | cons c' rest ih =>
    simp only [Memory.write] at h
    split at h
    · by_cases hv : v = unlistedCell <;> simp [hv] at h ⊢
      · exact h
      · tauto
    · split at h
      · by_cases hv : v = unlistedCell <;> simp [hv] at h ⊢
        · exact .inr h
        · tauto
      · rcases List.mem_cons.mp h with rfl | h
        · exact .inl (List.mem_cons_self ..)
        · rcases ih h with h | h
          · exact .inl (List.mem_cons_of_mem _ h)
          · exact .inr h

/-- A write keeps the canonical form. -/
theorem wf_write {mem : List Cell} (h : Memory.wf mem) (a : Nat) (v : Word) : Memory.wf (Memory.write mem a v) := by
  induction mem with
  | nil => by_cases hv : v = unlistedCell <;> simp [Memory.write, Memory.wf, hv]
  | cons c rest ih =>
    have hr := List.pairwise_cons.mp h.1
    have h0 := h.2 c (List.mem_cons_self ..)
    simp only [Memory.write]
    split
    · rename_i hlt
      by_cases hv : v = unlistedCell
      · simpa [hv] using h
      · rw [if_neg hv]
        refine ⟨List.pairwise_cons.mpr ⟨fun c' hc => ?_, h.1⟩, fun c' hc => ?_⟩
        · rcases List.mem_cons.mp hc with rfl | hc
          · exact hlt
          · exact hlt.trans (hr.1 c' hc)
        · rcases List.mem_cons.mp hc with rfl | hc
          · exact hv
          · exact h.2 c' hc
    · split
      · rename_i _ heq
        by_cases hv : v = unlistedCell
        · simpa [hv] using wf_tail h
        · rw [if_neg hv]
          refine ⟨List.pairwise_cons.mpr ⟨fun c' hc => heq ▸ hr.1 c' hc, hr.2⟩, fun c' hc => ?_⟩
          rcases List.mem_cons.mp hc with rfl | hc
          · exact hv
          · exact h.2 c' (List.mem_cons_of_mem _ hc)
      · rename_i hnlt hne
        have hw := ih (wf_tail h)
        refine ⟨List.pairwise_cons.mpr ⟨fun c' hc => ?_, hw.1⟩, fun c' hc => ?_⟩
        · rcases mem_of_mem_write hc with hc | ⟨rfl, -⟩
          · exact hr.1 c' hc
          · exact lt_of_le_of_ne (not_lt.mp hnlt) hne
        · rcases List.mem_cons.mp hc with rfl | hc
          · exact h0
          · exact hw.2 c' hc

theorem wf_preloadImage (n : Nat) (image : List (Nat × Word)) : Memory.wf (preloadImage n image) := by
  suffices h : ∀ mem, Memory.wf mem →
      Memory.wf (image.foldl (fun mem c => if c.1 < n then Memory.write mem c.1 c.2 else mem) mem) from
    h [] ⟨.nil, by simp⟩
  induction image with
  | nil => exact fun _ h => h
  | cons c rest ih =>
    intro mem h
    simp only [List.foldl_cons]
    split
    · exact ih _ (wf_write h _ _)
    · exact ih _ h

/-! Instruction store -/

/-- The word at an address is the one the store holds at the address's place, below none and off none (R33, R51). -/
theorem codeAt_eq_some (s : State) (pc : Word) (w : InstrWord) :
    s.codeAt pc = some w ↔
      uval s.cfg.codeBase ≤ uval pc ∧ (uval pc - uval s.cfg.codeBase) % 4 = 0 ∧
        s.code[(uval pc - uval s.cfg.codeBase) / 4]? = some w := by
  by_cases h : uval s.cfg.codeBase ≤ uval pc ∧ (uval pc - uval s.cfg.codeBase) % 4 = 0 ∧
      (uval pc - uval s.cfg.codeBase) / 4 < s.code.length
  · simp [State.codeAt, State.fetchIndex, Config.ilen, h]
  · have hn : s.fetchIndex pc = none := if_neg h
    simp only [State.codeAt, hn]
    refine ⟨nofun, fun ⟨h1, h2, h3⟩ => absurd ⟨h1, h2, ?_⟩ h⟩
    exact (List.getElem?_eq_some_iff.mp h3).1

/-! Scoreboard -/

theorem count_eq_countAt (s : State) (r : RegIdx) : s.count r = countAt s.sb r := rfl

/-- A counter reads what was last set, and setting one changes no other. -/
theorem countAt_setCount (sb : Vector Count 32) (r q : RegIdx) (n : Count) :
    countAt (setCount sb r n) q = if r = q then n else countAt sb q := by
  simp only [countAt, setCount, Vector.getElem_set, BitVec.toNat_inj]

theorem toNat_pred {n : Count} (h : n ≠ 0) : (n - 1).toNat = n.toNat - 1 ∧ 1 ≤ n.toNat := by
  revert n; decide

theorem toNat_succ {n : Count} (h : n ≠ 7) : (n + 1).toNat = n.toNat + 1 := by
  revert n; decide

/-- Everything a release does where it succeeds: every counter falls by the number of its reservations. -/
theorem countAt_releaseAll {res : List Reservation} {sb sb' : Vector Count 32} (h : releaseAll res sb = .ok sb')
    (r : RegIdx) : (countAt sb r).toNat = (countAt sb' r).toNat + res.countP fun p => p.reg = r := by
  induction res generalizing sb with
  | nil => cases h; simp
  | cons p rest ih =>
    simp only [releaseAll] at h
    split at h
    · cases h
    · rename_i hne
      have := ih h
      rw [countAt_setCount] at this
      have ⟨h1, h2⟩ := toNat_pred hne
      by_cases hp : p.reg = r
      · subst hp
        simp only [if_true, h1] at this
        simp only [List.countP_cons, decide_true, if_true]
        omega
      · simpa [hp] using this

/-- A release succeeds where every counter is at least the number of its reservations. -/
theorem releaseAll_ok {res : List Reservation} {sb : Vector Count 32}
    (h : ∀ r, (res.countP fun p => p.reg = r) ≤ (countAt sb r).toNat) : ∃ sb', releaseAll res sb = .ok sb' := by
  induction res generalizing sb with
  | nil => exact ⟨sb, rfl⟩
  | cons p rest ih =>
    have hp := h p.reg
    simp only [List.countP_cons, decide_true, if_true] at hp
    have hne : countAt sb p.reg ≠ 0 := fun h0 => by simp [h0] at hp
    simp only [releaseAll, if_neg hne]
    apply ih
    intro r
    rw [countAt_setCount]
    by_cases hpr : p.reg = r
    · subst hpr
      simp only [if_true, (toNat_pred hne).1]
      omega
    · simpa [hpr] using h r

/-- Everything a reservation does where it succeeds: every counter rises by the number of its reservations. -/
theorem countAt_reserveAll {res : List Reservation} {sb sb' : Vector Count 32} (h : reserveAll res sb = .ok sb')
    (r : RegIdx) : (countAt sb' r).toNat = (countAt sb r).toNat + res.countP fun p => p.reg = r := by
  induction res generalizing sb with
  | nil => cases h; simp
  | cons p rest ih =>
    simp only [reserveAll] at h
    split at h
    · cases h
    · rename_i hne
      have := ih h
      rw [countAt_setCount] at this
      by_cases hp : p.reg = r
      · subst hp
        simp only [if_true, toNat_succ hne] at this
        simp only [List.countP_cons, decide_true, if_true]
        omega
      · simpa [hp] using this

/-- A reservation succeeds where no counter would pass 7. -/
theorem reserveAll_ok {res : List Reservation} {sb : Vector Count 32}
    (h : ∀ r, (countAt sb r).toNat + (res.countP fun p => p.reg = r) ≤ 7) : ∃ sb', reserveAll res sb = .ok sb' := by
  induction res generalizing sb with
  | nil => exact ⟨sb, rfl⟩
  | cons p rest ih =>
    have hp := h p.reg
    simp only [List.countP_cons, decide_true, if_true] at hp
    have hne : countAt sb p.reg ≠ 7 := fun h0 => by simp [h0] at hp
    simp only [reserveAll, if_neg hne]
    apply ih
    intro r
    rw [countAt_setCount]
    by_cases hpr : p.reg = r
    · subst hpr
      simp only [if_true, toNat_succ hne]
      omega
    · simpa [hpr] using h r

end Sys2Proof.Machine
end

