-- ==== Sys2Proof/Laws/Exec.lean ====
section
/-! SUPPORT. What exec does in each unit, once for all 25 instructions, and what each stage operation can do. Proofs cite
these lemmas and do not unfold exec. -/

namespace Sys2Proof.Machine

/-- An instruction's execute step (files 41 to 44 of spec/, under Execute). -/
def executed (i : Instr) : Latch → Flags → Executed :=
  match i with
  | .add .. => computeResult fun l => addWords l.v1 l.v2
  | .sub .. => computeResult fun l => subWords l.v1 l.v2
  | .mul .. => computeResult fun l => mulWords l.v1 l.v2
  | .and .. => computeResult fun l => andWords l.v1 l.v2
  | .or .. => computeResult fun l => orWords l.v1 l.v2
  | .xor .. => computeResult fun l => xorWords l.v1 l.v2
  | .addl _ _ imm => computeResult fun l => addWords l.v1 imm
  | .subl _ _ imm => computeResult fun l => subWords l.v1 imm
  | .movc _ imm => fun l f => { latch := { l with result := imm }, flags := f, target := none }
  | .cmp .. => computeCompare fun l => l.v2
  | .cml _ imm => computeCompare fun _ => imm
  | .load _ _ imm => computeAddress (fun l => l.v1) imm
  | .loadp _ _ imm => computeAddressInc (fun l => l.v1) imm
  | .store _ _ imm => computeAddress (fun l => l.v2) imm
  | .storep _ _ imm => computeAddressInc (fun l => l.v2) imm
  | .jump _ imm => fun l f => { latch := l, flags := f, target := some (transferTarget l.v1 imm) }
  | .jalr _ _ imm => fun l f =>
    { latch := { l with result := nextPc l.pc }, flags := f, target := some (transferTarget l.v1 imm) }
  | .bz imm => computeBranch testZ imm
  | .bnz imm => computeBranch testNZ imm
  | .bp imm => computeBranch testP imm
  | .bnp imm => computeBranch testNP imm
  | .bn imm => computeBranch testN imm
  | .bnn imm => computeBranch testNN imm
  | .nop => executeNothing
  | .halt => executeNothing

/-- An instruction's memory step. -/
def memoryWork (i : Instr) (s : State) : State :=
  if i.isLoad then loadMemory s else if i.isStore then storeMemory s else passMemory s

/-- An instruction's fetch step. -/
def fetchWork (i : Instr) (s : State) : State :=
  if i = .halt then deliverHalt s else deliver i s

/-- Every instruction's meaning, one stage operation for each unit. -/
theorem exec_eq (i : Instr) (s : State) :
    exec i s = perStage (fetchWork i) (issue i.src1 i.src2 i.dsts) (executeWith (executed i)) (memoryWork i)
      (commitWith (decide (i = .halt))) s := by
  cases i <;> rfl

theorem exec_fetch (i : Instr) {s : State} (h : s.stage = .fetch) : exec i s = .next (fetchWork i s) := by
  simp only [exec_eq, perStage, h]

theorem exec_decode (i : Instr) {s : State} (h : s.stage = .decode) :
    exec i s = .next (issue i.src1 i.src2 i.dsts s) := by
  simp only [exec_eq, perStage, h]

theorem exec_execute (i : Instr) {s : State} (h : s.stage = .execute) :
    exec i s = .next (executeWith (executed i) s) := by
  simp only [exec_eq, perStage, h]

theorem exec_memory (i : Instr) {s : State} (h : s.stage = .memory) : exec i s = .next (memoryWork i s) := by
  simp only [exec_eq, perStage, h]

theorem exec_writeback (i : Instr) {s : State} (h : s.stage = .writeback) :
    exec i s = .next (commitWith (decide (i = .halt)) s) := by
  simp only [exec_eq, perStage, h]

/-! The same where the driver has just named the unit -/

theorem exec_at_fetch (i : Instr) (s : State) : exec i (s.at .fetch) = .next (fetchWork i (s.at .fetch)) :=
  exec_fetch i (by rfl)

theorem exec_at_decode (i : Instr) (s : State) :
    exec i (s.at .decode) = .next (issue i.src1 i.src2 i.dsts (s.at .decode)) :=
  exec_decode i (by rfl)

theorem exec_at_execute (i : Instr) (s : State) :
    exec i (s.at .execute) = .next (executeWith (executed i) (s.at .execute)) :=
  exec_execute i (by rfl)

theorem exec_at_memory (i : Instr) (s : State) : exec i (s.at .memory) = .next (memoryWork i (s.at .memory)) :=
  exec_memory i (by rfl)

theorem exec_at_writeback (i : Instr) (s : State) :
    exec i (s.at .writeback) = .next (commitWith (decide (i = .halt)) (s.at .writeback)) :=
  exec_writeback i (by rfl)

/-- No meaning stops: exec always answers a next state. -/
theorem exec_next (i : Instr) (s : State) : ∃ t, exec i s = .next t := by
  rw [exec_eq]; unfold perStage; split <;> exact ⟨_, rfl⟩

/-! What execute's step keeps of the latch -/

@[simp] theorem executed_instr (i : Instr) (l : Latch) (f : Flags) : (executed i l f).latch.instr = l.instr := by
  cases i <;> rfl

@[simp] theorem executed_pc (i : Instr) (l : Latch) (f : Flags) : (executed i l f).latch.pc = l.pc := by
  cases i <;> rfl

@[simp] theorem executed_v1 (i : Instr) (l : Latch) (f : Flags) : (executed i l f).latch.v1 = l.v1 := by
  cases i <;> rfl

@[simp] theorem executed_v2 (i : Instr) (l : Latch) (f : Flags) : (executed i l f).latch.v2 = l.v2 := by
  cases i <;> rfl

@[simp] theorem executed_res (i : Instr) (l : Latch) (f : Flags) : (executed i l f).latch.res = l.res := by
  cases i <;> rfl

@[simp] theorem executed_rel (i : Instr) (l : Latch) (f : Flags) : (executed i l f).latch.rel = l.rel := by
  cases i <;> rfl

/-- Only the ten instructions of R34 write the flags, and they leave exactly one set. -/
theorem executed_flags (i : Instr) (l : Latch) (f : Flags) :
    (i.writesFlags = false ∧ (executed i l f).flags = f) ∨
      (i.writesFlags = true ∧ (executed i l f).flags.oneHot = true) := by
  cases i
  all_goals first
    | exact .inl ⟨rfl, rfl⟩
    | exact .inr ⟨rfl, threeWay_oneHot _ _⟩

/-! What each stage operation can do -/

/-- Decode on a valid latch: it issues, it stalls, or a counter would pass 7. -/
theorem issue_cases (src1 src2 : Option RegIdx) (dsts : List Reservation) {s : State} {l : Latch} (hd : s.d = some l) :
    (∃ v1 v2 sb, sourceValue s src1 l.v1 = some v1 ∧ sourceValue s src2 l.v2 = some v2 ∧
      reserveAll dsts s.sb = .ok sb ∧
      issue src1 src2 dsts s =
        { s with e := some { l with v1 := v1, v2 := v2, res := dsts, rel := false }, sb := sb }) ∨
    ((sourceValue s src1 l.v1 = none ∨ sourceValue s src2 l.v2 = none) ∧ issue src1 src2 dsts s = stall s) ∨
    (∃ r, reserveAll dsts s.sb = .error r ∧ issue src1 src2 dsts s = raise (.invariantViolation r) s) := by
  simp only [issue, hd]
  cases h1 : sourceValue s src1 l.v1 with
  | none => exact .inr (.inl ⟨.inl rfl, rfl⟩)
  | some v1 =>
    cases h2 : sourceValue s src2 l.v2 with
    | none => exact .inr (.inl ⟨.inr rfl, rfl⟩)
    | some v2 =>
      cases h3 : reserveAll dsts s.sb with
      | ok sb => exact .inl ⟨v1, v2, sb, rfl, rfl, rfl, rfl⟩
      | error r => exact .inr (.inr ⟨r, rfl, rfl⟩)

/-- Writeback on a valid latch: it commits, or a counter would pass below 0. -/
theorem commitWith_cases (halts : Bool) {s : State} {l : Latch} (hw : s.w = some l) :
    (∃ sb, (if l.rel then .ok s.sb else releaseAll l.res s.sb) = .ok sb ∧
      commitWith halts s =
        { s with
          regs := commitRegs l l.res s.regs
          sb := sb
          retiredCount := s.retiredCount + 1
          halted := s.halted || halts }) ∨
    (∃ r, l.rel = false ∧ releaseAll l.res s.sb = .error r ∧
      commitWith halts s = raise (.invariantViolation r) s) := by
  simp only [commitWith, hw]
  cases hr : l.rel with
  | true => exact .inl ⟨s.sb, rfl, rfl⟩
  | false =>
    cases h : releaseAll l.res s.sb with
    | ok sb => exact .inl ⟨sb, by simp, rfl⟩
    | error r => exact .inr ⟨r, rfl, rfl, rfl⟩

/-- Memory of a load on a valid latch: a bad address, the access alone, or the access with the early release, which
fails where a counter would pass below 0. -/
theorem loadMemory_cases {s : State} {l : Latch} (hm : s.m = some l) :
    (s.inRange l.ea = false ∧ loadMemory s = raise (.dataAddressOutOfRange l.ea l.pc) s) ∨
    (s.inRange l.ea = true ∧ s.cfg.forwarding = false ∧
      loadMemory s = { s with w := some { l with result := s.memRead l.ea } }) ∨
    (∃ sb, s.inRange l.ea = true ∧ s.cfg.forwarding = true ∧ releaseAll l.res s.sb = .ok sb ∧
      loadMemory s = { s with sb := sb, w := some { l with result := s.memRead l.ea, rel := true } }) ∨
    (∃ r, s.inRange l.ea = true ∧ s.cfg.forwarding = true ∧ releaseAll l.res s.sb = .error r ∧
      loadMemory s = raise (.invariantViolation r) s) := by
  simp only [loadMemory, hm, releaseEarly]
  cases hr : s.inRange l.ea with
  | false => exact .inl ⟨rfl, by simp⟩
  | true =>
    cases hf : s.cfg.forwarding with
    | false => exact .inr (.inl ⟨rfl, rfl, by simp⟩)
    | true =>
      cases h : releaseAll l.res s.sb with
      | ok sb => exact .inr (.inr (.inl ⟨sb, rfl, rfl, rfl, by simp⟩))
      | error r => exact .inr (.inr (.inr ⟨r, rfl, rfl, rfl, by simp⟩))

/-- Memory of a store on a valid latch: a bad address, or the one cell written. -/
theorem storeMemory_cases {s : State} {l : Latch} (hm : s.m = some l) :
    (s.inRange l.ea = false ∧ storeMemory s = raise (.dataAddressOutOfRange l.ea l.pc) s) ∨
    (s.inRange l.ea = true ∧
      storeMemory s = { s with mem := Memory.write s.mem (cellIndex l.ea) l.v1, w := some l }) := by
  simp only [storeMemory, hm]
  cases hr : s.inRange l.ea with
  | false => exact .inl ⟨rfl, by simp⟩
  | true => exact .inr ⟨rfl, by simp⟩

/-- An address in range names a cell that exists. -/
theorem cellIndex_lt {s : State} {ea : Word} (h : s.inRange ea = true) : cellIndex ea < s.cfg.dmemSize := by
  simp only [State.inRange, Bool.and_eq_true, decide_eq_true_eq] at h
  unfold cellIndex; omega

end Sys2Proof.Machine
end

