-- ==== Sys2Proof/Laws/Cycle.lean ====
section
/-! SUPPORT. A cycle as a composition of functions from state to state, since no meaning ever stops: proofs about a step
take it apart with these. -/

namespace Sys2Proof.Machine

/-- Goes on with the next unit unless the last one raised a fault. -/
def thenState (s : State) (k : State → State) : State := if s.fault then s else k s

/-- What writeback leaves. -/
def writebackState (s : State) : State :=
  match s.w with
  | none => s
  | some l => commitWith (decide (l.instr = .halt)) (s.at .writeback)

/-- What memory leaves. -/
def memoryState (s : State) : State :=
  match s.m with
  | none => { s with w := none }
  | some l => memoryWork l.instr (s.at .memory)

/-- What execute leaves. -/
def executeState (s : State) : State :=
  match s.e with
  | none => { s with m := none }
  | some l => executeWith (executed l.instr) (s.at .execute)

/-- What decode leaves. -/
def decodeState (s : State) : State :=
  match s.d with
  | none => { s with e := none }
  | some l => issue l.instr.src1 l.instr.src2 l.instr.dsts (s.at .decode)

/-- What a fetch leaves. -/
def fetchInstrState (s : State) : State :=
  match s.codeAt s.pc with
  | none => raise (.fetchOutOfRange s.pc) s
  | some w =>
    match decode s.cfg.nregs w with
    | .error _ => raise (.illegalInstruction s.pc (highHalf w)) s
    | .ok i => fetchWork i (s.at .fetch)

/-- What the fetch unit leaves. -/
def fetchState (s : State) : State :=
  if s.redirect then { s with d := none }
  else if s.stalled then s
  else if s.armed then fetchInstrState s
  else { s with d := none }

/-- What a cycle leaves before fetch. -/
def beforeFetch (s : State) : State :=
  thenState (thenState (thenState (writebackState (beginCycle s)) memoryState) executeState) decodeState

/-- What a cycle leaves. -/
def cycleState (s : State) : State :=
  endCycle (thenState (beforeFetch s) fetchState)

theorem writebackUnit_eq (s : State) : writebackUnit s = .next (writebackState s) := by
  cases h : s.w with
  | none => simp [writebackUnit, writebackState, h]
  | some l => simp [writebackUnit, writebackState, h, exec_at_writeback]

theorem memoryUnit_eq (s : State) : memoryUnit s = .next (memoryState s) := by
  cases h : s.m with
  | none => simp [memoryUnit, memoryState, h]
  | some l => simp [memoryUnit, memoryState, h, exec_at_memory]

theorem executeUnit_eq (s : State) : executeUnit s = .next (executeState s) := by
  cases h : s.e with
  | none => simp [executeUnit, executeState, h]
  | some l => simp [executeUnit, executeState, h, exec_at_execute]

theorem decodeUnit_eq (s : State) : decodeUnit s = .next (decodeState s) := by
  cases h : s.d with
  | none => simp [decodeUnit, decodeState, h]
  | some l => simp [decodeUnit, decodeState, h, exec_at_decode]

theorem fetchInstr_eq (s : State) : fetchInstr s = .next (fetchInstrState s) := by
  cases hc : s.codeAt s.pc with
  | none => simp [fetchInstr, fetchInstrState, hc]
  | some w =>
    cases hd : decode s.cfg.nregs w with
    | error _ => simp [fetchInstr, fetchInstrState, hc, hd]
    | ok i => simp [fetchInstr, fetchInstrState, hc, hd, exec_at_fetch]

theorem fetchUnit_eq (s : State) : fetchUnit s = .next (fetchState s) := by
  unfold fetchUnit fetchState
  rw [fetchInstr_eq]
  split_ifs <;> rfl

theorem andThen_next (s : State) {f : State → Host.Outcome State Fault Refusal} {k : State → State}
    (h : ∀ t, f t = .next (k t)) : andThen (.next s) f = .next (thenState s k) := by
  simp only [andThen, thenState, h]
  split_ifs <;> rfl

theorem cycleToFetch_eq (s : State) : cycleToFetch s = .next (beforeFetch s) := by
  unfold cycleToFetch beforeFetch
  rw [writebackUnit_eq, andThen_next _ memoryUnit_eq, andThen_next _ executeUnit_eq, andThen_next _ decodeUnit_eq]

theorem cycle_eq (s : State) : cycle s = .next (cycleState s) := by
  unfold cycle cycleState
  rw [cycleToFetch_eq, andThen_next _ fetchUnit_eq]
  rfl

/-- A live engine's step is one cycle (R167). -/
theorem step_live {s : State} (h : s.Live) : step s = .next (cycleState s) := by
  obtain ⟨hc, hh, hf⟩ := h
  simp [step, engineStep, State.noStore, State.running, hc, hh, hf, cycle_eq]

/-- A step of an engine that exists keeps it or is one cycle of it: to show that a step keeps a property, show that a
cycle of a live engine does. -/
theorem step_keeps {P : State → Prop} (hcycle : ∀ s, s.Live → P s → P (cycleState s)) {s t : State}
    (hs : step s = .next t) (h : P s) : P t := by
  by_cases hc : s.code = []
  · simp [step, engineStep, State.noStore, hc] at hs
  · by_cases hr : s.halted = false ∧ s.fault = false
    · have hl : s.Live := ⟨hc, hr.1, hr.2⟩
      rw [step_live hl] at hs
      cases hs
      exact hcycle s hl h
    · have : s.running = false := by
        simp only [State.running]
        by_contra hne
        apply hr
        revert hne
        cases s.halted <;> cases s.fault <;> simp
      simp [step, engineStep, State.noStore, hc, this] at hs
      exact hs ▸ h

/-- To show that a cycle keeps a property, show that its opening, every unit and its closing do; a unit is only reached
without a fault. -/
theorem cycleState_keeps {P : State → Prop} (h0 : ∀ s, P s → P (beginCycle s))
    (hw : ∀ s, s.fault = false → P s → P (writebackState s)) (hm : ∀ s, s.fault = false → P s → P (memoryState s))
    (he : ∀ s, s.fault = false → P s → P (executeState s)) (hd : ∀ s, s.fault = false → P s → P (decodeState s))
    (hf : ∀ s, s.fault = false → P s → P (fetchState s)) (h1 : ∀ s, P s → P (endCycle s)) {s : State}
    (hs : s.fault = false) (h : P s) : P (cycleState s) := by
  have hthen : ∀ s k, P s → (∀ t, t.fault = false → P t → P (k t)) → P (thenState s k) := by
    intro s k hs hk
    unfold thenState
    cases hf : s.fault with
    | true => exact hs
    | false => exact hk s hf hs
  exact h1 _ (hthen _ _ (hthen _ _ (hthen _ _ (hthen _ _ (hw _ hs (h0 _ h)) hm) he) hd) hf)

end Sys2Proof.Machine
end

