-- ==== Sys2Proof/Laws/Fields.lean ====
section
/-! SUPPORT. The fields of a packed word (spec/30_encoding.md R101): proofs about the encoding cite these and never take
a word's bits apart. -/

namespace Sys2Proof

/-- A packed word as a number. -/
theorem pack_toNat (opc : BitVec 5) (rd rs1 rs2 : RegIdx) (imm : Word) :
    (pack opc rd rs1 rs2 imm).toNat =
      opc.toNat * 2 ^ 59 + rd.toNat * 2 ^ 54 + rs1.toNat * 2 ^ 49 + rs2.toNat * 2 ^ 44 + imm.toNat := by
  have hz : BitVec.toNat (0 : BitVec 12) = 0 := rfl
  simp only [pack, BitVec.toNat_append]
  rw [← Nat.shiftLeft_add_eq_or_of_lt imm.isLt, ← Nat.shiftLeft_add_eq_or_of_lt (BitVec.isLt _),
    ← Nat.shiftLeft_add_eq_or_of_lt rs2.isLt, ← Nat.shiftLeft_add_eq_or_of_lt rs1.isLt,
    ← Nat.shiftLeft_add_eq_or_of_lt rd.isLt]
  simp only [Nat.shiftLeft_eq, hz]
  omega

/-- A field as a number. -/
theorem field_toNat (w : InstrWord) (k n : Nat) : (w.extractLsb' k n).toNat = w.toNat / 2 ^ k % 2 ^ n := by
  simp [BitVec.extractLsb'_toNat, Nat.shiftRight_eq_div_pow]

variable (opc : BitVec 5) (rd rs1 rs2 : RegIdx) (imm : Word)

@[simp] theorem fieldOpc_pack : fieldOpc (pack opc rd rs1 rs2 imm) = opc := by
  apply BitVec.eq_of_toNat_eq
  rw [fieldOpc, field_toNat, pack_toNat]
  have := opc.isLt; have := rd.isLt; have := rs1.isLt; have := rs2.isLt; have := imm.isLt
  omega

@[simp] theorem fieldRd_pack : fieldRd (pack opc rd rs1 rs2 imm) = rd := by
  apply BitVec.eq_of_toNat_eq
  rw [fieldRd, field_toNat, pack_toNat]
  have := opc.isLt; have := rd.isLt; have := rs1.isLt; have := rs2.isLt; have := imm.isLt
  omega

@[simp] theorem fieldRs1_pack : fieldRs1 (pack opc rd rs1 rs2 imm) = rs1 := by
  apply BitVec.eq_of_toNat_eq
  rw [fieldRs1, field_toNat, pack_toNat]
  have := opc.isLt; have := rd.isLt; have := rs1.isLt; have := rs2.isLt; have := imm.isLt
  omega

@[simp] theorem fieldRs2_pack : fieldRs2 (pack opc rd rs1 rs2 imm) = rs2 := by
  apply BitVec.eq_of_toNat_eq
  rw [fieldRs2, field_toNat, pack_toNat]
  have := opc.isLt; have := rd.isLt; have := rs1.isLt; have := rs2.isLt; have := imm.isLt
  omega

@[simp] theorem fieldRsv_pack : fieldRsv (pack opc rd rs1 rs2 imm) = 0 := by
  apply BitVec.eq_of_toNat_eq
  rw [fieldRsv, field_toNat, pack_toNat, show BitVec.toNat (0 : BitVec 12) = 0 from rfl]
  have := opc.isLt; have := rd.isLt; have := rs1.isLt; have := rs2.isLt; have := imm.isLt
  omega

@[simp] theorem fieldImm_pack : fieldImm (pack opc rd rs1 rs2 imm) = imm := by
  apply BitVec.eq_of_toNat_eq
  rw [fieldImm, field_toNat, pack_toNat]
  have := opc.isLt; have := rd.isLt; have := rs1.isLt; have := rs2.isLt; have := imm.isLt
  omega

end Sys2Proof
end

