-- ==== Sys2Proof/Laws/PerInstr.lean ====
section
/-! SUPPORT. What holds of every instruction as syntax, one lemma per constructor: its word carries its opcode number and
no reserved bit (spec/30_encoding.md R102, R103), and the sources and reservations of its rule name only register fields
its format uses (R107, R108, R146). -/

namespace Sys2Proof.Laws.Encoding

/-- The word of the instruction lies in its row of the opcode table, and every register it reads or reserves is one of
the fields its legality is checked on. -/
def Statement (i : Instr) : Prop :=
  fieldOpc (encode i) = i.opcode ∧ fieldRsv (encode i) = 0 ∧
  (∀ r ∈ i.src1, r ∈ i.regFields) ∧ (∀ r ∈ i.src2, r ∈ i.regFields) ∧ ∀ p ∈ i.dsts, p.reg ∈ i.regFields

theorem add (rd rs1 rs2 : RegIdx) : Statement (.add rd rs1 rs2) := by
  simp [Statement, encode, Instr.opcode, Instr.src1, Instr.src2, Instr.dsts, Instr.regFields]

theorem sub (rd rs1 rs2 : RegIdx) : Statement (.sub rd rs1 rs2) := by
  simp [Statement, encode, Instr.opcode, Instr.src1, Instr.src2, Instr.dsts, Instr.regFields]

theorem mul (rd rs1 rs2 : RegIdx) : Statement (.mul rd rs1 rs2) := by
  simp [Statement, encode, Instr.opcode, Instr.src1, Instr.src2, Instr.dsts, Instr.regFields]

theorem and (rd rs1 rs2 : RegIdx) : Statement (.and rd rs1 rs2) := by
  simp [Statement, encode, Instr.opcode, Instr.src1, Instr.src2, Instr.dsts, Instr.regFields]

theorem or (rd rs1 rs2 : RegIdx) : Statement (.or rd rs1 rs2) := by
  simp [Statement, encode, Instr.opcode, Instr.src1, Instr.src2, Instr.dsts, Instr.regFields]

theorem xor (rd rs1 rs2 : RegIdx) : Statement (.xor rd rs1 rs2) := by
  simp [Statement, encode, Instr.opcode, Instr.src1, Instr.src2, Instr.dsts, Instr.regFields]

theorem addl (rd rs1 : RegIdx) (imm : Word) : Statement (.addl rd rs1 imm) := by
  simp [Statement, encode, Instr.opcode, Instr.src1, Instr.src2, Instr.dsts, Instr.regFields]

theorem subl (rd rs1 : RegIdx) (imm : Word) : Statement (.subl rd rs1 imm) := by
  simp [Statement, encode, Instr.opcode, Instr.src1, Instr.src2, Instr.dsts, Instr.regFields]

theorem movc (rd : RegIdx) (imm : Word) : Statement (.movc rd imm) := by
  simp [Statement, encode, Instr.opcode, Instr.src1, Instr.src2, Instr.dsts, Instr.regFields]

theorem cmp (rs1 rs2 : RegIdx) : Statement (.cmp rs1 rs2) := by
  simp [Statement, encode, Instr.opcode, Instr.src1, Instr.src2, Instr.dsts, Instr.regFields]

theorem cml (rs1 : RegIdx) (imm : Word) : Statement (.cml rs1 imm) := by
  simp [Statement, encode, Instr.opcode, Instr.src1, Instr.src2, Instr.dsts, Instr.regFields]

theorem load (rd rs1 : RegIdx) (imm : Word) : Statement (.load rd rs1 imm) := by
  simp [Statement, encode, Instr.opcode, Instr.src1, Instr.src2, Instr.dsts, Instr.regFields]

theorem loadp (rd rs1 : RegIdx) (imm : Word) : Statement (.loadp rd rs1 imm) := by
  simp [Statement, encode, Instr.opcode, Instr.src1, Instr.src2, Instr.dsts, Instr.regFields]

theorem store (rs1 rs2 : RegIdx) (imm : Word) : Statement (.store rs1 rs2 imm) := by
  simp [Statement, encode, Instr.opcode, Instr.src1, Instr.src2, Instr.dsts, Instr.regFields]

theorem storep (rs1 rs2 : RegIdx) (imm : Word) : Statement (.storep rs1 rs2 imm) := by
  simp [Statement, encode, Instr.opcode, Instr.src1, Instr.src2, Instr.dsts, Instr.regFields]

theorem jump (rs1 : RegIdx) (imm : Word) : Statement (.jump rs1 imm) := by
  simp [Statement, encode, Instr.opcode, Instr.src1, Instr.src2, Instr.dsts, Instr.regFields]

theorem jalr (rd rs1 : RegIdx) (imm : Word) : Statement (.jalr rd rs1 imm) := by
  simp [Statement, encode, Instr.opcode, Instr.src1, Instr.src2, Instr.dsts, Instr.regFields]

theorem bz (imm : Word) : Statement (.bz imm) := by
  simp [Statement, encode, Instr.opcode, Instr.src1, Instr.src2, Instr.dsts, Instr.regFields]

theorem bnz (imm : Word) : Statement (.bnz imm) := by
  simp [Statement, encode, Instr.opcode, Instr.src1, Instr.src2, Instr.dsts, Instr.regFields]

theorem bp (imm : Word) : Statement (.bp imm) := by
  simp [Statement, encode, Instr.opcode, Instr.src1, Instr.src2, Instr.dsts, Instr.regFields]

theorem bnp (imm : Word) : Statement (.bnp imm) := by
  simp [Statement, encode, Instr.opcode, Instr.src1, Instr.src2, Instr.dsts, Instr.regFields]

theorem bn (imm : Word) : Statement (.bn imm) := by
  simp [Statement, encode, Instr.opcode, Instr.src1, Instr.src2, Instr.dsts, Instr.regFields]

theorem bnn (imm : Word) : Statement (.bnn imm) := by
  simp [Statement, encode, Instr.opcode, Instr.src1, Instr.src2, Instr.dsts, Instr.regFields]

theorem nop : Statement .nop := by
  simp [Statement, encode, Instr.opcode, Instr.src1, Instr.src2, Instr.dsts, Instr.regFields]

theorem halt : Statement .halt := by
  simp [Statement, encode, Instr.opcode, Instr.src1, Instr.src2, Instr.dsts, Instr.regFields]

end Sys2Proof.Laws.Encoding
end

