-- ==== Sys2Proof/Laws/Run.lean ====
section
/-! SUPPORT. A watched run, one step at a time: where it has returned, where it is still stepping, and that a step of an
engine that exists is always answered, by an engine that exists. -/

namespace Sys2Proof.Machine

/-- An engine that exists answers every step, with its own store. -/
theorem step_answers {s : State} (hc : s.code ≠ []) : ∃ t, step s = .next t := by
  by_cases hr : s.running = true
  · have hf : s.halted = false ∧ s.fault = false := by simpa [State.running] using hr
    exact ⟨_, step_live ⟨hc, hf⟩⟩
  · exact ⟨s, by simp [step, engineStep, State.noStore, hc, hr]⟩

/-- The interface's run takes one step and goes on from there. -/
theorem run_succ (k : Nat) (s : State) :
    Host.Core.run core (k + 1) s =
      match step s with
      | .next t => Host.Core.run core k t
      | .fault r => .fault r
      | .refused r => .refused r := by
  have h : core.step s = step s := rfl
  cases hs : step s <;> rw [hs] at h <;> simp only [Host.Core.run, h]

/-- A run returns where the engine has stopped or the budget does not let it on. -/
theorem runFor_returns {budget : Budget} {s : State} (n : Nat) (hc : s.code ≠ [])
    (h : (s.running && budget.allows s.cycleCount) = false) : runFor budget n s = .next (.returned s s.runResult) := by
  cases n <;> simp [runFor, State.noStore, hc, h]

/-- A run that may go on is still stepping when the watch ends. -/
theorem runFor_watched {budget : Budget} {s : State} (hc : s.code ≠ [])
    (h : (s.running && budget.allows s.cycleCount) = true) : runFor budget 0 s = .next (.stepping s) := by
  simp [runFor, State.noStore, hc, h]

/-- A run that may go on takes a step. -/
theorem runFor_steps {budget : Budget} {s t : State} (n : Nat) (hc : s.code ≠ [])
    (h : (s.running && budget.allows s.cycleCount) = true) (hs : step s = .next t) :
    runFor budget (n + 1) s = runFor budget n t := by
  simp [runFor, State.noStore, hc, h, hs]

end Sys2Proof.Machine
end

