-- ==== Sys2Proof/Laws/Units.lean ====
section
/-! SUPPORT. What each unit of a cycle can do when no fault is raised, as explicit states, and the order in which a cycle
without a fault applies them. Statements about a step without a fault are proved by cases on these. -/

namespace Sys2Proof.Machine

/-- A unit that ran without a fault was reached without one. -/
theorem thenState_fault {s : State} {k : State → State} (h : (thenState s k).fault = false) :
    s.fault = false ∧ thenState s k = k s := by
  unfold thenState at *
  split at h <;> simp_all

/-- A cycle that raises no fault runs all five units, one after another. -/
theorem cycleState_noFault {s : State} (h : (cycleState s).fault = false) :
    ∃ sw sm se sd, sw = writebackState (beginCycle s) ∧ sm = memoryState sw ∧ se = executeState sm ∧
      sd = decodeState se ∧ cycleState s = endCycle (fetchState sd) ∧
      sw.fault = false ∧ sm.fault = false ∧ se.fault = false ∧ sd.fault = false := by
  have h : (thenState (beforeFetch s) fetchState).fault = false := h
  have h5 := thenState_fault h
  have h4 := thenState_fault
    (s := thenState (thenState (writebackState (beginCycle s)) memoryState) executeState) (k := decodeState) h5.1
  have h3 := thenState_fault h4.1
  have h2 := thenState_fault h3.1
  have e : beforeFetch s = decodeState (executeState (memoryState (writebackState (beginCycle s)))) := by
    unfold beforeFetch; rw [h4.2, h3.2, h2.2]
  refine ⟨_, _, _, _, rfl, rfl, rfl, rfl, ?_, h2.1, ?_, ?_, ?_⟩
  · unfold cycleState; rw [h5.2, e]
  · rw [← h2.2]; exact h3.1
  · rw [← h2.2, ← h3.2]; exact h4.1
  · rw [← e]; exact h5.1

theorem writebackState_some {s : State} {l : Latch} (h : s.w = some l) :
    writebackState s = commitWith (decide (l.instr = .halt)) (s.at .writeback) := by
  simp only [writebackState, h]

theorem memoryState_some {s : State} {l : Latch} (h : s.m = some l) :
    memoryState s = memoryWork l.instr (s.at .memory) := by
  simp only [memoryState, h]

theorem executeState_some {s : State} {l : Latch} (h : s.e = some l) :
    executeState s = executeWith (executed l.instr) (s.at .execute) := by
  simp only [executeState, h]

theorem decodeState_some {s : State} {l : Latch} (h : s.d = some l) :
    decodeState s = issue l.instr.src1 l.instr.src2 l.instr.dsts (s.at .decode) := by
  simp only [decodeState, h]

/-- What writeback can do without a fault. -/
theorem writebackState_cases {s : State} (h : (writebackState s).fault = false) :
    (s.w = none ∧ writebackState s = s) ∨
    (∃ l sb, s.w = some l ∧ (if l.rel then .ok s.sb else releaseAll l.res s.sb) = .ok sb ∧
      writebackState s =
        { s with
          stage := .writeback, regs := commitRegs l l.res s.regs, sb := sb, retiredCount := s.retiredCount + 1
          halted := s.halted || decide (l.instr = .halt) }) := by
  obtain hw | ⟨l, hw⟩ := Option.eq_none_or_eq_some s.w
  · exact .inl ⟨hw, by simp only [writebackState, hw]⟩
  · rw [writebackState_some hw] at *
    rcases commitWith_cases (decide (l.instr = .halt)) (s := s.at .writeback) hw with ⟨sb, h1, h2⟩ | ⟨r, _, _, e⟩
    · exact .inr ⟨l, sb, hw, h1, h2⟩
    · rw [e] at h; cases h

/-- What memory can do without a fault. -/
theorem memoryState_cases {s : State} (h : (memoryState s).fault = false) :
    (s.m = none ∧ memoryState s = { s with w := none }) ∨
    (∃ l, s.m = some l ∧ l.instr.isLoad = false ∧ l.instr.isStore = false ∧
      memoryState s = { s with stage := .memory, w := some l }) ∨
    (∃ l, s.m = some l ∧ l.instr.isStore = true ∧ s.inRange l.ea = true ∧
      memoryState s = { s with stage := .memory, mem := Memory.write s.mem (cellIndex l.ea) l.v1, w := some l }) ∨
    (∃ l sb, s.m = some l ∧ l.instr.isLoad = true ∧ s.inRange l.ea = true ∧
      (if s.cfg.forwarding then releaseAll l.res s.sb else .ok s.sb) = .ok sb ∧
      memoryState s =
        { s with
          stage := .memory, sb := sb
          w := some { l with result := s.memRead l.ea, rel := if s.cfg.forwarding then true else l.rel } }) := by
  obtain hm | ⟨l, hm⟩ := Option.eq_none_or_eq_some s.m
  · exact .inl ⟨hm, by simp only [memoryState, hm]⟩
  · rw [memoryState_some hm] at *
    simp only [memoryWork] at *
    cases h1 : l.instr.isLoad with
    | true =>
      simp only [h1, if_true] at h ⊢
      refine .inr (.inr (.inr ?_))
      rcases loadMemory_cases (s := s.at .memory) hm with ⟨_, e⟩ | ⟨hr, hf, e⟩ | ⟨sb, hr, hf, hrel, e⟩ | ⟨r, _, _, _, e⟩
      · rw [e] at h; cases h
      · have hf : s.cfg.forwarding = false := hf
        exact ⟨l, s.sb, hm, h1, hr, by simp [hf], by rw [e, hf]; rfl⟩
      · have hf : s.cfg.forwarding = true := hf
        exact ⟨l, sb, hm, h1, hr, by simpa [hf] using hrel, by rw [e, hf]; rfl⟩
      · rw [e] at h; cases h
    | false =>
      cases h2 : l.instr.isStore with
      | true =>
        simp only [h1, h2, if_true, Bool.false_eq_true, if_false] at h ⊢
        refine .inr (.inr (.inl ⟨l, hm, h2, ?_⟩))
        rcases storeMemory_cases (s := s.at .memory) hm with ⟨_, e⟩ | ⟨hr, e⟩
        · rw [e] at h; cases h
        · exact ⟨hr, e⟩
      | false =>
        refine .inr (.inl ⟨l, hm, h1, h2, ?_⟩)
        simp only [Bool.false_eq_true, if_false, passMemory, hm, State.at]

/-- What execute can do. -/
theorem executeState_cases (s : State) :
    (s.e = none ∧ executeState s = { s with m := none }) ∨
    (∃ l, s.e = some l ∧ (executed l.instr l s.flags).target = none ∧ executeState s =
      { s with
        stage := .execute, m := some (executed l.instr l s.flags).latch
        flags := (executed l.instr l s.flags).flags }) ∨
    (∃ l t, s.e = some l ∧ (executed l.instr l s.flags).target = some t ∧ executeState s =
      { s with
        stage := .execute, m := some (executed l.instr l s.flags).latch
        flags := (executed l.instr l s.flags).flags
        pc := t, armed := true, d := none, redirect := true }) := by
  obtain he | ⟨l, he⟩ := Option.eq_none_or_eq_some s.e
  · exact .inl ⟨he, by simp only [executeState, he]⟩
  · rw [executeState_some he]
    have e : ∀ x, executeWith x (s.at .execute) = redirectTo (x l s.flags).target
        { s with stage := .execute, m := some (x l s.flags).latch, flags := (x l s.flags).flags } := by
      intro x; simp only [executeWith, he, State.at]
    rw [e]
    cases h : (executed l.instr l s.flags).target with
    | none => exact .inr (.inl ⟨l, he, h, rfl⟩)
    | some t => exact .inr (.inr ⟨l, t, he, h, rfl⟩)

/-- What decode can do without a fault: nothing in D, an issue, a stall. -/
theorem decodeState_cases {s : State} (h : (decodeState s).fault = false) :
    (s.d = none ∧ decodeState s = { s with e := none }) ∨
    (∃ l v1 v2 sb, s.d = some l ∧ sourceValue s l.instr.src1 l.v1 = some v1 ∧
      sourceValue s l.instr.src2 l.v2 = some v2 ∧ reserveAll l.instr.dsts s.sb = .ok sb ∧
      decodeState s =
        { s with
          stage := .decode, sb := sb
          e := some { l with v1 := v1, v2 := v2, res := l.instr.dsts, rel := false } }) ∨
    (∃ l, s.d = some l ∧ (sourceValue s l.instr.src1 l.v1 = none ∨ sourceValue s l.instr.src2 l.v2 = none) ∧
      decodeState s = { s with stage := .decode, e := none, stalled := true }) := by
  obtain hd | ⟨l, hd⟩ := Option.eq_none_or_eq_some s.d
  · exact .inl ⟨hd, by simp only [decodeState, hd]⟩
  · rw [decodeState_some hd] at *
    rcases issue_cases l.instr.src1 l.instr.src2 l.instr.dsts (s := s.at .decode) hd with
      ⟨v1, v2, sb, a, b, h1, e⟩ | ⟨a, e⟩ | ⟨r, _, e⟩
    · exact .inr (.inl ⟨l, v1, v2, sb, hd, a, b, h1, e⟩)
    · exact .inr (.inr ⟨l, hd, a, e⟩)
    · rw [e] at h; cases h

/-- What the fetch unit can do without a fault (R142). -/
theorem fetchState_cases {s : State} (h : (fetchState s).fault = false) :
    (s.redirect = true ∧ fetchState s = { s with d := none }) ∨
    (s.redirect = false ∧ s.stalled = true ∧ fetchState s = s) ∨
    (s.redirect = false ∧ s.stalled = false ∧ s.armed = false ∧ fetchState s = { s with d := none }) ∨
    (∃ w i, s.redirect = false ∧ s.stalled = false ∧ s.armed = true ∧ s.codeAt s.pc = some w ∧
      decode s.cfg.nregs w = .ok i ∧
      fetchState s =
        { s with
          stage := .fetch, d := some (fetchedLatch i s.pc), pc := nextPc s.pc, armed := decide (i ≠ .halt) }) := by
  obtain hr | hr := Bool.eq_false_or_eq_true s.redirect
  · exact .inl ⟨hr, by simp [fetchState, hr]⟩
  obtain ht | ht := Bool.eq_false_or_eq_true s.stalled
  · exact .inr (.inl ⟨hr, ht, by simp [fetchState, hr, ht]⟩)
  obtain ha | ha := Bool.eq_false_or_eq_true s.armed
  · have e : fetchState s = fetchInstrState s := by simp [fetchState, hr, ht, ha]
    rw [e] at h
    obtain hc | ⟨w, hc⟩ := Option.eq_none_or_eq_some (s.codeAt s.pc)
    · simp only [fetchInstrState, hc] at h; cases h
    · rcases hi : decode s.cfg.nregs w with _ | i
      · simp only [fetchInstrState, hc, hi] at h; cases h
      · refine .inr (.inr (.inr ⟨w, i, hr, ht, ha, hc, hi, ?_⟩))
        rw [e, show fetchInstrState s = fetchWork i (s.at .fetch) by simp only [fetchInstrState, hc, hi], fetchWork]
        by_cases hh : i = .halt
        · simp [hh, deliverHalt, deliver, State.at]
        · simp [hh, deliver, State.at, ha]
  · exact .inr (.inr (.inl ⟨hr, ht, ha, by simp [fetchState, hr, ht, ha]⟩))

/-- A transfer is taken exactly where the instruction's rule says, and to its target. -/
theorem executed_target (l : Latch) (f : Flags) :
    (executed l.instr l f).target = if l.instr.takes f then some l.target else none := by
  obtain ⟨i, _, _, _, _, _, _, _, _⟩ := l
  cases i <;> rfl

/-- The flags execute leaves are those of the instruction's rule, from its operand values. -/
theorem executed_flagsAfter (l : Latch) (f : Flags) : (executed l.instr l f).flags = l.flagsAfter f := by
  obtain ⟨i, _, _, _, _, _, _, _, _⟩ := l
  cases i <;> rfl

/-! The scoreboard where no counter leaves its range -/

/-- Reserving succeeds and adds where no counter would pass 7. -/
theorem reserveAll_eq {dsts : List Reservation} {sb : Vector Count 32}
    (h : ∀ r, (countAt sb r).toNat + (dsts.countP fun p => p.reg = r) ≤ 7) :
    reserveAll dsts sb = .ok (reserved dsts sb) := by
  induction dsts generalizing sb with
  | nil => rfl
  | cons p rest ih =>
    have hp := h p.reg
    simp only [List.countP_cons, decide_true, if_true] at hp
    have hne : countAt sb p.reg ≠ 7 := by
      intro hc; rw [hc] at hp; simp at hp
    simp only [reserveAll, hne, if_false]
    rw [ih]
    · rfl
    · intro r
      have hr := h r
      rw [countAt_setCount]
      simp only [List.countP_cons] at hr
      split
      · rename_i he; subst he; rw [toNat_succ hne]; simp at hr; omega
      · rename_i he; simp [he] at hr; omega

/-- Releasing succeeds and subtracts where no counter would pass below 0. -/
theorem releaseAll_eq {dsts : List Reservation} {sb : Vector Count 32}
    (h : ∀ r, (dsts.countP fun p => p.reg = r) ≤ (countAt sb r).toNat) :
    releaseAll dsts sb = .ok (released dsts sb) := by
  induction dsts generalizing sb with
  | nil => rfl
  | cons p rest ih =>
    have hp := h p.reg
    simp only [List.countP_cons, decide_true, if_true] at hp
    have hne : countAt sb p.reg ≠ 0 := by
      intro hc; rw [hc] at hp; simp at hp
    simp only [releaseAll, hne, if_false]
    rw [ih]
    · rfl
    · intro r
      have hr := h r
      rw [countAt_setCount]
      simp only [List.countP_cons] at hr
      split
      · rename_i he; subst he; rw [(toNat_pred hne).1]; simp at hr; omega
      · rename_i he; simp [he] at hr; omega

end Sys2Proof.Machine
end

