-- ==== Sys2Proof/Tests/Slice0.lean ====
section
/-! SUPPORT. The model's own tests, one step each, with expected values from spec/95_test_vectors.md and the rules'
worked examples, and the witnesses of the hypotheses of the statements. -/

open Sys2Proof Sys2Proof.Machine

namespace Sys2Proof.Tests

/-! ## Small states -/

/-- The state of spec/95_test_vectors.md's conventions, in either mode. -/
def start (forwarding : Bool) (code : List InstrWord) (image : List (Nat × Word)) : State :=
  State.initial { Params.default with forwarding } code (preloadImage 4096 image)

/-- An engine with a program of one NOP and one preloaded cell. -/
def base : State := start true [0xB800000000000000] [(104, 42)]

/-- An issued instruction with its operand values. -/
def issued (i : Instr) (pc v1 v2 : Word) : Latch := { fetchedLatch i pc with v1, v2, res := i.dsts }

/-- The execute unit about to run `i`. -/
def executing (i : Instr) (pc v1 v2 : Word) : State :=
  { base with stage := .execute, e := some (issued i pc v1 v2) }

/-- The memory unit about to run `i`, with its address computed and its reservations in the scoreboard. -/
def accessing (i : Instr) (ea v1 : Word) : State :=
  { base with
    stage := .memory, m := some { issued i 4000 v1 0 with ea }, sb := reserved i.dsts base.sb }

/-- The writeback unit about to commit `i`, with its reservations in the scoreboard. -/
def committing (i : Instr) (result inc : Word) : State :=
  { base with
    stage := .writeback, w := some { issued i 4000 0 0 with result, inc }, sb := reserved i.dsts base.sb }

/-- The decode unit about to issue `i`. -/
def decoding (i : Instr) : State := { base with stage := .decode, d := some (fetchedLatch i 4000) }

/-- The decode unit with a load of `r` in `Xa`. -/
def decodingBehindLoad (i : Instr) (r : RegIdx) : State :=
  { decoding i with m := some (issued (.load r 0 0) 3996 0 0), sb := reserved [⟨r, .mem⟩] base.sb }

/-- A full pipeline: V-X1 in the forwarding mode after cycle 4. -/
def busy : State :=
  { start true [0x4000000000000005, 0x404000000000000A, 0x0080100000000000, 0xC000000000000000] [] with
    pc := 4016, armed := false, cycleCount := 4
    d := some (fetchedLatch .halt 4012)
    e := some (issued (.add 2 0 1) 4008 5 10)
    m := some { issued (.movc 1 10) 4004 0 0 with result := 10 }
    w := some { issued (.movc 0 5) 4000 0 0 with result := 5 }
    sb := reserved [⟨0, .alu⟩, ⟨1, .alu⟩, ⟨2, .alu⟩] base.sb }

/-- The same with a taken JUMP in E. -/
def jumping : State :=
  { busy with
    e := some (issued (.jump 3 8) 4008 4000 0)
    sb := reserved [⟨0, .alu⟩, ⟨1, .alu⟩] base.sb }

/-- What execute leaves in M, and the flags. -/
def executeOf (o : Host.Outcome State Fault Refusal) : Option (Word × Word × Word × Flags) :=
  match o with
  | .next t => t.m.map fun l => (l.result, l.ea, l.inc, t.flags)
  | .fault _ => none
  | .refused _ => none

/-- Where a taken transfer leaves `pc`, fetch and D. -/
def transferOf (o : Host.Outcome State Fault Refusal) : Option (Word × Bool × Bool × Bool) :=
  match o with
  | .next t => some (t.pc, t.armed, t.d.isNone, t.redirect)
  | .fault _ => none
  | .refused _ => none

/-- The value of a register, the retired count and `halted`. -/
def commitOf (r : RegIdx) (o : Host.Outcome State Fault Refusal) : Option (Word × BitVec 64 × Bool × Count) :=
  match o with
  | .next t => some (t.reg r, t.retiredCount, t.halted, t.count r)
  | .fault _ => none
  | .refused _ => none

/-- The fault state. -/
def faultOf (o : Host.Outcome State Fault Refusal) : Option (Bool × BitVec 3 × BitVec 64) :=
  match o with
  | .next t => some (t.fault, t.faultCause, t.faultInfo)
  | .fault _ => none
  | .refused _ => none

/-- What memory leaves in W, and the data memory. -/
def memoryOf (o : Host.Outcome State Fault Refusal) : Option (Word × Bool × List Cell) :=
  match o with
  | .next t => t.w.map fun l => (l.result, l.rel, t.mem)
  | .fault _ => none
  | .refused _ => none

/-- The instruction an outcome's D latch holds, `pc` and `F.armed`. -/
def fetchOf (o : Host.Outcome State Fault Refusal) : Option (Option Instr × Word × Bool) :=
  match o with
  | .next t => some (t.d.map fun l => l.instr, t.pc, t.armed)
  | .fault _ => none
  | .refused _ => none

/-- Z = 1. -/
def zero : Flags := ⟨true, false, false⟩
/-- P = 1. -/
def positive : Flags := ⟨false, true, false⟩
/-- N = 1. -/
def negative : Flags := ⟨false, false, true⟩

/-! ## WellFormed: a term each check accepts at its boundary, and one it refuses (R106, R109) -/

theorem test_wf_accepts : ([.add 15 15 15, .addl 15 15 0, .movc 15 0, .cmp 15 15, .cml 15 0, .load 15 15 0,
    .loadp 15 15 0, .store 15 15 0, .storep 15 15 0, .jump 15 0, .jalr 15 15 0, .bz 0, .nop, .halt] :
    List Instr).all (Instr.wf 16) = true := by decide

theorem test_wf_refuses_rd : ([.add 16 0 0, .sub 16 0 0, .mul 16 0 0, .and 16 0 0, .or 16 0 0, .xor 16 0 0,
    .addl 16 0 0, .subl 16 0 0, .movc 16 0, .load 16 0 0, .loadp 16 0 0, .jalr 16 0 0] :
    List Instr).all (fun i => !i.wf 16) = true := by decide

theorem test_wf_refuses_rs1 : ([.add 0 16 0, .sub 0 16 0, .mul 0 16 0, .and 0 16 0, .or 0 16 0, .xor 0 16 0,
    .addl 0 16 0, .subl 0 16 0, .cmp 16 0, .cml 16 0, .load 0 16 0, .loadp 0 16 0, .store 16 0 0, .storep 16 0 0,
    .jump 16 0, .jalr 0 16 0] : List Instr).all (fun i => !i.wf 16) = true := by decide

theorem test_wf_refuses_rs2 : ([.add 0 0 16, .sub 0 0 16, .mul 0 0 16, .and 0 0 16, .or 0 0 16, .xor 0 0 16,
    .cmp 0 16, .store 0 16 0, .storep 0 16 0] : List Instr).all (fun i => !i.wf 16) = true := by decide

/-! ## Decoding: one word per constructor, written out bit by bit from R101 and R102 (opc, rd, rs1, rs2, rsv, imm) -/

theorem test_decode_add :
    decode 16 0b00000_00010_00000_00001_000000000000_00000000000000000000000000000000 = .ok (.add 2 0 1) := by decide
theorem test_decode_sub :
    decode 16 0b00001_00100_00011_00010_000000000000_00000000000000000000000000000000 = .ok (.sub 4 3 2) := by decide
theorem test_decode_mul :
    decode 16 0b00010_00011_00001_00010_000000000000_00000000000000000000000000000000 = .ok (.mul 3 1 2) := by decide
theorem test_decode_and :
    decode 16 0b00011_01111_01000_00100_000000000000_00000000000000000000000000000000 = .ok (.and 15 8 4) := by decide
theorem test_decode_or :
    decode 16 0b00100_00001_00010_01111_000000000000_00000000000000000000000000000000 = .ok (.or 1 2 15) := by decide
theorem test_decode_xor :
    decode 16 0b00101_00110_00100_00100_000000000000_00000000000000000000000000000000 = .ok (.xor 6 4 4) := by decide
theorem test_decode_addl :
    decode 16 0b00110_00001_00101_00000_000000000000_00000000000000000000000000000000 = .ok (.addl 1 5 0) := by decide
theorem test_decode_subl :
    decode 16 0b00111_00010_00010_00000_000000000000_00000000000000000000000000000001 = .ok (.subl 2 2 1) := by decide
theorem test_decode_movc :
    decode 16 0b01000_00101_00000_00000_000000000000_11111111111111111111111111111111 = .ok (.movc 5 (-1)) := by decide
theorem test_decode_cmp :
    decode 16 0b01001_00000_00001_00010_000000000000_00000000000000000000000000000000 = .ok (.cmp 1 2) := by decide
theorem test_decode_cml :
    decode 16 0b01010_00000_00100_00000_000000000000_11111111111111111111111111101100 = .ok (.cml 4 (-20)) := by decide
theorem test_decode_load :
    decode 16 0b01011_00011_00001_00000_000000000000_00000000000000000000000000000000 = .ok (.load 3 1 0) := by decide
theorem test_decode_loadp :
    decode 16 0b01100_00100_00001_00000_000000000000_00000000000000000000000000000000 = .ok (.loadp 4 1 0) := by decide
theorem test_decode_store :
    decode 16 0b01101_00000_00010_00001_000000000000_00000000000000000000000000000000 = .ok (.store 2 1 0) := by decide
theorem test_decode_storep :
    decode 16 0b01110_00000_00001_00101_000000000000_00000000000000000000000000000000 = .ok (.storep 1 5 0) := by decide
theorem test_decode_jump :
    decode 16 0b01111_00000_00111_00000_000000000000_00000000000000000000000000000000 = .ok (.jump 7 0) := by decide
theorem test_decode_jalr :
    decode 16 0b10000_00111_00110_00000_000000000000_00000000000000000000000000000000 = .ok (.jalr 7 6 0) := by decide
theorem test_decode_bz :
    decode 16 0b10001_00000_00000_00000_000000000000_00000000000000000000000000001000 = .ok (.bz 8) := by decide
theorem test_decode_bnz :
    decode 16 0b10010_00000_00000_00000_000000000000_11111111111111111111111111110100 = .ok (.bnz (-12)) := by decide
theorem test_decode_bp :
    decode 16 0b10011_00000_00000_00000_000000000000_00000000000000000000000000001000 = .ok (.bp 8) := by decide
theorem test_decode_bnp :
    decode 16 0b10100_00000_00000_00000_000000000000_00000000000000000000000000001100 = .ok (.bnp 12) := by decide
theorem test_decode_bn :
    decode 16 0b10101_00000_00000_00000_000000000000_00000000000000000000000000001000 = .ok (.bn 8) := by decide
theorem test_decode_bnn :
    decode 16 0b10110_00000_00000_00000_000000000000_00000000000000000000000000001000 = .ok (.bnn 8) := by decide
theorem test_decode_nop :
    decode 16 0b10111_00000_00000_00000_000000000000_00000000000000000000000000000000 = .ok .nop := by decide
theorem test_decode_halt :
    decode 16 0b11000_00000_00000_00000_000000000000_00000000000000000000000000000000 = .ok .halt := by decide

/-- E1, E2, E3: refused by name. -/
theorem test_decode_rejects : decode 16 0xC800000000000000 = .error .opcode ∧
    decode 16 0x0400000000000000 = .error .registerField ∧ decode 16 0xB800000100000000 = .error .reservedBits ∧
    decode 16 0xF800000000000000 = .error .opcode := by decide

/-- E4: an unused field is ignored. -/
theorem test_decode_ignores_unused : decode 16 0x403E000000000005 = .ok (.movc 0 5) := by decide

/-- The encoder writes the words of P1 to P4. -/
theorem test_encode : [encode (.store 2 1 0), encode (.loadp 4 1 0), encode (.jalr 7 6 0), encode (.bnz (-12)),
    encode (.xor 6 4 4), encode (.cml 4 (-20))] = [0x6804100000000000, 0x6102000000000000, 0x81CC000000000000,
    0x90000000FFFFFFF4, 0x2988400000000000, 0x50080000FFFFFFEC] := by decide

theorem test_decodeTableWord : decodeTableWord 64 0x0800000000000000 = some (.sub 0 0 0) ∧
    decodeTableWord 64 0xC800000000000000 = none := by decide

/-- The lines of the spec's programs. -/
theorem test_assembly : [(Instr.add 2 0 1).assembly, (Instr.movc 2 (-5)).assembly, (Instr.store 1 15 (-4)).assembly,
    (Instr.bnz (-12)).assembly, Instr.halt.assembly] = ["ADD R2,R0,R1", "MOVC R2,#-5", "STORE R1,R15,#-4", "BNZ #-12",
    "HALT"] := by decide

/-! ## Reset and the interface -/

theorem test_reset_memory : Memory.wf State.reset.mem := by decide

/-- R2: an empty store has no step. -/
theorem test_reset_refused : step State.reset = .refused .emptyStore := by rfl

/-- A word placed where the next step fetches is fetched by it. -/
theorem test_withFetchWord : fetchOf (step (State.reset.withFetchWord 64 0x404000000000000A)) =
    some (some (.movc 1 10), 4004, true) := by decide

theorem test_withFetchWord_fetch_only : step (State.reset.withFetchWord 64 0x404000000000000A) =
    closeCycle (exec (.movc 1 10) ((beginCycle (State.reset.withFetchWord 64 0x404000000000000A)).at .fetch)) := by
  rfl

/-- E1: fetching opcode 25 raises IllegalInstruction in the first cycle. -/
theorem test_illegal_fetch : faultOf (step (start true [0xC800000000000000] [])) =
    some (true, 2, 0x00000FA0C8000000) := by decide

/-- C4: a fetch below CODE_BASE. -/
theorem test_fetch_out_of_range : faultOf (step { start true [0] [] with pc := 3992 }) =
    some (true, 1, 0x0000000000000F98) := by decide

/-- A later preload entry for a cell wins, one that names no cell is ignored, and 0 is not listed. -/
theorem test_preload : preloadImage 4096 [(9, 1), (3, 7), (9, 2), (4096, 5), (3, 0)] = [(9, 2)] := by decide

/-! ## Each instruction -/

/-- A1. -/
theorem test_add : executeOf (exec (.add 4 1 3) (executing (.add 4 1 3) 4000 0x7FFFFFFF 1)) =
    some (0x80000000, 0, 0, negative) := by decide
/-- A3. -/
theorem test_sub : executeOf (exec (.sub 3 1 2) (executing (.sub 3 1 2) 4000 0x80000000 1)) =
    some (0x7FFFFFFF, 0, 0, positive) := by decide
/-- A7. -/
theorem test_mul : executeOf (exec (.mul 2 1 1) (executing (.mul 2 1 1) 4000 46341 46341)) =
    some (-2147479015, 0, 0, negative) := by decide
/-- A8. -/
theorem test_and : executeOf (exec (.and 3 1 2) (executing (.and 3 1 2) 4000 (-1) 5)) =
    some (5, 0, 0, positive) := by decide
/-- A9. -/
theorem test_or : executeOf (exec (.or 3 1 2) (executing (.or 3 1 2) 4000 0x80000000 1)) =
    some (0x80000001, 0, 0, negative) := by decide
/-- A10. -/
theorem test_xor : executeOf (exec (.xor 1 1 1) (executing (.xor 1 1 1) 4000 77 77)) =
    some (0, 0, 0, zero) := by decide
/-- A11. -/
theorem test_addl : executeOf (exec (.addl 2 1 0x80000000) (executing (.addl 2 1 0x80000000) 4000 5 0)) =
    some (-2147483643, 0, 0, negative) := by decide
/-- A12. -/
theorem test_subl : executeOf (exec (.subl 2 0 0x80000000) (executing (.subl 2 0 0x80000000) 4000 0 0)) =
    some (0x80000000, 0, 0, negative) := by decide
/-- A13: MOVC leaves the flags. -/
theorem test_movc : executeOf (exec (.movc 2 (-1)) { executing (.movc 2 (-1)) 4000 0 0 with flags := positive }) =
    some (-1, 0, 0, positive) := by decide
/-- A14, A15. -/
theorem test_cmp : executeOf (exec (.cmp 1 2) (executing (.cmp 1 2) 4000 0x7FFFFFFF (-1))) =
      some (0, 0, 0, positive) ∧
    executeOf (exec (.cmp 1 2) (executing (.cmp 1 2) 4000 0x80000000 1)) = some (0, 0, 0, negative) := by decide
/-- A16, A18. -/
theorem test_cml : executeOf (exec (.cml 0 0x80000000) (executing (.cml 0 0x80000000) 4000 0 0)) =
      some (0, 0, 0, positive) ∧
    executeOf (exec (.cml 1 (-4)) (executing (.cml 1 (-4)) 4000 (-4) 0)) = some (0, 0, 0, zero) := by decide
/-- S1. -/
theorem test_load_address : executeOf (exec (.load 2 1 4) (executing (.load 2 1 4) 4000 100 0)) =
    some (0, 104, 0, zero) := by decide
/-- S1 in memory, with the early release; S10. -/
theorem test_load_access : memoryOf (exec (.load 2 1 4) (accessing (.load 2 1 4) 104 100)) =
      some (42, true, [(104, 42)]) ∧
    faultOf (exec (.load 1 0 4096) (accessing (.load 1 0 4096) 4096 0)) = some (true, 3, 0x0000100000000FA0) := by
  decide
/-- S3: the increment is that of the base. -/
theorem test_loadp_address : executeOf (exec (.loadp 2 1 (-4)) (executing (.loadp 2 1 (-4)) 4000 100 0)) =
    some (0, 96, 104, zero) := by decide
/-- S4: with rd = rs1 the increment wins, and both reservations go. -/
theorem test_loadp_same_register : commitOf 1 (exec (.loadp 1 1 0) (committing (.loadp 1 1 0) 7 104)) =
    some (104, 1, false, 0) := by decide
/-- S5: rs2 is the base. -/
theorem test_store_address : executeOf (exec (.store 1 2 (-4)) (executing (.store 1 2 (-4)) 4000 9 200)) =
    some (0, 196, 0, zero) := by decide
/-- S5 in memory; S11. -/
theorem test_store_access : memoryOf (exec (.store 1 2 (-4)) (accessing (.store 1 2 (-4)) 196 9)) =
      some (0, false, [(104, 42), (196, 9)]) ∧
    faultOf (exec (.store 0 0 (-1)) (accessing (.store 0 0 (-1)) (-1) 0)) = some (true, 3, 0xFFFFFFFF00000FA0) := by
  decide
/-- S7: the value stored is the base before the increment. -/
theorem test_storep : memoryOf (exec (.storep 2 2 0) (accessing (.storep 2 2 0) 300 300)) =
    some (0, false, [(104, 42), (300, 300)]) := by decide
/-- S6: the base is incremented at writeback. -/
theorem test_storep_commit : commitOf 2 (exec (.storep 1 2 0) (committing (.storep 1 2 0) 0 304)) =
    some (304, 1, false, 0) := by decide
/-- C9. -/
theorem test_jump : transferOf (exec (.jump 3 8) { executing (.jump 3 8) 4020 4000 0 with armed := false }) =
    some (4008, true, true, true) := by decide
/-- C10. -/
theorem test_jalr : transferOf (exec (.jalr 5 4 0) (executing (.jalr 5 4 0) 4012 4100 0)) =
      some (4100, true, true, true) ∧
    executeOf (exec (.jalr 5 4 0) (executing (.jalr 5 4 0) 4012 4100 0)) = some (4016, 0, 0, zero) := by decide

/-- Whether a branch `#8` at 4004 is taken, by the flags. -/
def branches (i : Instr) : List Bool :=
  [zero, positive, negative].map fun f =>
    transferOf (exec i { executing i 4004 0 0 with flags := f }) == some (4012, true, true, true)

/-- The table of section 4.1. -/
theorem test_bz : branches (.bz 8) = [true, false, false] := by decide
theorem test_bnz : branches (.bnz 8) = [false, true, true] := by decide
theorem test_bp : branches (.bp 8) = [false, true, false] := by decide
theorem test_bnp : branches (.bnp 8) = [true, false, true] := by decide
theorem test_bn : branches (.bn 8) = [false, false, true] := by decide
theorem test_bnn : branches (.bnn 8) = [true, true, false] := by decide

/-- N1: NOP is retired. -/
theorem test_nop : commitOf 0 (exec .nop (committing .nop 7 9)) = some (0, 1, false, 0) := by decide
/-- N2: HALT ends the run when it commits. -/
theorem test_halt : commitOf 0 (exec .halt (committing .halt 7 9)) = some (0, 1, true, 0) := by decide
/-- HALT disarms fetch when it is fetched. -/
theorem test_halt_fetch : fetchOf (step (start true [0xC000000000000000] [])) =
    some (some .halt, 4004, false) := by decide

/-! ## The pipeline, one step -/

/-- V-X1, cycle 5: ADD in E takes its result, MOVC R0 commits, HALT issues, fetch does nothing. -/
theorem test_busy_step : commitOf 0 (step busy) = some (5, 1, false, 0) ∧
    executeOf (step busy) = some (15, 0, 0, positive) ∧ fetchOf (step busy) = some (none, 4016, false) := by decide

/-- The load-use stall: decode holds its instruction. -/
theorem test_stall : fetchOf (exec (.add 3 2 1) (decodingBehindLoad (.add 3 2 1) 2)) =
    some (some (.add 3 2 1), 4000, true) ∧ operand (decodingBehindLoad (.add 3 2 1) 2) 2 = none := by decide

/-! ## Witnesses: states and operands that meet the hypotheses of each statement, clause by clause -/

theorem busy_live : busy.Live := ⟨by decide, rfl, rfl⟩

theorem start_live : (start true [0xC000000000000000] []).Live := ⟨by decide, rfl, rfl⟩

/-- A state that halted, and one that faulted. -/
def halted : State := { start true [0xC000000000000000] [] with halted := true, armed := false }
def faulted : State := { start true [0xC000000000000000] [] with fault := true, faultCause := 2 }

/-- HALT about to commit. -/
def ending : State :=
  { start true [0xC000000000000000] [] with
    pc := 4004, armed := false, cycleCount := 4, w := some (fetchedLatch .halt 4000) }

theorem busy_scoreboard : busy.ScoreboardInv := by
  intro _
  refine ⟨by decide, ?_, ?_, ?_⟩ <;> intro l hl <;> cases hl
  · exact ⟨rfl, rfl⟩
  · exact ⟨rfl, rfl⟩
  · exact ⟨rfl, fun h => by cases h⟩

theorem jumping_scoreboard : jumping.ScoreboardInv := by
  intro _
  refine ⟨by decide, ?_, ?_, ?_⟩ <;> intro l hl <;> cases hl
  · exact ⟨rfl, rfl⟩
  · exact ⟨rfl, rfl⟩
  · exact ⟨rfl, fun h => by cases h⟩

theorem busy_pc : busy.PcInv := by intro _ l hl; cases hl; rfl

theorem busy_fetched : busy.FetchedInv := by
  intro _
  refine ⟨?_, ?_, ?_, ?_⟩ <;> intro l hl <;> cases hl <;>
    exact ⟨by decide, by decide, _, rfl, by decide⟩

theorem witness_DecodeReadsBackEncode : Instr.wf 32 (.add 31 0 16) = true ∧ Instr.wf 1 (.storep 0 0 7) = true := by
  decide

theorem witness_DecodedInstructionHasTheWordsFields : decode 16 0x403E000000000005 = .ok (.movc 0 5) := by decide

theorem witness_IllegalWordsAreExactlyThoseOfTheRule :
    (start true [0xC800000000000000] []).codeAt 4000 = some 0xC800000000000000 ∧
    decode 16 0xC800000000000000 = .error .opcode := by decide

theorem witness_UnusedFieldsAreIgnored :
    (fieldOpc 0x403E000000000005 = fieldOpc 0x4000000000000005 ∧
      fieldRsv 0x403E000000000005 = fieldRsv 0x4000000000000005 ∧
      fieldRd 0x403E000000000005 = fieldRd 0x4000000000000005 ∧ usesRs1 (fieldOpc 0x403E000000000005) = false ∧
      usesRs2 (fieldOpc 0x403E000000000005) = false ∧ fieldImm 0x403E000000000005 = fieldImm 0x4000000000000005) ∧
    (start true [0x403E000000000005] []).codeAt 4000 = some 0x403E000000000005 ∧
    (start true [0x4000000000000005] []).codeAt 4000 = some 0x4000000000000005 ∧
    decode 16 0x403E000000000005 = .ok (.movc 0 5) ∧ decode 16 0x4000000000000005 = .ok (.movc 0 5) := by decide

theorem witness_ConstructionGivesTheResetState : ([0] : List InstrWord) ≠ [] := by decide

theorem witness_HaltedOrFaultedEngineIsStuck :
    (halted.code ≠ [] ∧ halted.halted = true) ∧ faulted.code ≠ [] ∧ faulted.fault = true := by decide

theorem witness_CycleCountCountsEveryLiveStep :
    busy.Live ∧ ¬ halted.Live ∧ step halted = .next halted :=
  ⟨busy_live, fun h => absurd h.2.1 (by decide), rfl⟩

theorem witness_RetiredCountCountsCommits : busy.Live ∧ busy.ScoreboardInv ∧ ∃ t, step busy = .next t :=
  ⟨busy_live, busy_scoreboard, _, rfl⟩

theorem witness_HaltedIsSetExactlyWhenHaltCommits :
    (busy.Live ∧ busy.ScoreboardInv ∧ ∃ t, step busy = .next t) ∧ halted.halted = true ∧ step halted = .next halted :=
  ⟨⟨busy_live, busy_scoreboard, _, rfl⟩, rfl, rfl⟩

/-- A run stopped by its budget with the engine running, and one that HALT ends first. -/
theorem witness_RunStopsAtTheBoundOrTheEnd :
    (busy.code ≠ [] ∧ 5 < 2 ^ 64 ∧ busy.cycleCount.toNat ≤ 5 ∧
      ∃ t r, runFor (.cycles 5) 1 busy = .next (.returned t r) ∧ t.running = true ∧ r.status = .budgetExhausted) ∧
    ∃ t r, runFor (.cycles 50) 1 ending = .next (.returned t r) ∧ r.status = .halted :=
  ⟨⟨by decide, by decide, by decide, _, _, rfl, by decide, by decide⟩, _, _, rfl, by decide⟩

theorem witness_ParametersAndStoreAreImmutable : ∃ t, step busy = .next t := ⟨_, rfl⟩

theorem witness_StepRunsTheFetchedInstruction :
    let s := start true [0xC000000000000000] []
    s.Live ∧ s.armed = true ∧ s.d = none ∧ s.e = none ∧ s.m = none ∧ s.w = none ∧
      s.codeAt s.pc = some 0xC000000000000000 ∧ decode s.cfg.nregs 0xC000000000000000 = .ok .halt :=
  ⟨start_live, rfl, rfl, rfl, rfl, rfl, by decide, by decide⟩

/-- Both clauses: without a redirect, and with one. -/
theorem witness_StepRunsTheInstructionOfEveryLatch :
    (busy.Live ∧ ∃ s1 s2 s3 s4, exec (.movc 0 5) ((beginCycle busy).at .writeback) = .next s1 ∧ s1.fault = false ∧
      exec (.movc 1 10) (s1.at .memory) = .next s2 ∧ s2.fault = false ∧
      exec (.add 2 0 1) (s2.at .execute) = .next s3 ∧ s3.redirect = false ∧
      exec .halt (s3.at .decode) = .next s4 ∧ s4.fault = false) ∧
    ∃ s1 s2 s3, exec (.movc 0 5) ((beginCycle jumping).at .writeback) = .next s1 ∧ s1.fault = false ∧
      exec (.movc 1 10) (s1.at .memory) = .next s2 ∧ s2.fault = false ∧
      exec (.jump 3 8) (s2.at .execute) = .next s3 ∧ s3.redirect = true :=
  ⟨⟨busy_live, _, _, _, _, rfl, rfl, rfl, rfl, rfl, rfl, rfl, rfl⟩, _, _, _, rfl, rfl, rfl, rfl, rfl, rfl⟩

/-! The statements about each instruction have the hypotheses of their units -/

/-- What FetchDelivers, DecodeIssues (issue, and stall behind a load of a source), the execute clause, MemoryPasses and
WritebackCommits ask of a state, for the sources and reservations of an instruction's rule. -/
def UnitHypotheses (i : Instr) : Prop :=
  ({ base with stage := .fetch } : State).stage = .fetch ∧
  ((decoding i).stage = .decode ∧ (decoding i).d = some (fetchedLatch i 4000) ∧
    (∀ r, operand (decoding i) r = some 0) ∧ CanReserve i.dsts (decoding i)) ∧
  (∀ r, operand (decodingBehindLoad i r) r = none) ∧
  ((executing i 4000 0 0).stage = .execute ∧ (executing i 4000 0 0).e = some (issued i 4000 0 0)) ∧
  ((accessing i 104 0).stage = .memory ∧ ∃ l, (accessing i 104 0).m = some l) ∧
  ((committing i 7 9).stage = .writeback ∧
    ∃ l, (committing i 7 9).w = some l ∧ l.res = i.dsts ∧ l.rel = false ∧ CanRelease i.dsts (committing i 7 9))

theorem base_count : ∀ r, countAt base.sb r = 0 := by decide

theorem base_canReserve (i : Instr) (r : RegIdx) :
    (countAt base.sb r).toNat + (i.dsts.countP fun p => p.reg = r) ≤ 7 := by
  have h : (i.dsts.countP fun p => p.reg = r) ≤ 2 :=
    le_trans List.countP_le_length (by cases i <;> simp [Instr.dsts])
  rw [base_count]
  simpa using le_trans h (by decide)

/-- Every instruction has states that meet them. -/
theorem unitHypotheses (i : Instr) : UnitHypotheses i := by
  refine ⟨rfl, ⟨rfl, rfl, ?_, base_canReserve i⟩, ?_, ⟨rfl, rfl⟩, ⟨rfl, _, rfl⟩, rfl, _, rfl, rfl, rfl, ?_⟩
  · show ∀ r, operand (decoding .nop) r = some 0
    decide
  · show ∀ r, operand (decodingBehindLoad .nop r) r = none
    decide
  · intro r
    have h := countAt_reserveAll (reserveAll_eq (base_canReserve i)) r
    show _ ≤ (countAt (reserved i.dsts base.sb) r).toNat
    rw [h, base_count]
    simp

theorem witness_RegisterRegisterInstructions : UnitHypotheses (.add 4 1 3) := unitHypotheses _

theorem witness_RegisterImmediateInstructions : UnitHypotheses (.addl 2 1 5) := unitHypotheses _

theorem witness_ArithmeticFlagRule : (Instr.subl 2 1 5).opcode.toNat ≤ 7 ∧
    (executing (.subl 2 1 5) 4000 0 0).stage = .execute ∧
    (executing (.subl 2 1 5) 4000 0 0).e = some (issued (.subl 2 1 5) 4000 0 0) := by decide

theorem witness_MoveConstant : UnitHypotheses (.movc 2 5) := unitHypotheses _

theorem witness_CompareInstructions : UnitHypotheses (.cmp 1 2) ∧ UnitHypotheses (.cml 1 2) :=
  ⟨unitHypotheses _, unitHypotheses _⟩

/-- The access clauses too: the highest cell, the first address past the end, the highest negative one. -/
theorem witness_LoadInstructions : UnitHypotheses (.load 2 1 4) ∧ UnitHypotheses (.loadp 1 1 4) ∧
    (0 ≤ sval 4095 ∧ sval 4095 < base.cfg.dmemSize) ∧
    (∀ r, ([⟨1, .mem⟩, ⟨1, .inc⟩] : List Reservation).countP (fun p => p.reg = r) ≤
      ((accessing (.loadp 1 1 4) 4095 0).count r).toNat) ∧
    ¬ (0 ≤ sval 4096 ∧ sval 4096 < base.cfg.dmemSize) ∧ ¬ (0 ≤ sval (-1) ∧ sval (-1) < base.cfg.dmemSize) :=
  ⟨unitHypotheses _, unitHypotheses _, by decide, by decide, by decide, by decide⟩

theorem witness_StoreInstructions : UnitHypotheses (.store 1 2 4) ∧ UnitHypotheses (.storep 2 2 4) ∧
    (0 ≤ sval 0 ∧ sval 0 < base.cfg.dmemSize) ∧ (0 ≤ sval 4095 ∧ sval 4095 < base.cfg.dmemSize) ∧
    ¬ (0 ≤ sval 4096 ∧ sval 4096 < base.cfg.dmemSize) :=
  ⟨unitHypotheses _, unitHypotheses _, by decide, by decide, by decide⟩

theorem witness_JumpInstructions : UnitHypotheses (.jump 1 4) ∧ UnitHypotheses (.jalr 1 1 4) :=
  ⟨unitHypotheses _, unitHypotheses _⟩

/-- Taken with Z = 1, not taken with Z = 0. -/
theorem witness_ConditionalBranches : UnitHypotheses (.bz 8) ∧ zero.z = true ∧ positive.z = false :=
  ⟨unitHypotheses _, rfl, rfl⟩

theorem witness_NopDoesNothingButRetire : UnitHypotheses .nop := unitHypotheses _

theorem witness_HaltDisarmsAndHalts : UnitHypotheses .halt := unitHypotheses _

/-! Faults -/

/-- S10's state in cycle 4, at the boundaries of the bad addresses. -/
def badAddress (ea : Word) : State :=
  { start true [0xC000000000000000] [] with
    m := some { issued (.load 1 0 4096) 4000 0 0 with ea }, sb := reserved [⟨1, .mem⟩] base.sb }

theorem witness_BadDataAddressFaults :
    (badAddress 4096).Live ∧ (badAddress 4096).ScoreboardInv ∧ ((badAddress 4096).cfg.dmemSize : Int) ≤ sval 4096 ∧
      sval (-1) < 0 ∧ (Instr.load 1 0 4096).isLoad = true := by
  refine ⟨⟨by decide, rfl, rfl⟩, ?_, by decide, by decide, rfl⟩
  intro _
  refine ⟨by decide, ?_, ?_, ?_⟩ <;> intro l hl <;> cases hl
  exact ⟨rfl, rfl⟩

/-- Below the store, off a word boundary, and just past the last word. -/
theorem witness_FetchOutOfRangeFaults :
    let s := start true [0xC000000000000000] []
    (s.redirect = false ∧ s.stalled = false ∧ s.armed = true) ∧ uval 3996 < uval s.cfg.codeBase ∧
      (uval 4002 - uval s.cfg.codeBase) % 4 ≠ 0 ∧ s.code.length ≤ (uval 4004 - uval s.cfg.codeBase) / 4 := by decide

/-- One state for each case. -/
theorem witness_FetchUnitHasFourCases :
    let s := start true [0xC000000000000000] []
    ({ s with redirect := true } : State).redirect = true ∧
      (s.redirect = false ∧ ({ s with stalled := true } : State).stalled = true) ∧
      (s.stalled = false ∧ ({ s with armed := false } : State).armed = false) ∧
      (s.armed = true ∧ s.codeAt s.pc = some 0xC000000000000000 ∧
        decode s.cfg.nregs 0xC000000000000000 = .ok .halt) := by decide

/-! Frames -/

/-- One for each unit the statement tells apart. -/
theorem witness_UnitsChangeOnlyTheirOwnState :
    (∃ t, exec (.add 4 1 3) (executing (.add 4 1 3) 4000 0 0) = .next t ∧ t.fault = false ∧ t.redirect = false) ∧
    (∃ t, exec (.store 1 2 0) (accessing (.store 1 2 0) 0 0) = .next t ∧ t.fault = false) ∧
    (∃ t, exec .halt (committing .halt 0 0) = .next t ∧ t.fault = false) ∧
    (∃ t, exec (.add 4 1 3) (decoding (.add 4 1 3)) = .next t ∧ t.fault = false) ∧
    ∃ t, exec .nop { base with stage := .fetch } = .next t ∧ t.fault = false :=
  ⟨⟨_, rfl, rfl, rfl⟩, ⟨_, rfl, rfl⟩, ⟨_, rfl, rfl⟩, ⟨_, rfl, rfl⟩, _, rfl, rfl⟩

/-- LOADP with rd = rs1 in W: the last reservation of R1 is its post-increment. -/
theorem witness_OnlyTheCommittingInstructionWritesRegisters :
    busy.Live ∧ busy.ScoreboardInv ∧ (∃ t, step busy = .next t) ∧
    (∃ l, busy.w = some l ∧ l.res = [] ++ ⟨0, .alu⟩ :: []) ∧ (start true [0xC000000000000000] []).w = none ∧
    (Instr.loadp 1 1 0).dsts = [⟨1, .mem⟩] ++ ⟨1, .inc⟩ :: [] :=
  ⟨busy_live, busy_scoreboard, ⟨_, rfl⟩, ⟨_, rfl, rfl⟩, rfl, rfl⟩

theorem witness_OnlyTenInstructionsWriteFlags :
    jumping.Live ∧ (∃ t, step jumping = .next t) ∧ ∀ l ∈ jumping.e, l.instr.writesFlags = false := by
  refine ⟨⟨by decide, rfl, rfl⟩, ⟨_, rfl⟩, ?_⟩
  intro l hl; cases hl; rfl

/-- A store in M, at the lowest cell and at the highest. -/
def storing (ea : Word) : State :=
  { start true [0xC000000000000000] [] with m := some { issued (.store 1 2 0) 4000 9 0 with ea } }

theorem storing_scoreboard (ea : Word) : (storing ea).ScoreboardInv := by
  intro _
  refine ⟨?_, ?_, ?_, ?_⟩
  · show ∀ r, ((storing 0).count r).toNat =
      resCount r (storing 0).e + resCount r (storing 0).m + heldCount r (storing 0).w
    decide
  all_goals intro l hl; cases hl
  exact ⟨rfl, rfl⟩

theorem witness_OnlyAStoreInMemoryWritesItsCell :
    (storing 0).Live ∧ (storing 0).MemoryInv ∧ (storing 0).ScoreboardInv ∧ (storing 4095).ScoreboardInv ∧
    (∃ t, step (storing 4095) = .next t) ∧ 0 ≤ sval 4095 ∧ sval 4095 < (storing 4095).cfg.dmemSize :=
  ⟨⟨by decide, rfl, rfl⟩, ⟨by decide, by decide⟩, storing_scoreboard 0, storing_scoreboard 4095, ⟨_, rfl⟩, by decide,
    by decide⟩

theorem witness_PcChangesOnlyByFetchOrRedirect :
    busy.Live ∧ (∃ t, step busy = .next t ∧ t.fault = false) ∧ ∃ t, step jumping = .next t ∧ t.fault = false :=
  ⟨busy_live, ⟨_, rfl, rfl⟩, _, rfl, rfl⟩

/-! Hazards -/

/-- `busy` at the moment decode evaluates: ADD has executed, MOVC R1 has passed memory. -/
def atDecode (forwarding : Bool) : State :=
  { start forwarding [0xC000000000000000] [] with
    stage := .decode
    d := some (fetchedLatch (.add 3 2 2) 4012)
    m := some { issued (.add 2 0 1) 4008 5 10 with result := 15 }
    w := some { issued (.movc 1 10) 4004 0 0 with result := 10 }
    sb := reserved [⟨1, .alu⟩, ⟨2, .alu⟩] base.sb }

theorem atDecode_scoreboard (f : Bool) : (atDecode f).ScoreboardAtDecode := by
  refine ⟨?_, ?_, ?_⟩
  · cases f <;> decide
  · intro l hl; cases hl; exact ⟨rfl, rfl⟩
  · intro l hl; cases hl; exact ⟨rfl, fun h => by cases h⟩

theorem witness_OperandIsTheProgramOrderValue : (atDecode true).ScoreboardAtDecode ∧
    operand (atDecode true) 2 = some 15 ∧ operand (atDecode true) 1 = some 10 ∧ operand (atDecode false) 5 = some 0 :=
  ⟨atDecode_scoreboard true, by decide, by decide, by decide⟩

/-- Each path and priority clause: (a) ready, (a) not ready, (b) ready, neither, and without FORWARDING. -/
theorem witness_ForwardingPathsAndPriority :
    (atDecode true).cfg.forwarding = true ∧ offer .xa (atDecode true).m 2 = .ready 15 ∧
    offer .xa (decodingBehindLoad .nop 2).m 2 = .notReady ∧
    (offer .xa (atDecode true).m 1 = .nothing ∧ offer .xb (atDecode true).w 1 = .ready 10) ∧
    (offer .xa (atDecode true).m 5 = .nothing ∧ offer .xb (atDecode true).w 5 = .nothing) ∧
    (atDecode false).cfg.forwarding = false ∧
    (Instr.loadp 1 1 0).dsts = [⟨1, .mem⟩] ++ ⟨1, .inc⟩ :: [] := by decide

theorem witness_ForwardingStallsOnlyOnLoadUse :
    (decodingBehindLoad .nop 2).cfg.forwarding = true ∧ (decodingBehindLoad .nop 2).ScoreboardAtDecode ∧
    operand (decodingBehindLoad .nop 2) 2 = none := by
  refine ⟨rfl, ⟨by decide, ?_, ?_⟩, by decide⟩
  · intro l hl; cases hl; exact ⟨rfl, rfl⟩
  · intro l hl; cases hl

theorem witness_WithoutForwardingBusySourcesStall :
    (atDecode false).cfg.forwarding = false ∧ (atDecode false).ScoreboardAtDecode ∧
    operand (atDecode false) 2 = none ∧ (atDecode false).d = some (fetchedLatch (.add 3 2 2) 4012) ∧
    (atDecode false).fault = false ∧ ∃ t, exec (.add 3 2 2) (atDecode false) = .next t ∧ t.fault = false :=
  ⟨rfl, atDecode_scoreboard false, by decide, rfl, rfl, _, rfl, rfl⟩

theorem witness_TakenTransferRedirectsAndFlushes :
    jumping.Live ∧ jumping.e = some (issued (.jump 3 8) 4008 4000 0) ∧
    (Instr.jump 3 8).takes jumping.flags = true ∧ ∃ t, step jumping = .next t ∧ t.fault = false :=
  ⟨⟨by decide, rfl, rfl⟩, rfl, rfl, _, rfl, rfl⟩

/-- Issued, and flushed. -/
theorem witness_InstructionInDecodeIsNeverDropped :
    busy.Live ∧ busy.d = some (fetchedLatch .halt 4012) ∧ jumping.d = some (fetchedLatch .halt 4012) ∧
    (∃ t, step busy = .next t ∧ t.fault = false) ∧ ∃ t, step jumping = .next t ∧ t.fault = false :=
  ⟨busy_live, rfl, rfl, ⟨_, rfl, rfl⟩, _, rfl, rfl⟩

theorem witness_InstructionsMoveInProgramOrder : busy.Live ∧ ∃ t, step busy = .next t ∧ t.fault = false :=
  ⟨busy_live, _, rfl, rfl⟩

/-! Invariants -/

theorem witness_ScoreboardInvariantIsKept : busy.ScoreboardInv ∧ jumping.ScoreboardInv ∧ ∃ t, step busy = .next t :=
  ⟨busy_scoreboard, jumping_scoreboard, _, rfl⟩

theorem witness_InvariantViolationIsUnreachable :
    (badAddress 4096).fault = false ∧ (badAddress 4096).ScoreboardInv ∧
    ∃ t, step (badAddress 4096) = .next t ∧ t.fault = true :=
  ⟨rfl, witness_BadDataAddressFaults.2.1, _, rfl, rfl⟩

theorem witness_ExactlyOneFlagStaysSet : busy.flags.oneHot = true ∧ ∃ t, step busy = .next t := ⟨by decide, _, rfl⟩

theorem witness_MemoryInvariantIsKept : base.MemoryInv ∧ ∃ t, step base = .next t :=
  ⟨⟨by decide, by decide⟩, _, rfl⟩

theorem witness_RegistersInvariantIsKept : busy.RegistersInv ∧ ∃ t, step busy = .next t := by
  refine ⟨⟨?_, fun _ => ⟨?_, ?_, ?_, ?_⟩⟩, _, rfl⟩
  · decide
  all_goals intro l hl; cases hl; decide

theorem witness_HaltInvariantIsKept : busy.HaltInv ∧ isHalt busy.d ∧ ∃ t, step busy = .next t := by
  refine ⟨fun _ => ⟨fun _ => rfl, ?_, ?_, ?_, fun h => by cases h⟩, ⟨_, rfl, rfl⟩, _, rfl⟩ <;>
    (intro ⟨l, hl, hh⟩; cases hl; cases hh)

theorem witness_PcInvariantIsKept : busy.PcInv ∧ ∃ t, step busy = .next t := ⟨busy_pc, _, rfl⟩

theorem witness_ResetMeetsTheInvariants :
    Params.default.ok 1 = true ∧ ∃ s, construct Params.default [0xC000000000000000] [(3, 7)] = .next s :=
  ⟨by decide, _, rfl⟩

/-! The pipeline as a whole -/

/-- One instruction alone, in D. -/
def alone (i : Instr) : State :=
  { start true [0xC000000000000000] [(104, 42)] with
    d := some (fetchedLatch i 4000), pc := 4004, armed := false }

theorem alone_lone (i : Instr) : (alone i).Lone (fetchedLatch i 4000) := by
  refine ⟨⟨?_, rfl, rfl⟩, rfl, rfl, rfl, rfl, rfl, ?_⟩
  · intro h; cases h
  · show ∀ r, (alone .nop).count r = 0
    decide

/-- LOADP at the highest cell. -/
theorem witness_LoneInstructionTakesFourCycles :
    (alone (.loadp 2 1 4095)).Lone (fetchedLatch (.loadp 2 1 4095) 4000) ∧ (alone (.loadp 2 1 4095)).PcInv ∧
    (Instr.loadp 2 1 4095).takes (alone (.loadp 2 1 4095)).flags = false ∧
    ∀ ea ∈ dataAddress (.loadp 2 1 4095) (alone (.loadp 2 1 4095)).regs,
      0 ≤ sval ea ∧ sval ea < (alone (.loadp 2 1 4095)).cfg.dmemSize := by
  refine ⟨alone_lone _, ?_, rfl, ?_⟩
  · intro _ l hl; cases hl; rfl
  · intro ea h; cases h; decide

theorem witness_LoneTakenTransferRedirectsInTwoCycles :
    (alone (.bz 8)).Lone (fetchedLatch (.bz 8) 4000) ∧ (Instr.bz 8).takes (alone (.bz 8)).flags = true ∧
    (alone (.jalr 7 6 0)).Lone (fetchedLatch (.jalr 7 6 0) 4000) ∧
    (Instr.jalr 7 6 0).takes (alone (.jalr 7 6 0)).flags = true :=
  ⟨alone_lone _, rfl, alone_lone _, rfl⟩

theorem witness_PipelineRefinesSequentialExecution :
    busy.Live ∧ busy.ScoreboardInv ∧ busy.PcInv ∧ busy.FetchedInv ∧
    ∃ t a b, step busy = .next t ∧ t.fault = false ∧ busy.Settles a ∧ t.Settles b :=
  ⟨busy_live, busy_scoreboard, busy_pc, busy_fetched, _, _, _, rfl, rfl, ⟨_, rfl, rfl, rfl⟩, _, rfl, rfl, rfl⟩

/-! Fetch in flight, fetch faults, run-to-completion -/

theorem witness_FetchedInvariantIsKept : busy.FetchedInv ∧ ∃ t, step busy = .next t := ⟨busy_fetched, _, rfl⟩

/-- `MOVC R0,#5 ; STORE R3,R4,#200 ; ADD R2,R0,R1 ; ADD R3,R2,R5` in flight, fetch about to read what follows them. -/
def fetching (rest : List InstrWord) : State :=
  { start true ([encode (.movc 0 5), encode (.store 3 4 200), encode (.add 2 0 1), encode (.add 3 2 5)] ++ rest) [] with
    pc := 4016, cycleCount := 4
    d := some (fetchedLatch (.add 3 2 5) 4012)
    e := some (issued (.add 2 0 1) 4008 5 10)
    m := some { issued (.store 3 4 200) 4004 9 0 with ea := 200 }
    w := some { issued (.movc 0 5) 4000 0 0 with result := 5 }
    sb := reserved [⟨0, .alu⟩, ⟨2, .alu⟩] base.sb }

theorem fetching_scoreboard (rest : List InstrWord) : (fetching rest).ScoreboardInv := by
  intro _
  refine ⟨?_, ?_, ?_, ?_⟩
  · show ∀ r, ((fetching []).count r).toNat =
      resCount r (fetching []).e + resCount r (fetching []).m + heldCount r (fetching []).w
    decide
  all_goals intro l hl; cases hl
  · exact ⟨rfl, rfl⟩
  · exact ⟨rfl, rfl⟩
  · exact ⟨rfl, fun h => by cases h⟩

theorem fetching_willFetch (rest : List InstrWord) : (fetching rest).WillFetch := by
  refine ⟨?_, ?_, ?_, rfl⟩ <;> intro l hl <;> cases hl
  · intro _
    show 0 ≤ sval 200 ∧ sval 200 < ((4096 : Nat) : Int)
    decide
  · rfl
  · rintro r - ⟨l, before, after, he, hres, -⟩
    cases he
    have h : (⟨r, .mem⟩ : Reservation) ∈ [⟨2, .alu⟩] := by
      rw [show [⟨2, .alu⟩] = before ++ ⟨r, .mem⟩ :: after from hres]
      simp
    simp at h

/-- Just past the last word, and at an illegal word, with a commit, a store and a flag write in the same cycle. -/
theorem witness_FetchFaultKeepsTheOlderWork :
    ((fetching []).Live ∧ (fetching []).ScoreboardInv ∧ (fetching []).WillFetch ∧
      (fetching []).code.length ≤ (uval (fetching []).pc - uval (fetching []).cfg.codeBase) / 4 ∧
      ∃ t, step (fetching []) = .next t ∧ t.fault = true) ∧
    (fetching [0xC800000000000000]).Live ∧ (fetching [0xC800000000000000]).WillFetch ∧
      (uval 4016 - uval 4000) % 4 = 0 ∧
      (fetching [0xC800000000000000]).code[(uval 4016 - uval 4000) / 4]? = some 0xC800000000000000 ∧
      decode 16 0xC800000000000000 = .error .opcode ∧
      ∃ t, step (fetching [0xC800000000000000]) = .next t ∧ t.fault = true :=
  ⟨⟨⟨by decide, rfl, rfl⟩, fetching_scoreboard _, fetching_willFetch _, by decide, _, rfl, rfl⟩, ⟨by decide, rfl, rfl⟩,
    fetching_willFetch _, by decide, by decide, by decide, _, rfl, rfl⟩

/-- Test vector C3, `BZ #0 ; HALT`, after `cycles` cycles. -/
def branching (cycles retired : BitVec 64) : State :=
  { start true [0x8800000000000000, 0xC000000000000000] [] with cycleCount := cycles, retiredCount := retired }

/-- The branch in D, and its last pass in W. -/
def looping (cycles retired : BitVec 64) : State :=
  { branching cycles retired with
    pc := 4004, d := some (fetchedLatch (.bz 0) 4000), w := some (fetchedLatch (.bz 0) 4000) }

/-- The branch in E, about to be taken. -/
def looping2 (cycles retired : BitVec 64) : State :=
  { branching cycles retired with
    pc := 4008, armed := false, d := some (fetchedLatch .halt 4004), e := some (fetchedLatch (.bz 0) 4000) }

/-- The branch in M, about to be fetched again. -/
def looping3 (cycles retired : BitVec 64) : State :=
  { branching cycles retired with m := some (fetchedLatch (.bz 0) 4000) }

/-- A step of that program in a cycle that fetches. -/
theorem branching_fetch {s u : State} {w : InstrWord} {i : Instr} (pc : Word) (hl : s.Live) (hu : beforeFetch s = u)
    (hf : u.fault = false ∧ u.redirect = false ∧ u.stalled = false ∧ u.armed = true)
    (he : u.cfg = base.cfg ∧ u.code = (branching 0 0).code ∧ u.pc = pc)
    (hc : (branching 0 0).codeAt pc = some w) (hd : decode 16 w = .ok i) :
    step s = .next (endCycle (fetchWork i (u.at .fetch))) := by
  have hc : u.codeAt u.pc = some w := by
    rw [codeAt_eq_some, he.1, he.2.1, he.2.2]; exact (codeAt_eq_some _ _ _).1 hc
  have hd : decode u.cfg.nregs w = .ok i := by rw [he.1]; exact hd
  rw [step_live hl, cycleState, hu]
  simp [thenState, fetchState, fetchInstrState, hf, hc, hd]

theorem looping_code (c r : BitVec 64) : (looping c r).code ≠ [] := by intro h; cases h

/-- Its two words, fetched and decoded. -/
theorem branching_words :
    ((branching 0 0).codeAt 4000 = some 0x8800000000000000 ∧ decode 16 0x8800000000000000 = .ok (.bz 0)) ∧
      (branching 0 0).codeAt 4004 = some 0xC000000000000000 ∧ decode 16 0xC000000000000000 = .ok .halt := by decide

/-- It comes round every three cycles. -/
theorem looping_step (c r : BitVec 64) : step (looping c r) = .next (looping2 (c + 1) (r + 1)) :=
  branching_fetch (s := looping c r) 4004 ⟨looping_code c r, rfl, rfl⟩ rfl ⟨rfl, rfl, rfl, rfl⟩ ⟨rfl, rfl, rfl⟩
    branching_words.2.1 branching_words.2.2

theorem looping2_step (c r : BitVec 64) : step (looping2 c r) = .next (looping3 (c + 1) r) := by rfl

theorem looping3_step (c r : BitVec 64) : step (looping3 c r) = .next (looping (c + 1) r) :=
  branching_fetch (s := looping3 c r) 4000 ⟨looping_code c r, rfl, rfl⟩ rfl ⟨rfl, rfl, rfl, rfl⟩ ⟨rfl, rfl, rfl⟩
    branching_words.1.1 branching_words.1.2

/-- So a run of it is always still stepping. -/
theorem looping_stepping (n : Nat) : ∀ c r : BitVec 64,
    (∃ t, runFor .unbounded n (looping c r) = .next (.stepping t)) ∧
    (∃ t, runFor .unbounded n (looping2 c r) = .next (.stepping t)) ∧
    ∃ t, runFor .unbounded n (looping3 c r) = .next (.stepping t) := by
  induction n with
  | zero => exact fun _ _ => ⟨⟨_, rfl⟩, ⟨_, rfl⟩, _, rfl⟩
  | succ n ih =>
    intro c r
    have hc := looping_code c r
    rw [runFor_steps (s := looping c r) n hc rfl (looping_step c r),
      runFor_steps (s := looping2 c r) n hc rfl (looping2_step c r),
      runFor_steps (s := looping3 c r) n hc rfl (looping3_step c r)]
    exact ⟨(ih _ _).2.1, (ih _ _).2.2, (ih _ _).1⟩

/-- A program that halts, one that does not, and the least bound that cycle_count never reaches. -/
theorem witness_RunToCompletionReturnsOnlyAtTheEnd :
    (ending.code ≠ [] ∧ ∃ t r, RunReturns .unbounded ending t r ∧ r.status = .halted) ∧
    ((looping 4 0).code ≠ [] ∧ RunEndless .unbounded (looping 4 0)) ∧
    ∃ bound, Budget.cycles (2 ^ 64) = .cycles bound ∧ 2 ^ 64 ≤ bound :=
  ⟨⟨by decide, _, _, ⟨1, rfl⟩, by decide⟩, ⟨by decide, fun n => (looping_stepping n 4 0).1⟩, _, rfl, le_refl _⟩

end Sys2Proof.Tests
end

/-! The parameters and the instruction store are fixed for the life of an engine (R9, R38, R51, R82): each stage operation
keeps both, so each unit does, and so a cycle and a step do. -/

namespace Sys2Proof.Machine

/-! Stage operations -/

@[simp] theorem commitWith_cfg_code (halts : Bool) (s : State) :
    (commitWith halts s).cfg = s.cfg ∧ (commitWith halts s).code = s.code := by
  obtain hw | ⟨l, hw⟩ := Option.eq_none_or_eq_some s.w
  · simp [commitWith, hw]
  · obtain ⟨sb, -, e⟩ | ⟨r, -, -, e⟩ := commitWith_cases halts hw <;> simp [e]

@[simp] theorem loadMemory_cfg_code (s : State) :
    (loadMemory s).cfg = s.cfg ∧ (loadMemory s).code = s.code := by
  obtain hm | ⟨l, hm⟩ := Option.eq_none_or_eq_some s.m
  · simp [loadMemory, hm]
  · obtain ⟨-, e⟩ | ⟨-, -, e⟩ | ⟨sb, -, -, -, e⟩ | ⟨r, -, -, -, e⟩ := loadMemory_cases hm <;> simp [e]

@[simp] theorem storeMemory_cfg_code (s : State) :
    (storeMemory s).cfg = s.cfg ∧ (storeMemory s).code = s.code := by
  obtain hm | ⟨l, hm⟩ := Option.eq_none_or_eq_some s.m
  · simp [storeMemory, hm]
  · obtain ⟨-, e⟩ | ⟨-, e⟩ := storeMemory_cases hm <;> simp [e]

@[simp] theorem memoryWork_cfg_code (i : Instr) (s : State) :
    (memoryWork i s).cfg = s.cfg ∧ (memoryWork i s).code = s.code := by
  unfold memoryWork
  split_ifs
  · exact loadMemory_cfg_code s
  · exact storeMemory_cfg_code s
  · exact ⟨rfl, rfl⟩

@[simp] theorem issue_cfg_code (src1 src2 : Option RegIdx) (dsts : List Reservation) (s : State) :
    (issue src1 src2 dsts s).cfg = s.cfg ∧ (issue src1 src2 dsts s).code = s.code := by
  obtain hd | ⟨l, hd⟩ := Option.eq_none_or_eq_some s.d
  · simp [issue, hd]
  · obtain ⟨v1, v2, sb, -, -, -, e⟩ | ⟨-, e⟩ | ⟨r, -, e⟩ := issue_cases src1 src2 dsts hd <;> simp [e]

@[simp] theorem fetchWork_cfg_code (i : Instr) (s : State) :
    (fetchWork i s).cfg = s.cfg ∧ (fetchWork i s).code = s.code := by
  unfold fetchWork
  split_ifs <;> exact ⟨rfl, rfl⟩

/-! Units -/

@[simp] theorem writebackState_cfg_code (s : State) :
    (writebackState s).cfg = s.cfg ∧ (writebackState s).code = s.code := by
  obtain hw | ⟨l, hw⟩ := Option.eq_none_or_eq_some s.w
  · simp [writebackState, hw]
  · simp [writebackState_some hw]

@[simp] theorem memoryState_cfg_code (s : State) :
    (memoryState s).cfg = s.cfg ∧ (memoryState s).code = s.code := by
  obtain hm | ⟨l, hm⟩ := Option.eq_none_or_eq_some s.m
  · simp [memoryState, hm]
  · simp [memoryState_some hm]

@[simp] theorem executeState_cfg_code (s : State) :
    (executeState s).cfg = s.cfg ∧ (executeState s).code = s.code := by
  obtain ⟨-, e⟩ | ⟨l, -, -, e⟩ | ⟨l, t, -, -, e⟩ := executeState_cases s <;> simp [e]

@[simp] theorem decodeState_cfg_code (s : State) :
    (decodeState s).cfg = s.cfg ∧ (decodeState s).code = s.code := by
  obtain hd | ⟨l, hd⟩ := Option.eq_none_or_eq_some s.d
  · simp [decodeState, hd]
  · simp [decodeState_some hd]

@[simp] theorem fetchInstrState_cfg_code (s : State) :
    (fetchInstrState s).cfg = s.cfg ∧ (fetchInstrState s).code = s.code := by
  obtain hc | ⟨w, hc⟩ := Option.eq_none_or_eq_some (s.codeAt s.pc)
  · simp [fetchInstrState, hc]
  · cases hi : decode s.cfg.nregs w <;> simp [fetchInstrState, hc, hi]

@[simp] theorem fetchState_cfg_code (s : State) :
    (fetchState s).cfg = s.cfg ∧ (fetchState s).code = s.code := by
  unfold fetchState
  split_ifs
  · exact ⟨rfl, rfl⟩
  · exact ⟨rfl, rfl⟩
  · exact fetchInstrState_cfg_code s
  · exact ⟨rfl, rfl⟩

/-! Cycle -/

/-- Going on with a unit that keeps the parameters and the store keeps them, whether or not a fault stops the cycle. -/
theorem thenState_cfg_code (s : State) {k : State → State}
    (hk : ∀ t, (k t).cfg = t.cfg ∧ (k t).code = t.code) :
    (thenState s k).cfg = s.cfg ∧ (thenState s k).code = s.code := by
  unfold thenState
  split_ifs
  · exact ⟨rfl, rfl⟩
  · exact hk s

@[simp] theorem beforeFetch_cfg_code (s : State) :
    (beforeFetch s).cfg = s.cfg ∧ (beforeFetch s).code = s.code := by
  simp [beforeFetch, thenState_cfg_code _ memoryState_cfg_code, thenState_cfg_code _ executeState_cfg_code,
    thenState_cfg_code _ decodeState_cfg_code]

@[simp] theorem cycleState_cfg_code (s : State) :
    (cycleState s).cfg = s.cfg ∧ (cycleState s).code = s.code := by
  simp [cycleState, thenState_cfg_code _ fetchState_cfg_code]

/-! Obligations -/

/-- Settles O13: a step either keeps the engine or is one cycle of it, and no unit of a cycle writes the parameters or the
store. -/
theorem parametersAndStoreAreImmutable : Obligations.ParametersAndStoreAreImmutable := by
  unfold Obligations.ParametersAndStoreAreImmutable
  intro s t hs
  have hcycle : ∀ u : State, u.Live → u.cfg = s.cfg ∧ u.code = s.code →
      (cycleState u).cfg = s.cfg ∧ (cycleState u).code = s.code := by
    intro u _ hu
    simpa using hu
  exact step_keeps hcycle hs ⟨rfl, rfl⟩

/-- Settles O7: reset is construction with the default parameters, whose fields these are. -/
theorem resetWithTheDefaultParameters : Obligations.ResetWithTheDefaultParameters := by
  unfold Obligations.ResetWithTheDefaultParameters
  exact ⟨rfl, rfl, rfl, rfl, rfl⟩

end Sys2Proof.Machine

/-! What the stage operations and the units leave unchanged, also where they raise a fault (R301), and what a whole
cycle therefore takes from a single unit: the register file, retired_count and halted from writeback, the data memory
from memory, the flags from execute. -/

namespace Sys2Proof.Machine

/-! Stage operations -/

@[simp] theorem commitWith_frame (halts : Bool) (s : State) :
    (commitWith halts s).flags = s.flags ∧ (commitWith halts s).mem = s.mem ∧
      (commitWith halts s).cycleCount = s.cycleCount ∧ (commitWith halts s).stalled = s.stalled := by
  obtain hw | ⟨l, hw⟩ := Option.eq_none_or_eq_some s.w
  · simp [commitWith, hw]
  · obtain ⟨sb, -, e⟩ | ⟨r, -, -, e⟩ := commitWith_cases halts hw <;> simp [e]

@[simp] theorem loadMemory_frame (s : State) :
    (loadMemory s).regs = s.regs ∧ (loadMemory s).flags = s.flags ∧ (loadMemory s).mem = s.mem ∧
      (loadMemory s).halted = s.halted ∧ (loadMemory s).cycleCount = s.cycleCount ∧
      (loadMemory s).retiredCount = s.retiredCount ∧ (loadMemory s).stalled = s.stalled := by
  obtain hm | ⟨l, hm⟩ := Option.eq_none_or_eq_some s.m
  · simp [loadMemory, hm]
  · obtain ⟨-, e⟩ | ⟨-, -, e⟩ | ⟨sb, -, -, -, e⟩ | ⟨r, -, -, -, e⟩ := loadMemory_cases hm <;> simp [e]

@[simp] theorem storeMemory_frame (s : State) :
    (storeMemory s).regs = s.regs ∧ (storeMemory s).flags = s.flags ∧
      (storeMemory s).halted = s.halted ∧ (storeMemory s).cycleCount = s.cycleCount ∧
      (storeMemory s).retiredCount = s.retiredCount ∧ (storeMemory s).stalled = s.stalled := by
  obtain hm | ⟨l, hm⟩ := Option.eq_none_or_eq_some s.m
  · simp [storeMemory, hm]
  · obtain ⟨-, e⟩ | ⟨-, e⟩ := storeMemory_cases hm <;> simp [e]

@[simp] theorem memoryWork_frame (i : Instr) (s : State) :
    (memoryWork i s).regs = s.regs ∧ (memoryWork i s).flags = s.flags ∧
      (memoryWork i s).halted = s.halted ∧ (memoryWork i s).cycleCount = s.cycleCount ∧
      (memoryWork i s).retiredCount = s.retiredCount ∧ (memoryWork i s).stalled = s.stalled := by
  unfold memoryWork
  split_ifs <;> simp [passMemory]

@[simp] theorem executeWith_frame (x : Latch → Flags → Executed) (s : State) :
    (executeWith x s).cfg = s.cfg ∧ (executeWith x s).code = s.code ∧ (executeWith x s).regs = s.regs ∧
      (executeWith x s).mem = s.mem ∧ (executeWith x s).halted = s.halted ∧
      (executeWith x s).cycleCount = s.cycleCount ∧ (executeWith x s).retiredCount = s.retiredCount ∧
      (executeWith x s).stalled = s.stalled := by
  obtain he | ⟨l, he⟩ := Option.eq_none_or_eq_some s.e <;> simp [executeWith, he]

@[simp] theorem issue_frame (src1 src2 : Option RegIdx) (dsts : List Reservation) (s : State) :
    (issue src1 src2 dsts s).regs = s.regs ∧ (issue src1 src2 dsts s).flags = s.flags ∧
      (issue src1 src2 dsts s).mem = s.mem ∧ (issue src1 src2 dsts s).halted = s.halted ∧
      (issue src1 src2 dsts s).cycleCount = s.cycleCount ∧
      (issue src1 src2 dsts s).retiredCount = s.retiredCount := by
  obtain hd | ⟨l, hd⟩ := Option.eq_none_or_eq_some s.d
  · simp [issue, hd]
  · obtain ⟨v1, v2, sb, -, -, -, e⟩ | ⟨-, e⟩ | ⟨r, -, e⟩ := issue_cases src1 src2 dsts hd <;> simp [e]

@[simp] theorem fetchWork_frame (i : Instr) (s : State) :
    (fetchWork i s).regs = s.regs ∧ (fetchWork i s).flags = s.flags ∧ (fetchWork i s).mem = s.mem ∧
      (fetchWork i s).halted = s.halted ∧ (fetchWork i s).cycleCount = s.cycleCount ∧
      (fetchWork i s).retiredCount = s.retiredCount ∧ (fetchWork i s).stalled = s.stalled ∧
      (fetchWork i s).e = s.e ∧ (fetchWork i s).m = s.m ∧ (fetchWork i s).w = s.w ∧ (fetchWork i s).sb = s.sb ∧
      (fetchWork i s).fault = s.fault ∧ (fetchWork i s).faultCause = s.faultCause ∧
      (fetchWork i s).faultInfo = s.faultInfo := by
  unfold fetchWork
  split_ifs <;> simp

/-! Stage operations that raise no fault: the state that belongs to other units (R301 leaves it unspecified else) -/

theorem commitWith_unfaulted (halts : Bool) {s : State} (h : (commitWith halts s).fault = false) :
    (commitWith halts s).pc = s.pc ∧ (commitWith halts s).armed = s.armed ∧ (commitWith halts s).d = s.d ∧
      (commitWith halts s).e = s.e ∧ (commitWith halts s).m = s.m ∧ (commitWith halts s).w = s.w ∧
      (commitWith halts s).faultCause = s.faultCause ∧ (commitWith halts s).faultInfo = s.faultInfo := by
  obtain hw | ⟨l, hw⟩ := Option.eq_none_or_eq_some s.w
  · simp [commitWith, hw]
  · obtain ⟨sb, -, e⟩ | ⟨r, -, -, e⟩ := commitWith_cases halts hw
    · simp [e]
    · simp [e] at h

theorem memoryWork_unfaulted (i : Instr) {s : State} (h : (memoryWork i s).fault = false) :
    (memoryWork i s).pc = s.pc ∧ (memoryWork i s).armed = s.armed ∧ (memoryWork i s).d = s.d ∧
      (memoryWork i s).e = s.e ∧ (memoryWork i s).m = s.m ∧
      (memoryWork i s).faultCause = s.faultCause ∧ (memoryWork i s).faultInfo = s.faultInfo := by
  obtain hm | ⟨l, hm⟩ := Option.eq_none_or_eq_some s.m
  · simp only [memoryWork, loadMemory, storeMemory, passMemory, hm]
    split_ifs <;> simp
  · unfold memoryWork at *
    split_ifs at *
    · obtain ⟨-, e⟩ | ⟨-, -, e⟩ | ⟨sb, -, -, -, e⟩ | ⟨r, -, -, -, e⟩ := loadMemory_cases hm
      · simp [e] at h
      · simp [e]
      · simp [e]
      · simp [e] at h
    · obtain ⟨-, e⟩ | ⟨-, e⟩ := storeMemory_cases hm
      · simp [e] at h
      · simp [e]
    · simp [passMemory]

@[simp] theorem executeWith_keeps_internals (x : Latch → Flags → Executed) (s : State) :
    (executeWith x s).e = s.e ∧ (executeWith x s).w = s.w ∧ (executeWith x s).sb = s.sb ∧
      (executeWith x s).fault = s.fault ∧ (executeWith x s).faultCause = s.faultCause ∧
      (executeWith x s).faultInfo = s.faultInfo := by
  obtain he | ⟨l, he⟩ := Option.eq_none_or_eq_some s.e <;> simp [executeWith, he]

theorem executeWith_keeps_fetch (x : Latch → Flags → Executed) {s : State}
    (h : (executeWith x s).redirect = false) :
    (executeWith x s).pc = s.pc ∧ (executeWith x s).armed = s.armed ∧ (executeWith x s).d = s.d := by
  obtain he | ⟨l, he⟩ := Option.eq_none_or_eq_some s.e
  · simp [executeWith, he]
  · cases ht : (x l s.flags).target with
    | none => simp [executeWith, he, ht]
    | some t => simp [executeWith, he, ht] at h

theorem issue_unfaulted (src1 src2 : Option RegIdx) (dsts : List Reservation) {s : State}
    (h : (issue src1 src2 dsts s).fault = false) :
    (issue src1 src2 dsts s).pc = s.pc ∧ (issue src1 src2 dsts s).armed = s.armed ∧
      (issue src1 src2 dsts s).d = s.d ∧ (issue src1 src2 dsts s).m = s.m ∧ (issue src1 src2 dsts s).w = s.w ∧
      (issue src1 src2 dsts s).faultCause = s.faultCause ∧ (issue src1 src2 dsts s).faultInfo = s.faultInfo := by
  obtain hd | ⟨l, hd⟩ := Option.eq_none_or_eq_some s.d
  · simp [issue, hd]
  · obtain ⟨v1, v2, sb, -, -, -, e⟩ | ⟨-, e⟩ | ⟨r, -, e⟩ := issue_cases src1 src2 dsts hd
    · simp [e]
    · simp [e]
    · simp [e] at h

/-- Settles O31: exec is one stage operation for each unit, and each operation has its frame. -/
theorem unitsChangeOnlyTheirOwnState : Obligations.UnitsChangeOnlyTheirOwnState := by
  unfold Obligations.UnitsChangeOnlyTheirOwnState
  intro i s t h
  cases hst : s.stage with
  | writeback =>
    rw [exec_writeback i hst] at h
    cases h
    simpa using fun hf => by simp [commitWith_unfaulted _ hf]
  | memory =>
    rw [exec_memory i hst] at h
    cases h
    simpa using fun hf => by simp [memoryWork_unfaulted i hf]
  | execute =>
    rw [exec_execute i hst] at h
    cases h
    simpa using fun _ hr => executeWith_keeps_fetch _ hr
  | decode =>
    rw [exec_decode i hst] at h
    cases h
    simpa using fun hf => by simp [issue_unfaulted _ _ _ hf]
  | fetch =>
    rw [exec_fetch i hst] at h
    cases h
    simp

/-! Units -/

@[simp] theorem writebackState_frame (s : State) :
    (writebackState s).flags = s.flags ∧ (writebackState s).mem = s.mem ∧
      (writebackState s).cycleCount = s.cycleCount := by
  obtain hw | ⟨l, hw⟩ := Option.eq_none_or_eq_some s.w
  · simp [writebackState, hw]
  · simp [writebackState_some hw]

@[simp] theorem memoryState_frame (s : State) :
    (memoryState s).regs = s.regs ∧ (memoryState s).flags = s.flags ∧ (memoryState s).halted = s.halted ∧
      (memoryState s).cycleCount = s.cycleCount ∧ (memoryState s).retiredCount = s.retiredCount := by
  obtain hm | ⟨l, hm⟩ := Option.eq_none_or_eq_some s.m
  · simp [memoryState, hm]
  · simp [memoryState_some hm]

@[simp] theorem executeState_frame (s : State) :
    (executeState s).regs = s.regs ∧ (executeState s).mem = s.mem ∧ (executeState s).halted = s.halted ∧
      (executeState s).cycleCount = s.cycleCount ∧ (executeState s).retiredCount = s.retiredCount ∧
      (executeState s).fault = s.fault ∧ (executeState s).faultCause = s.faultCause := by
  obtain he | ⟨l, he⟩ := Option.eq_none_or_eq_some s.e
  · simp [executeState, he]
  · simp [executeState_some he]

@[simp] theorem decodeState_frame (s : State) :
    (decodeState s).regs = s.regs ∧ (decodeState s).flags = s.flags ∧ (decodeState s).mem = s.mem ∧
      (decodeState s).halted = s.halted ∧ (decodeState s).cycleCount = s.cycleCount ∧
      (decodeState s).retiredCount = s.retiredCount := by
  obtain hd | ⟨l, hd⟩ := Option.eq_none_or_eq_some s.d
  · simp [decodeState, hd]
  · simp [decodeState_some hd]

@[simp] theorem fetchInstrState_frame (s : State) :
    (fetchInstrState s).regs = s.regs ∧ (fetchInstrState s).flags = s.flags ∧ (fetchInstrState s).mem = s.mem ∧
      (fetchInstrState s).halted = s.halted ∧ (fetchInstrState s).cycleCount = s.cycleCount ∧
      (fetchInstrState s).retiredCount = s.retiredCount := by
  obtain hc | ⟨w, hc⟩ := Option.eq_none_or_eq_some (s.codeAt s.pc)
  · simp [fetchInstrState, hc]
  · cases hi : decode s.cfg.nregs w <;> simp [fetchInstrState, hc, hi]

@[simp] theorem fetchState_frame (s : State) :
    (fetchState s).regs = s.regs ∧ (fetchState s).flags = s.flags ∧ (fetchState s).mem = s.mem ∧
      (fetchState s).halted = s.halted ∧ (fetchState s).cycleCount = s.cycleCount ∧
      (fetchState s).retiredCount = s.retiredCount := by
  unfold fetchState
  split_ifs <;> simp

/-! Cycle -/

/-- What a unit keeps, going on with it keeps, whether or not a fault stops the cycle. -/
theorem thenState_field {α : Type} (f : State → α) (s : State) {k : State → State} (hk : ∀ t, f (k t) = f t) :
    f (thenState s k) = f s := by
  unfold thenState
  split_ifs
  · rfl
  · exact hk s

theorem thenState_faulted {s : State} (k : State → State) (h : s.fault = true) : thenState s k = s := if_pos h

theorem thenState_unfaulted {s : State} (k : State → State) (h : s.fault = false) : thenState s k = k s :=
  if_neg (by simp [h])

/-- The register file, retired_count and halted are what writeback leaves them. -/
theorem cycleState_regs (s : State) : (cycleState s).regs = (writebackState (beginCycle s)).regs := by
  simp [cycleState, beforeFetch, thenState_field State.regs]

theorem cycleState_retiredCount (s : State) :
    (cycleState s).retiredCount = (writebackState (beginCycle s)).retiredCount := by
  simp [cycleState, beforeFetch, thenState_field State.retiredCount]

theorem cycleState_halted (s : State) : (cycleState s).halted = (writebackState (beginCycle s)).halted := by
  simp [cycleState, beforeFetch, thenState_field State.halted]

theorem cycleState_cycleCount (s : State) : (cycleState s).cycleCount = s.cycleCount + 1 := by
  simp [cycleState, beforeFetch, thenState_field State.cycleCount]

/-- The data memory is what memory leaves it. -/
theorem cycleState_mem (s : State) :
    (cycleState s).mem = (thenState (writebackState (beginCycle s)) memoryState).mem := by
  simp [cycleState, beforeFetch, thenState_field State.mem]

/-- The flags are what execute leaves them. -/
theorem cycleState_flags (s : State) :
    (cycleState s).flags =
      (thenState (thenState (writebackState (beginCycle s)) memoryState) executeState).flags := by
  simp [cycleState, beforeFetch, thenState_field State.flags]

theorem State.Live.not_halted {s : State} (h : s.Live) : s.halted = false := h.2.1

theorem State.Live.not_faulted {s : State} (h : s.Live) : s.fault = false := h.2.2

/-- A step of an engine that is not live is refused or changes nothing (R172, R306). -/
theorem step_not_live {s t : State} (hl : ¬ s.Live) (h : step s = .next t) : t = s := by
  have hr : ¬ (s.code ≠ [] ∧ s.running = true) := by
    simpa [State.Live, State.running] using hl
  unfold step engineStep State.noStore at h
  split_ifs at h with hc hrun
  · exact absurd ⟨by simpa using hc, hrun⟩ hr
  · cases h; rfl

/-- Settles O9: the count is written when the cycle opens, and no unit writes it. -/
theorem cycleCountCountsEveryLiveStep : Obligations.CycleCountCountsEveryLiveStep := by
  unfold Obligations.CycleCountCountsEveryLiveStep
  refine ⟨fun s hl => ⟨_, step_live hl, cycleState_cycleCount s⟩, fun s t hl h => ?_, rfl⟩
  rw [step_not_live hl h]

end Sys2Proof.Machine

/-! The scoreboard through a cycle (R46 to R48, R158, R160): each unit takes the count from the latches it finds valid
to those the next unit finds, and no counter leaves its range on the way. -/

namespace Sys2Proof.Machine

/-- `Q` holds unless a fault was raised, and that fault is not InvariantViolation (R306). -/
def State.Sound (Q : State → Prop) (s : State) : Prop :=
  (s.fault = false → Q s) ∧ (s.fault = true → s.faultCause ≠ 4)

theorem State.Sound.of_no_fault {Q : State → Prop} {s : State} (hf : s.fault = false) (h : Q s) : s.Sound Q :=
  ⟨fun _ => h, fun ht => absurd ht (by simp [hf])⟩

/-- Where the last unit was sound, going on with a sound unit is. -/
theorem State.Sound.thenState {Q Q' : State → Prop} {s : State} {k : State → State} (h : s.Sound Q)
    (hk : ∀ t, t.fault = false → Q t → (k t).Sound Q') : (thenState s k).Sound Q' := by
  unfold Machine.thenState
  cases hf : s.fault with
  | false => exact hk s hf (h.1 hf)
  | true => exact ⟨fun h0 => by simp [hf] at h0, fun _ => h.2 hf⟩

/-- The scoreboard once W has committed: the reservations of E and M are outstanding. -/
def State.ScoreboardAfterWriteback (s : State) : Prop :=
  (∀ r, (s.count r).toNat = resCount r s.e + resCount r s.m) ∧ (∀ l ∈ s.e, l.Issued) ∧ ∀ l ∈ s.m, l.Issued

/-- The scoreboard once memory has processed M into W: those of E and W are, except what memory released (R48). -/
def State.ScoreboardAfterMemory (s : State) : Prop :=
  (∀ r, (s.count r).toNat = resCount r s.e + heldCount r s.w) ∧ (∀ l ∈ s.e, l.Issued) ∧
    ∀ l ∈ s.w, l.Passed s.cfg.forwarding

/-! Counts -/

@[simp] theorem resCount_none (r : RegIdx) : resCount r none = 0 := rfl

@[simp] theorem resCount_some (r : RegIdx) (l : Latch) :
    resCount r (some l) = l.res.countP fun p => p.reg = r := rfl

@[simp] theorem heldCount_none (r : RegIdx) : heldCount r none = 0 := rfl

@[simp] theorem heldCount_some (r : RegIdx) (l : Latch) :
    heldCount r (some l) = if l.rel then 0 else l.res.countP fun p => p.reg = r := rfl

/-- No instruction reserves a register more than twice. -/
theorem countP_dsts_le (i : Instr) (r : RegIdx) : (i.dsts.countP fun p => p.reg = r) ≤ 2 :=
  le_trans List.countP_le_length (by cases i <;> simp [Instr.dsts])

theorem resCount_le {r : RegIdx} {x : Option Latch} (h : ∀ l ∈ x, l.res = l.instr.dsts) : resCount r x ≤ 2 := by
  cases x with
  | none => simp [resCount]
  | some l => simpa [h l rfl] using countP_dsts_le l.instr r

theorem heldCount_le_resCount (r : RegIdx) (x : Option Latch) : heldCount r x ≤ resCount r x := by
  cases x with
  | none => rfl
  | some l => rw [heldCount_some]; split_ifs <;> simp

/-! Units -/

/-- Writeback never releases below 0, and takes W's reservations off the count. -/
theorem writebackState_scoreboard {s : State} (hf : s.fault = false) (h : s.ScoreboardInv) :
    (writebackState s).fault = false ∧ (writebackState s).ScoreboardAfterWriteback := by
  obtain ⟨hcount, he, hm, -⟩ := h hf
  obtain hw | ⟨l, hw⟩ := Option.eq_none_or_eq_some s.w
  · have e : writebackState s = s := by simp only [writebackState, hw]
    rw [e]
    exact ⟨hf, by simpa [count_eq_countAt, hw] using hcount, he, hm⟩
  · rw [writebackState_some hw]
    obtain ⟨sb, hsb, e⟩ | ⟨r, hrel, herr, -⟩ :=
      commitWith_cases (decide (l.instr = .halt)) (s := s.at .writeback) hw
    · rw [e]
      refine ⟨hf, fun r => ?_, he, hm⟩
      have hr := hcount r
      simp only [hw, heldCount_some, count_eq_countAt] at hr
      simp only [count_eq_countAt, State.at_e, State.at_m]
      cases hrel : l.rel with
      | true =>
        simp only [hrel, if_true, Except.ok.injEq] at hsb hr
        simpa [← hsb] using hr
      | false =>
        simp only [hrel, Bool.false_eq_true, if_false] at hsb hr
        have := countAt_releaseAll hsb r
        simp only [State.at_sb] at this
        omega
    · obtain ⟨sb, hok⟩ := releaseAll_ok (res := l.res) (sb := s.sb) fun r => by
        have hr := hcount r
        simp only [hw, heldCount_some, hrel, Bool.false_eq_true, if_false, count_eq_countAt] at hr
        omega
      cases herr.symm.trans hok

/-- Where the early release cannot go below 0, the one fault memory raises is DataAddressOutOfRange (R157, R158). -/
theorem memoryState_faultCause {s : State} (hf : s.fault = false)
    (hrel : ∀ l ∈ s.m, ∀ r, (l.res.countP fun p => p.reg = r) ≤ (s.count r).toNat)
    (h : (memoryState s).fault = true) : (memoryState s).faultCause = 3 := by
  obtain hn | ⟨l, hl⟩ := Option.eq_none_or_eq_some s.m
  · simp [memoryState, hn, hf] at h
  rw [memoryState_some hl] at *
  unfold memoryWork at *
  split_ifs at *
  · obtain ⟨-, e⟩ | ⟨-, -, e⟩ | ⟨sb, -, -, -, e⟩ | ⟨r, -, -, herr, -⟩ := loadMemory_cases (s := s.at .memory) hl
    · simp [e, Fault.code]
    · simp [e, hf] at h
    · simp [e, hf] at h
    · obtain ⟨sb, hok⟩ := releaseAll_ok (hrel l hl)
      cases herr.symm.trans hok
  · obtain ⟨-, e⟩ | ⟨-, e⟩ := storeMemory_cases (s := s.at .memory) hl
    · simp [e, Fault.code]
    · simp [e, hf] at h
  · simp [passMemory, hf] at h

/-- Memory moves M's reservations to W with the latch, except those it releases, and never releases below 0. -/
theorem memoryState_scoreboard {s : State} (hf : s.fault = false) (h : s.ScoreboardAfterWriteback) :
    (memoryState s).Sound State.ScoreboardAfterMemory := by
  obtain ⟨hcount, he, hm⟩ := h
  refine ⟨fun hnf => ?_, fun hft hc => ?_⟩
  · obtain ⟨hn, e⟩ | ⟨l, hl, -, -, e⟩ | ⟨l, hl, -, -, e⟩ | ⟨l, sb, hl, hload, -, hsb, e⟩ := memoryState_cases hnf
    · rw [e]
      exact ⟨by simpa [count_eq_countAt, hn] using hcount, he, nofun⟩
    case inr.inr.inr =>
      obtain ⟨hres, hrel⟩ := hm l hl
      rw [e]
      refine ⟨fun r => ?_, he, ?_⟩
      · have hr := hcount r
        simp only [hl, resCount_some, count_eq_countAt] at hr
        cases hfw : s.cfg.forwarding with
        | true =>
          simp only [hfw, if_true] at hsb
          have := countAt_releaseAll hsb r
          simp only [count_eq_countAt, heldCount_some, if_true]
          omega
        | false =>
          simp only [hfw, Bool.false_eq_true, if_false, Except.ok.injEq] at hsb
          simpa [count_eq_countAt, hrel, ← hsb] using hr
      · rintro _ ⟨⟩
        exact ⟨hres, fun hr => ⟨by simpa [hrel] using hr, hload⟩⟩
    all_goals
      obtain ⟨hres, hrel⟩ := hm l hl
      rw [e]
      refine ⟨by simpa [count_eq_countAt, hl, hrel] using hcount, he, ?_⟩
      rintro _ ⟨⟩
      exact ⟨hres, by simp [hrel]⟩
  · have h3 := memoryState_faultCause hf (fun l hl r => by rw [hcount r, hl, resCount_some]; omega) hft
    simp [h3] at hc

/-- Execute moves E's reservations to M with the latch. -/
theorem executeState_scoreboard {s : State} (h : s.ScoreboardAfterMemory) : (executeState s).ScoreboardAtDecode := by
  obtain ⟨hcount, he, hw⟩ := h
  obtain ⟨hn, e⟩ | ⟨l, hl, -, e⟩ | ⟨l, t, hl, -, e⟩ := executeState_cases s
  · rw [e]
    exact ⟨by simpa [count_eq_countAt, hn] using hcount, nofun, hw⟩
  all_goals
    obtain ⟨hres, hrel⟩ := he l hl
    rw [e]
    refine ⟨by simpa [count_eq_countAt, hl] using hcount, ?_, hw⟩
    rintro _ ⟨⟩
    exact ⟨by simpa using hres, by simpa using hrel⟩

/-- At decode no counter is above 4, so an issue, of at most two reservations, never passes 7. -/
theorem decodeState_scoreboard {s : State} (hf : s.fault = false) (h : s.ScoreboardAtDecode) :
    (decodeState s).fault = false ∧ (decodeState s).ScoreboardInv := by
  obtain ⟨hcount, hm, hw⟩ := h
  obtain hd | ⟨l, hd⟩ := Option.eq_none_or_eq_some s.d
  · have e : decodeState s = { s with e := none } := by simp only [decodeState, hd]
    rw [e]
    exact ⟨hf, fun _ => ⟨by simpa [count_eq_countAt] using hcount, nofun, hm, hw⟩⟩
  · rw [decodeState_some hd]
    obtain ⟨v1, v2, sb, -, -, hsb, e⟩ | ⟨-, e⟩ | ⟨r, herr, -⟩ :=
      issue_cases l.instr.src1 l.instr.src2 l.instr.dsts (s := s.at .decode) hd
    · rw [e]
      refine ⟨hf, fun _ => ⟨fun r => ?_, ?_, hm, hw⟩⟩
      · have hr := hcount r
        have := countAt_reserveAll hsb r
        simp only [count_eq_countAt, State.at_sb] at hr this
        simp only [count_eq_countAt, resCount_some, State.at_m, State.at_w]
        omega
      · rintro _ ⟨⟩
        exact ⟨rfl, rfl⟩
    · rw [e]
      exact ⟨hf, fun _ => ⟨by simpa [count_eq_countAt] using hcount, nofun, hm, hw⟩⟩
    · obtain ⟨sb, hok⟩ := reserveAll_ok (res := l.instr.dsts) (sb := s.sb) fun r => by
        have hr := hcount r
        have h1 := countP_dsts_le l.instr r
        have h2 := resCount_le (r := r) fun l hl => (hm l hl).1
        have h3 := heldCount_le_resCount r s.w
        have h4 := resCount_le (r := r) fun l hl => (hw l hl).1
        simp only [count_eq_countAt] at hr
        omega
      cases herr.symm.trans hok

/-- Fetch raises only its own two faults (R303, R304). -/
theorem fetchState_faultCause {s : State} (hf : s.fault = false) (h : (fetchState s).fault = true) :
    (fetchState s).faultCause = 1 ∨ (fetchState s).faultCause = 2 := by
  unfold fetchState at *
  split_ifs at *
  · simp [hf] at h
  · simp [hf] at h
  · obtain hc | ⟨w, hc⟩ := Option.eq_none_or_eq_some (s.codeAt s.pc)
    · simp [fetchInstrState, hc, Fault.code]
    · cases hi : decode s.cfg.nregs w with
      | error => simp [fetchInstrState, hc, hi, Fault.code]
      | ok i => simp [fetchInstrState, hc, hi, hf] at h
  · simp [hf] at h

/-- Fetch changes neither the scoreboard nor a latch whose reservations it counts. -/
theorem fetchState_scoreboard {s : State} (hf : s.fault = false) (h : s.ScoreboardInv) :
    (fetchState s).Sound State.ScoreboardInv := by
  constructor
  · intro hnf
    obtain ⟨-, e⟩ | ⟨-, -, e⟩ | ⟨-, -, -, e⟩ | ⟨w, i, -, -, -, -, -, e⟩ := fetchState_cases hnf <;>
      rw [e] <;> exact h
  · intro hft hc
    obtain h1 | h2 := fetchState_faultCause hf hft
    · simp [h1] at hc
    · simp [h2] at hc

/-! Cycle and step -/

/-- However the cycle begins, decode finds the scoreboard as it needs it. -/
theorem executeState_scoreboardAtDecode {s : State} (hf : s.fault = false) (h : s.ScoreboardInv) :
    (thenState (thenState (writebackState (beginCycle s)) memoryState) executeState).Sound
      State.ScoreboardAtDecode := by
  obtain ⟨hwf, hw⟩ := writebackState_scoreboard (s := beginCycle s) hf h
  refine ((State.Sound.of_no_fault hwf hw).thenState fun t => memoryState_scoreboard).thenState fun t htf ht => ?_
  exact .of_no_fault (by simpa using htf) (executeState_scoreboard ht)

/-- A cycle keeps the scoreboard invariant, and no fault it raises is InvariantViolation. -/
theorem cycleState_scoreboard {s : State} (hf : s.fault = false) (h : s.ScoreboardInv) :
    (cycleState s).Sound State.ScoreboardInv := by
  have hissued := (executeState_scoreboardAtDecode hf h).thenState fun t htf ht =>
    State.Sound.of_no_fault (decodeState_scoreboard htf ht).1 (decodeState_scoreboard htf ht).2
  exact hissued.thenState fun t => fetchState_scoreboard

/-- Settles O43: unit by unit, the count follows the reservations from E to M to W and out. -/
theorem scoreboardInvariantIsKept : Obligations.ScoreboardInvariantIsKept := by
  unfold Obligations.ScoreboardInvariantIsKept
  intro s t h hs
  exact step_keeps (fun s hl h hf => (cycleState_scoreboard hl.not_faulted h).1 hf hf) hs h

/-- Settles O44: the units that count in the scoreboard find every counter in range. -/
theorem invariantViolationIsUnreachable : Obligations.InvariantViolationIsUnreachable := by
  unfold Obligations.InvariantViolationIsUnreachable
  intro s t h hf hs
  have hsound : t.Sound State.ScoreboardInv := by
    by_cases hl : s.Live
    · cases (step_live hl).symm.trans hs
      exact cycleState_scoreboard hf h
    · rw [step_not_live hl hs]
      exact .of_no_fault hf h
  exact hsound.2

end Sys2Proof.Machine

/-! What a program sees of a step: who writes the counters, `halted`, the registers, the flags, the data memory and `pc`
(R30, R32, R34, R50, R53, R55, R159), and that instructions move from latch to latch (R44, R140). -/

namespace Sys2Proof.Machine

/-! Writeback: retired_count, halted and the registers -/

/-- Settles O10: only writeback counts, and under the scoreboard invariant it commits whatever W holds. -/
theorem retiredCountCountsCommits : Obligations.RetiredCountCountsCommits := by
  unfold Obligations.RetiredCountCountsCommits
  refine ⟨fun s t hl hsb h => ?_, rfl⟩
  cases (step_live hl).symm.trans h
  rw [cycleState_retiredCount]
  obtain ⟨hw, e⟩ | ⟨l, sb, hw, -, e⟩ :=
    writebackState_cases (writebackState_scoreboard (s := beginCycle s) hl.not_faulted hsb).1
  · rw [beginCycle_w] at hw
    simp [e, hw]
  · rw [beginCycle_w] at hw
    simp [e, hw]

/-- Settles O11: only the commit of HALT writes `halted`, and a halted engine's step changes nothing. -/
theorem haltedIsSetExactlyWhenHaltCommits : Obligations.HaltedIsSetExactlyWhenHaltCommits := by
  unfold Obligations.HaltedIsSetExactlyWhenHaltCommits
  refine ⟨fun s t hl hsb h => ?_, fun s t h hh => ?_, rfl⟩
  · have hnh : s.halted = false := hl.not_halted
    cases (step_live hl).symm.trans h
    rw [cycleState_halted]
    obtain ⟨hw, e⟩ | ⟨l, sb, hw, -, e⟩ :=
      writebackState_cases (writebackState_scoreboard (s := beginCycle s) hl.not_faulted hsb).1
    · rw [beginCycle_w] at hw
      simp [e, hw, hnh, isHalt]
    · rw [beginCycle_w] at hw
      simp [e, hw, hnh, isHalt]
  · have hl : ¬ s.Live := fun hl => by simp [hl.not_halted] at hh
    rwa [step_not_live hl h]

/-- Writeback writes W's reserved registers or, where it raises a fault, none. -/
theorem writebackState_regs {s : State} {l : Latch} (hw : s.w = some l) :
    (writebackState s).regs = commitRegs l l.res s.regs ∨
      ((writebackState s).fault = true ∧ (writebackState s).regs = s.regs) := by
  rw [writebackState_some hw]
  obtain ⟨sb, -, e⟩ | ⟨r, -, -, e⟩ := commitWith_cases (decide (l.instr = .halt)) (s := s.at .writeback) hw
  · exact .inl (by simp [e])
  · exact .inr (by simp [e])

theorem lastKind_last (before : List Reservation) (r : RegIdx) (k : Kind) {after : List Reservation}
    (h : ∀ p ∈ after, p.reg ≠ r) : lastKind r (before ++ ⟨r, k⟩ :: after) = some k := by
  induction before with
  | nil => simp [lastKind, (lastKind_none_iff r after).mpr h]
  | cons p rest ih => simp [lastKind, ih]

/-- Settles O32: the registers after a step are those writeback leaves, a commit of W's reservations in list order. -/
theorem onlyTheCommittingInstructionWritesRegisters : Obligations.OnlyTheCommittingInstructionWritesRegisters := by
  unfold Obligations.OnlyTheCommittingInstructionWritesRegisters
  intro s t hl h
  cases (step_live hl).symm.trans h
  simp only [reg_eq_regAt, cycleState_regs]
  refine ⟨fun hw => by simp [writebackState, hw], fun l hw r =>
    ⟨fun hne => ?_, fun hsb before after k hres hafter => ?_⟩⟩
  · obtain e | ⟨-, e⟩ := writebackState_regs (s := beginCycle s) hw
    · rw [e, regAt_commitRegs, (lastKind_none_iff r l.res).mpr hne]
      rfl
    · rw [e]
      rfl
  · have hf := (writebackState_scoreboard (s := beginCycle s) hl.not_faulted hsb).1
    obtain e | ⟨hft, -⟩ := writebackState_regs (s := beginCycle s) hw
    · rw [e, regAt_commitRegs, hres, lastKind_last before r k hafter]
      rfl
    · simp [hf] at hft

/-! Execute: the flags -/

/-- Execute leaves the flags or leaves exactly one set. -/
theorem executeState_flags (s : State) :
    (executeState s).flags = s.flags ∨
      (∃ l, s.e = some l ∧ l.instr.writesFlags = true) ∧ (executeState s).flags.oneHot = true := by
  obtain ⟨-, e⟩ | ⟨l, hl, -, e⟩ | ⟨l, t, hl, -, e⟩ := executeState_cases s
  · exact .inl (by rw [e])
  all_goals
    obtain ⟨-, hf⟩ | ⟨hw, hf⟩ := executed_flags l.instr l s.flags
    · exact .inl (by rw [e]; exact hf)
    · exact .inr ⟨⟨l, hl, hw⟩, by rw [e]; exact hf⟩

/-- Writeback leaves the other latches, if it raises no fault. -/
theorem writebackState_latches {s : State} (h : (writebackState s).fault = false) :
    (writebackState s).pc = s.pc ∧ (writebackState s).armed = s.armed ∧ (writebackState s).d = s.d ∧
      (writebackState s).e = s.e ∧ (writebackState s).m = s.m ∧ (writebackState s).redirect = s.redirect ∧
      (writebackState s).stalled = s.stalled := by
  obtain ⟨-, e⟩ | ⟨l, sb, -, -, e⟩ := writebackState_cases h <;> simp [e]

/-- Memory leaves the latches before it, if it raises no fault. -/
theorem memoryState_latches {s : State} (h : (memoryState s).fault = false) :
    (memoryState s).pc = s.pc ∧ (memoryState s).armed = s.armed ∧ (memoryState s).d = s.d ∧
      (memoryState s).e = s.e ∧ (memoryState s).redirect = s.redirect ∧ (memoryState s).stalled = s.stalled := by
  obtain ⟨-, e⟩ | ⟨l, -, -, -, e⟩ | ⟨l, -, -, -, e⟩ | ⟨l, sb, -, -, -, -, e⟩ := memoryState_cases h <;> simp [e]

/-- Settles O33: the flags after a step are those execute leaves, and it finds E as the cycle did. -/
theorem onlyTenInstructionsWriteFlags : Obligations.OnlyTenInstructionsWriteFlags := by
  unfold Obligations.OnlyTenInstructionsWriteFlags
  intro s t hl h hflags
  cases (step_live hl).symm.trans h
  have hkept : (thenState (writebackState (beginCycle s)) memoryState).flags = s.flags := by
    simp [thenState_field State.flags]
  rw [cycleState_flags]
  cases hf : (thenState (writebackState (beginCycle s)) memoryState).fault with
  | true => rw [thenState_faulted _ hf, hkept]
  | false =>
    rw [thenState_unfaulted _ hf]
    obtain ⟨hwf, hm⟩ := thenState_fault hf
    rw [hm] at hf hkept ⊢
    have he : (memoryState (writebackState (beginCycle s))).e = s.e := by
      simp [memoryState_latches hf, writebackState_latches hwf]
    obtain e | ⟨⟨l, hl, hw⟩, -⟩ := executeState_flags (memoryState (writebackState (beginCycle s)))
    · rw [e, hkept]
    · rw [he] at hl
      simp [hflags l hl] at hw

/-- Settles O45: every unit leaves the flags or leaves exactly one set. -/
theorem exactlyOneFlagStaysSet : Obligations.ExactlyOneFlagStaysSet := by
  unfold Obligations.ExactlyOneFlagStaysSet
  intro s t h hs
  refine step_keeps (P := fun u => u.flags.oneHot = true) (fun u hl hu => ?_) hs h
  refine cycleState_keeps (P := fun u => u.flags.oneHot = true) ?_ ?_ ?_ ?he ?_ ?_ ?_ hl.not_faulted hu
  case he =>
    intro v _ hv
    obtain e | ⟨-, e⟩ := executeState_flags v
    · rwa [e]
    · exact e
  all_goals simp

/-! Memory: the data memory -/

theorem isLoad_of_isStore {i : Instr} (h : i.isStore = true) : i.isLoad = false := by
  cases i <;> first | rfl | cases h

/-- A store in M whose address is in range writes its cell, and memory raises no fault. -/
theorem memoryState_mem_store {s : State} {l : Latch} (hm : s.m = some l) (hs : l.instr.isStore = true)
    (hr : s.inRange l.ea = true) : (memoryState s).mem = Memory.write s.mem (cellIndex l.ea) l.v1 := by
  rw [memoryState_some hm, memoryWork, if_neg (by simp [isLoad_of_isStore hs]), if_pos hs]
  obtain ⟨hr', -⟩ | ⟨-, e⟩ := storeMemory_cases (s := s.at .memory) hm
  · cases hr.symm.trans hr'
  · rw [e]
    rfl

/-- Without one, memory leaves the data memory. -/
theorem memoryState_mem_other {s : State} (h : ∀ l ∈ s.m, l.instr.isStore = true → s.inRange l.ea = false) :
    (memoryState s).mem = s.mem := by
  obtain hm | ⟨l, hm⟩ := Option.eq_none_or_eq_some s.m
  · simp [memoryState, hm]
  · rw [memoryState_some hm]
    unfold memoryWork
    split_ifs with hload hstore
    · simp
    · obtain ⟨-, e⟩ | ⟨hr, -⟩ := storeMemory_cases (s := s.at .memory) hm
      · simp [e]
      · cases hr.symm.trans (h l hm hstore)
    · simp [passMemory]

/-- So memory leaves the data memory or writes the one cell a store in M addresses, which exists. -/
theorem memoryState_mem_cases (s : State) :
    (memoryState s).mem = s.mem ∨ ∃ l, s.m = some l ∧ l.instr.isStore = true ∧ s.inRange l.ea = true ∧
      (memoryState s).mem = Memory.write s.mem (cellIndex l.ea) l.v1 := by
  by_cases h : ∃ l, s.m = some l ∧ l.instr.isStore = true ∧ s.inRange l.ea = true
  · obtain ⟨l, hm, hs, hr⟩ := h
    exact .inr ⟨l, hm, hs, hr, memoryState_mem_store hm hs hr⟩
  · refine .inl (memoryState_mem_other fun l hm hs => ?_)
    exact Bool.eq_false_iff.mpr fun hr => h ⟨l, hm, hs, hr⟩

/-- Settles O46: the one write keeps the canonical form and names a cell that exists. -/
theorem memoryInvariantIsKept : Obligations.MemoryInvariantIsKept := by
  unfold Obligations.MemoryInvariantIsKept
  intro s t h hs
  refine step_keeps (fun u hl hu => ?_) hs h
  refine cycleState_keeps (P := State.MemoryInv) ?_ ?_ ?hm ?_ ?_ ?_ ?_ hl.not_faulted hu
  case hm =>
    rintro v - ⟨hwf, hlt⟩
    rw [State.MemoryInv, (memoryState_cfg_code v).1]
    obtain e | ⟨l, -, -, hr, e⟩ := memoryState_mem_cases v
    · rw [e]
      exact ⟨hwf, hlt⟩
    · rw [e]
      refine ⟨wf_write hwf _ _, fun c hc => ?_⟩
      obtain hc | ⟨rfl, -⟩ := mem_of_mem_write hc
      · exact hlt c hc
      · exact cellIndex_lt hr
  all_goals simp [State.MemoryInv]

/-- Settles O34: the data memory after a step is what memory leaves, and it finds M as the cycle did. -/
theorem onlyAStoreInMemoryWritesItsCell : Obligations.OnlyAStoreInMemoryWritesItsCell := by
  unfold Obligations.OnlyAStoreInMemoryWritesItsCell
  intro s t hl hmem h
  cases (step_live hl).symm.trans h
  have hkept : (writebackState (beginCycle s)).mem = s.mem := by simp
  rw [cycleState_mem]
  constructor
  · intro a ha
    cases hf : (writebackState (beginCycle s)).fault with
    | true => simp [thenState_faulted _ hf]
    | false =>
      have hm : (writebackState (beginCycle s)).m = s.m := by simp [writebackState_latches hf]
      rw [thenState_unfaulted _ hf]
      obtain e | ⟨l, hl, hs, -, e⟩ := memoryState_mem_cases (writebackState (beginCycle s))
      · simp [e]
      · rw [hm] at hl
        rw [e, hkept, read_write hmem.1, if_neg (ha l hl hs).symm]
  · intro hsb l hm hs h0 hlt
    have hf := (writebackState_scoreboard (s := beginCycle s) hl.not_faulted hsb).1
    have hm' : (writebackState (beginCycle s)).m = some l := by simpa [writebackState_latches hf] using hm
    have hr : (writebackState (beginCycle s)).inRange l.ea = true := by simp [State.inRange, h0, hlt]
    rw [thenState_unfaulted _ hf, memoryState_mem_store hm' hs hr, hkept, read_write hmem.1, if_pos rfl]

end Sys2Proof.Machine

/-! The latches, `pc` and fetch through a cycle that raises no fault (R32, R44, R140, R142, R162 to R165), and the
invariants of what is in flight: only legal instructions, each the one the store holds at its fetch address (R30, R33,
R51, R106, R109, R143). -/

namespace Sys2Proof.Machine

/-! Units without a fault -/

/-- Decode leaves every latch but E, if it raises no fault. -/
theorem decodeState_latches {s : State} (h : (decodeState s).fault = false) :
    (decodeState s).pc = s.pc ∧ (decodeState s).armed = s.armed ∧ (decodeState s).d = s.d ∧
      (decodeState s).m = s.m ∧ (decodeState s).w = s.w ∧ (decodeState s).redirect = s.redirect := by
  obtain ⟨-, e⟩ | ⟨l, v1, v2, sb, -, -, -, -, e⟩ | ⟨l, -, -, e⟩ := decodeState_cases h <;> simp [e]

/-- Fetch leaves every latch but D, if it raises no fault. -/
theorem fetchState_latches {s : State} (h : (fetchState s).fault = false) :
    (fetchState s).e = s.e ∧ (fetchState s).m = s.m ∧ (fetchState s).w = s.w := by
  obtain ⟨-, e⟩ | ⟨-, -, e⟩ | ⟨-, -, -, e⟩ | ⟨w, i, -, -, -, -, -, e⟩ := fetchState_cases h <;> simp [e]

/-- In a cycle without a fault execute finds E, D, `pc` and fetch as the cycle did, and no signal raised. -/
theorem cycleState_toExecute {s : State} (h : (cycleState s).fault = false) :
    ∃ sw sm, sw = writebackState (beginCycle s) ∧ sm = memoryState sw ∧
      sw.fault = false ∧ sm.fault = false ∧ (decodeState (executeState sm)).fault = false ∧
      (fetchState (decodeState (executeState sm))).fault = false ∧
      cycleState s = endCycle (fetchState (decodeState (executeState sm))) ∧
      sw.m = s.m ∧ sm.e = s.e ∧ sm.d = s.d ∧ sm.pc = s.pc ∧ sm.armed = s.armed ∧ sm.redirect = false ∧
      sm.stalled = false := by
  obtain ⟨sw, sm, se, sd, rfl, rfl, rfl, rfl, e, hw, hm, -, hd⟩ := cycleState_noFault h
  rw [e, endCycle_fault] at h
  refine ⟨_, _, rfl, rfl, hw, hm, hd, h, e, ?_⟩
  simp [memoryState_latches hm, writebackState_latches hw]

/-- Behind a redirect decode and fetch leave bubbles (R164, R165). -/
theorem fetchState_decodeState_redirected {s : State} (hr : s.redirect = true) (hd : s.d = none) :
    fetchState (decodeState s) = { s with e := none } := by
  have e : decodeState s = { s with e := none } := by simp only [decodeState, hd]
  simp [e, fetchState, hr, hd]

/-- What fetch does to `pc` and D in a cycle without a redirect: nothing, or it reads at `pc` and advances it. -/
theorem fetchState_pc {s : State} (h : (fetchState s).fault = false) :
    (fetchState s).pc = s.pc ∨
      ((fetchState s).pc = nextPc s.pc ∧ ∃ i, (fetchState s).d = some (fetchedLatch i s.pc)) := by
  obtain ⟨-, e⟩ | ⟨-, -, e⟩ | ⟨-, -, -, e⟩ | ⟨w, i, -, -, -, -, -, e⟩ := fetchState_cases h
  · exact .inl (by rw [e])
  · exact .inl (by rw [e])
  · exact .inl (by rw [e])
  · exact .inr (by rw [e]; exact ⟨rfl, i, rfl⟩)

/-- A taken transfer is that of a JUMP, a JALR or a branch, to the target of its rule. -/
theorem target_of_takes {l : Latch} {f : Flags} (h : l.instr.takes f = true) :
    (∃ rs1 imm, l.instr = .jump rs1 imm ∧ l.target = wrap (sval l.v1 + sval imm)) ∨
    (∃ rd rs1 imm, l.instr = .jalr rd rs1 imm ∧ l.target = wrap (sval l.v1 + sval imm)) ∨
    (∃ imm, l.instr ∈ [.bz imm, .bnz imm, .bp imm, .bnp imm, .bn imm, .bnn imm] ∧
      l.target = wrap (sval l.pc + sval imm)) := by
  cases hi : l.instr with
  | jump rs1 imm => exact .inl ⟨rs1, imm, rfl, by simp [Latch.target, hi]⟩
  | jalr rd rs1 imm => exact .inr (.inl ⟨rd, rs1, imm, rfl, by simp [Latch.target, hi]⟩)
  | bz imm | bnz imm | bp imm | bnp imm | bn imm | bnn imm =>
    exact .inr (.inr ⟨imm, by simp, by simp [Latch.target, hi]⟩)
  | _ => simp [hi, Instr.takes] at h

/-- Settles O35: without a taken transfer only fetch writes `pc`; with one execute does, and nothing is fetched. -/
theorem pcChangesOnlyByFetchOrRedirect : Obligations.PcChangesOnlyByFetchOrRedirect := by
  unfold Obligations.PcChangesOnlyByFetchOrRedirect
  intro s t hl h hf
  cases (step_live hl).symm.trans h
  obtain ⟨-, sm, -, -, -, -, hdf, hff, e, -, he, -, hpc, -, -, -⟩ := cycleState_toExecute hf
  simp only [e, endCycle_pc, endCycle_d, endCycle_e, endCycle_armed]
  obtain ⟨-, ee⟩ | ⟨l, -, -, ee⟩ | ⟨l, t, hle, ht, ee⟩ := executeState_cases sm
  case inr.inr =>
    rw [fetchState_decodeState_redirected (by rw [ee]) (by rw [ee]), ee]
    rw [executed_target] at ht
    split_ifs at ht with htakes
    cases ht
    exact .inr (.inr ⟨l, he ▸ hle, rfl, rfl, rfl, target_of_takes htakes⟩)
  all_goals
    have hpc' : (decodeState (executeState sm)).pc = s.pc := by
      rw [(decodeState_latches hdf).1, ee, hpc]
    obtain hp | ⟨hp, i, hd⟩ := fetchState_pc hff
    · exact .inl (hp.trans hpc')
    · rw [hpc'] at hp hd
      exact .inr (.inl ⟨hp, _, hd, rfl⟩)

/-- Settles O42: only execute writes M and only memory writes W, each a latch of the same instruction. -/
theorem instructionsMoveInProgramOrder : Obligations.InstructionsMoveInProgramOrder := by
  unfold Obligations.InstructionsMoveInProgramOrder
  intro s t hl h hf
  cases (step_live hl).symm.trans h
  obtain ⟨sw, sm, -, rfl, -, hmf, hdf, hff, e, hm, he, -⟩ := cycleState_toExecute hf
  have hlast : (cycleState s).m = (executeState (memoryState sw)).m ∧
      (cycleState s).w = (executeState (memoryState sw)).w := by
    simp [e, fetchState_latches hff, decodeState_latches hdf]
  rw [hlast.1, hlast.2, ← he, ← hm]
  constructor
  · obtain ⟨hn, ee⟩ | ⟨l, hl, -, ee⟩ | ⟨l, t, hl, -, ee⟩ := executeState_cases (memoryState sw)
    · simp [ee, hn]
    · rw [ee, hl]
      simp
    · rw [ee, hl]
      simp
  · have hw : (executeState (memoryState sw)).w = (memoryState sw).w := by
      obtain ⟨-, ee⟩ | ⟨l, -, -, ee⟩ | ⟨l, t, -, -, ee⟩ := executeState_cases (memoryState sw) <;> rw [ee]
    rw [hw]
    obtain ⟨hn, em⟩ | ⟨l, hl, -, -, em⟩ | ⟨l, hl, -, -, em⟩ | ⟨l, sb, hl, -, -, -, em⟩ := memoryState_cases hmf
    all_goals rw [em]
    · simp [hn]
    · simp [hl]
    · simp [hl]
    · simp [hl]

/-! Legal instructions and the registers they name -/

theorem encoding_statement (i : Instr) : Laws.Encoding.Statement i :=
  match i with
  | .add .. => Laws.Encoding.add ..
  | .sub .. => Laws.Encoding.sub ..
  | .mul .. => Laws.Encoding.mul ..
  | .and .. => Laws.Encoding.and ..
  | .or .. => Laws.Encoding.or ..
  | .xor .. => Laws.Encoding.xor ..
  | .addl .. => Laws.Encoding.addl ..
  | .subl .. => Laws.Encoding.subl ..
  | .movc .. => Laws.Encoding.movc ..
  | .cmp .. => Laws.Encoding.cmp ..
  | .cml .. => Laws.Encoding.cml ..
  | .load .. => Laws.Encoding.load ..
  | .loadp .. => Laws.Encoding.loadp ..
  | .store .. => Laws.Encoding.store ..
  | .storep .. => Laws.Encoding.storep ..
  | .jump .. => Laws.Encoding.jump ..
  | .jalr .. => Laws.Encoding.jalr ..
  | .bz .. => Laws.Encoding.bz ..
  | .bnz .. => Laws.Encoding.bnz ..
  | .bp .. => Laws.Encoding.bp ..
  | .bnp .. => Laws.Encoding.bnp ..
  | .bn .. => Laws.Encoding.bn ..
  | .bnn .. => Laws.Encoding.bnn ..
  | .nop => Laws.Encoding.nop
  | .halt => Laws.Encoding.halt

/-- A legal instruction reserves only registers that exist. -/
theorem dsts_reg_lt {i : Instr} {n : Nat} (h : i.wf n = true) {p : Reservation} (hp : p ∈ i.dsts) :
    p.reg.toNat < n := by
  obtain ⟨-, -, -, -, hdsts⟩ := encoding_statement i
  have hall : ∀ r ∈ i.regFields, r.toNat < n := by simpa [Instr.wf] using h
  exact hall _ (hdsts p hp)

theorem wf_of_decode {n : Nat} {w : InstrWord} {i : Instr} (h : decode n w = .ok i) : i.wf n = true := by
  unfold decode at h
  split at h
  · split at h
    · cases h
    · split at h
      · rename_i hwf
        cases h
        exact hwf
      · cases h
  · cases h

/-- Writeback writes no register that does not exist. -/
theorem writebackState_registers {s : State} (h : s.RegistersInv) (hf : s.fault = false) {r : RegIdx}
    (hr : s.cfg.nregs ≤ r.toNat) : (writebackState s).reg r = 0 := by
  obtain ⟨hregs, hlatches⟩ := h
  obtain ⟨-, -, -, hw⟩ := hlatches hf
  obtain hn | ⟨l, hl⟩ := Option.eq_none_or_eq_some s.w
  · simpa [writebackState, hn] using hregs r hr
  · obtain e | ⟨-, e⟩ := writebackState_regs hl
    · obtain ⟨hwf, hres⟩ := hw l hl
      have hnone : lastKind r l.res = none := by
        rw [lastKind_none_iff, hres]
        rintro p hp rfl
        exact absurd (dsts_reg_lt hwf hp) (by omega)
      rw [reg_eq_regAt, e, regAt_commitRegs, hnone]
      exact hregs r hr
    · rw [reg_eq_regAt, e]
      exact hregs r hr

/-- Every latch in flight meets a condition: `D` where it waits in decode, `Q` once it is issued. -/
def State.InFlight (D Q : Latch → Prop) (s : State) : Prop :=
  (∀ l ∈ s.d, D l) ∧ (∀ l ∈ s.e, Q l) ∧ (∀ l ∈ s.m, Q l) ∧ ∀ l ∈ s.w, Q l

section InFlight

variable {D Q : Latch → Prop} {s : State}

theorem writebackState_inFlight (h : s.InFlight D Q) (hf : (writebackState s).fault = false) :
    (writebackState s).InFlight D Q := by
  obtain ⟨-, e⟩ | ⟨l, sb, -, -, e⟩ := writebackState_cases hf <;> rw [e] <;> exact h

theorem memoryState_inFlight (hload : ∀ l v b, Q l → Q { l with result := v, rel := b }) (h : s.InFlight D Q)
    (hf : (memoryState s).fault = false) : (memoryState s).InFlight D Q := by
  obtain ⟨hd, he, hm, -⟩ := h
  obtain ⟨-, e⟩ | ⟨l, hl, -, -, e⟩ | ⟨l, hl, -, -, e⟩ | ⟨l, sb, hl, -, -, -, e⟩ := memoryState_cases hf <;> rw [e]
  · exact ⟨hd, he, hm, nofun⟩
  · exact ⟨hd, he, hm, fun _ h => Option.mem_some.mp h ▸ hm l hl⟩
  · exact ⟨hd, he, hm, fun _ h => Option.mem_some.mp h ▸ hm l hl⟩
  · exact ⟨hd, he, hm, fun _ h => Option.mem_some.mp h ▸ hload l _ _ (hm l hl)⟩

theorem executeState_inFlight (hexecute : ∀ l f, Q l → Q (executed l.instr l f).latch) (h : s.InFlight D Q) :
    (executeState s).InFlight D Q := by
  obtain ⟨hd, he, -, hw⟩ := h
  obtain ⟨-, e⟩ | ⟨l, hl, -, e⟩ | ⟨l, t, hl, -, e⟩ := executeState_cases s <;> rw [e]
  · exact ⟨hd, he, nofun, hw⟩
  · exact ⟨hd, he, fun _ h => Option.mem_some.mp h ▸ hexecute l _ (he l hl), hw⟩
  · exact ⟨nofun, he, fun _ h => Option.mem_some.mp h ▸ hexecute l _ (he l hl), hw⟩

theorem decodeState_inFlight
    (hissue : ∀ l v1 v2, D l → Q { l with v1 := v1, v2 := v2, res := l.instr.dsts, rel := false })
    (h : s.InFlight D Q) (hf : (decodeState s).fault = false) : (decodeState s).InFlight D Q := by
  obtain ⟨hd, -, hm, hw⟩ := h
  obtain ⟨-, e⟩ | ⟨l, v1, v2, sb, hl, -, -, -, e⟩ | ⟨l, -, -, e⟩ := decodeState_cases hf <;> rw [e]
  · exact ⟨hd, nofun, hm, hw⟩
  · exact ⟨hd, fun _ h => Option.mem_some.mp h ▸ hissue l v1 v2 (hd l hl), hm, hw⟩
  · exact ⟨hd, nofun, hm, hw⟩

theorem fetchState_inFlight
    (hfetch : ∀ pc w i, s.codeAt pc = some w → decode s.cfg.nregs w = .ok i → D (fetchedLatch i pc))
    (h : s.InFlight D Q) (hf : (fetchState s).fault = false) : (fetchState s).InFlight D Q := by
  obtain ⟨hd, he, hm, hw⟩ := h
  obtain ⟨-, e⟩ | ⟨-, -, e⟩ | ⟨-, -, -, e⟩ | ⟨w, i, -, -, -, hc, hi, e⟩ := fetchState_cases hf <;> rw [e]
  · exact ⟨nofun, he, hm, hw⟩
  · exact ⟨hd, he, hm, hw⟩
  · exact ⟨nofun, he, hm, hw⟩
  · exact ⟨fun _ h => Option.mem_some.mp h ▸ hfetch s.pc w i hc hi, he, hm, hw⟩

/-- A cycle without a fault keeps such a condition where what fetch delivers meets `D`, an issue takes `D` to `Q`, and
execute and memory, which compute a latch's fields, keep `Q`. -/
theorem cycleState_inFlight
    (hfetch : ∀ pc w i, s.codeAt pc = some w → decode s.cfg.nregs w = .ok i → D (fetchedLatch i pc))
    (hissue : ∀ l v1 v2, D l → Q { l with v1 := v1, v2 := v2, res := l.instr.dsts, rel := false })
    (hexecute : ∀ l f, Q l → Q (executed l.instr l f).latch)
    (hload : ∀ l v b, Q l → Q { l with result := v, rel := b })
    (h : s.InFlight D Q) (hf : (cycleState s).fault = false) : (cycleState s).InFlight D Q := by
  obtain ⟨-, -, -, sd, rfl, rfl, rfl, rfl, e, hwf, hmf, -, hdf⟩ := cycleState_noFault hf
  rw [e] at hf ⊢
  have hw := writebackState_inFlight (s := beginCycle s) h hwf
  have he := executeState_inFlight hexecute (memoryState_inFlight hload hw hmf)
  refine fetchState_inFlight (fun pc w i hc hi => hfetch pc w i ?_ ?_) (decodeState_inFlight hissue he hdf) hf
  · rw [codeAt_eq_some] at hc ⊢
    simpa using hc
  · simpa using hi

end InFlight

/-- Settles O47: only legal instructions are fetched, decode reserves what their rules say, and writeback is the one
unit that writes registers. -/
theorem registersInvariantIsKept : Obligations.RegistersInvariantIsKept := by
  unfold Obligations.RegistersInvariantIsKept
  intro s t h hs
  refine step_keeps (fun u hl hu => ?_) hs h
  refine ⟨fun r hr => ?_, ?_⟩
  · rw [reg_eq_regAt, cycleState_regs, ← reg_eq_regAt]
    exact writebackState_registers (s := beginCycle u) hu hl.not_faulted (by simpa using hr)
  · rw [State.LatchesLegal, (cycleState_cfg_code u).1]
    exact cycleState_inFlight (D := fun l => l.instr.wf u.cfg.nregs)
      (Q := fun l => l.instr.wf u.cfg.nregs ∧ l.res = l.instr.dsts)
      (fun _ _ _ _ hi => wf_of_decode hi) (fun _ _ _ h => ⟨h, rfl⟩) (fun l f h => by simpa using h)
      (fun _ _ _ h => h) (hu.2 hl.not_faulted)

/-- Settles O54: latches pass instructions on with their fetch addresses, and fetch delivers what it has just read. -/
theorem fetchedInvariantIsKept : Obligations.FetchedInvariantIsKept := by
  unfold Obligations.FetchedInvariantIsKept
  intro s t h hs
  refine step_keeps (fun u hl hu hf => ?_) hs h
  have hfetch : ∀ pc w i, u.codeAt pc = some w → decode u.cfg.nregs w = .ok i →
      (fetchedLatch i pc).FetchedFrom u := by
    intro pc w i hc hi
    obtain ⟨hbase, hmod, hword⟩ := (codeAt_eq_some u pc w).mp hc
    exact ⟨hbase, hmod, w, hword, hi⟩
  have hkept := cycleState_inFlight (D := fun l => l.FetchedFrom u) (Q := fun l => l.FetchedFrom u) hfetch
    (fun _ _ _ h => h) (fun l f h => by simpa [Latch.FetchedFrom] using h) (fun _ _ _ h => h) (hu hl.not_faulted) hf
  simpa only [State.InFlight, Latch.FetchedFrom, cycleState_cfg_code] using hkept

/-- Settles O28: no word stands at such an address, and fetch raises the fault where it reads none. -/
theorem fetchOutOfRangeFaults : Obligations.FetchOutOfRangeFaults := by
  unfold Obligations.FetchOutOfRangeFaults
  intro s hr hs ha hpc
  have hnone : s.codeAt s.pc = none := by
    refine Option.eq_none_iff_forall_ne_some.mpr fun w hw => ?_
    obtain ⟨hbase, hmod, hword⟩ := (codeAt_eq_some s s.pc w).mp hw
    obtain ⟨hlt, -⟩ := List.getElem?_eq_some_iff.mp hword
    omega
  refine ⟨?_, rfl, rfl⟩
  rw [fetchUnit_eq]
  simp [fetchState, hr, hs, ha, fetchInstrState, hnone]

/-! Construction and reset -/

/-- An image with one more entry: it is written where it names a cell. -/
theorem preloadImage_concat (n : Nat) (image : List (Nat × Word)) (c : Nat × Word) :
    preloadImage n (image ++ [c]) =
      if c.1 < n then Memory.write (preloadImage n image) c.1 c.2 else preloadImage n image := by
  simp [preloadImage]

/-- The last entry of an image that names the cell `a`, among those that name a cell at all. -/
def lastEntry (n : Nat) (image : List (Nat × Word)) (a : Nat) : Option (Nat × Word) :=
  image.reverse.find? fun c => c.1 == a && decide (c.1 < n)

/-- A preloaded cell reads the value of its last entry, and 0 where it has none. -/
theorem read_preloadImage (n : Nat) (image : List (Nat × Word)) (a : Nat) :
    Memory.read (preloadImage n image) a = (lastEntry n image a).elim 0 Prod.snd := by
  induction image using List.reverseRecOn with
  | nil => rfl
  | append_singleton image c ih =>
    rw [preloadImage_concat]
    by_cases hn : c.1 < n
    · rw [if_pos hn, read_write (wf_preloadImage n image), ih]
      by_cases ha : c.1 = a
      · simp [lastEntry, hn, ← ha]
      · simp [lastEntry, ha, Ne.symm ha]
    · rw [if_neg hn, ih]
      simp [lastEntry, hn]

/-- A preloaded memory lists only cells that exist. -/
theorem preloadImage_lt (n : Nat) (image : List (Nat × Word)) : ∀ c ∈ preloadImage n image, c.1 < n := by
  induction image using List.reverseRecOn with
  | nil => simp [preloadImage]
  | append_singleton image c ih =>
    rw [preloadImage_concat]
    split_ifs with hn
    · intro c' hc
      obtain hc | ⟨rfl, -⟩ := mem_of_mem_write hc
      · exact ih c' hc
      · exact hn
    · exact ih

theorem initial_reg (cfg : Params) (code : List InstrWord) (mem : List Cell) (r : RegIdx) :
    (State.initial cfg code mem).reg r = 0 := by
  simp [State.initial, State.reg, regAt]

theorem initial_count (cfg : Params) (code : List InstrWord) (mem : List Cell) (r : RegIdx) :
    (State.initial cfg code mem).count r = 0 := by
  simp [State.initial, State.count, countAt]

theorem construct_next (cfg : Params) {code : List InstrWord} (image : List (Nat × Word)) (hc : code ≠ []) :
    construct cfg code image = .next (State.initial cfg code (preloadImage cfg.dmemSize image)) := by
  simp [construct, hc]

/-- Settles O6: construction is `State.initial` on the preloaded memory. -/
theorem constructionGivesTheResetState : Obligations.ConstructionGivesTheResetState := by
  unfold Obligations.ConstructionGivesTheResetState
  intro cfg code image
  refine ⟨fun hc => by simp [construct, hc], fun hc => ⟨_, construct_next cfg image hc, ?_⟩⟩
  refine ⟨initial_reg _ _ _, rfl, rfl, rfl, rfl, rfl, rfl, rfl, rfl, rfl, initial_count _ _ _, rfl, rfl, rfl, rfl,
    rfl, rfl, fun a => (read_preloadImage cfg.dmemSize image a).trans ?_⟩
  unfold lastEntry
  cases image.reverse.find? fun c => c.1 == a && decide (c.1 < cfg.dmemSize) <;> rfl

/-- Bubbles everywhere and nothing counted meet every invariant of what is in flight. -/
theorem initial_inv (cfg : Params) (code : List InstrWord) {mem : List Cell}
    (hmem : Memory.wf mem ∧ ∀ c ∈ mem, c.1 < cfg.dmemSize) :
    (State.initial cfg code mem).ScoreboardInv ∧ (State.initial cfg code mem).MemoryInv ∧
      (State.initial cfg code mem).RegistersInv ∧ (State.initial cfg code mem).HaltInv ∧
      (State.initial cfg code mem).PcInv ∧ (State.initial cfg code mem).FetchedInv := by
  refine ⟨fun _ => ⟨fun r => ?_, nofun, nofun, nofun⟩, hmem,
    ⟨fun r _ => initial_reg cfg code mem r, fun _ => ⟨nofun, nofun, nofun, nofun⟩⟩,
    fun _ => ⟨?_, ?_, ?_, ?_, nofun⟩, nofun, fun _ => ⟨nofun, nofun, nofun, nofun⟩⟩
  · rw [initial_count]
    rfl
  all_goals
    rintro ⟨l, hl, -⟩
    cases hl

/-- The ranges of R9 ask for exactly one flag in FLAGS_RESET (R35). -/
theorem oneHot_of_ok {cfg : Params} {n : Nat} (h : cfg.ok n = true) : cfg.flagsReset.oneHot = true := by
  unfold Params.ok at h
  exact (Bool.and_eq_true _ _ ▸ h).2

/-- Settles O50: reset and every construction are `State.initial`, on a memory that construction makes canonical. -/
theorem resetMeetsTheInvariants : Obligations.ResetMeetsTheInvariants := by
  unfold Obligations.ResetMeetsTheInvariants
  refine ⟨?_, fun cfg code image s hok h => ?_⟩
  · obtain ⟨hsb, hmem, hregs, hhalt, hpc, hfetched⟩ :=
      initial_inv Params.default [] (mem := []) ⟨⟨.nil, nofun⟩, nofun⟩
    exact ⟨hsb, rfl, hmem, hregs, hhalt, hpc, hfetched⟩
  · have hc : s = State.initial cfg code (preloadImage cfg.dmemSize image) := by
      unfold construct at h
      split_ifs at h
      cases h
      rfl
    obtain ⟨hsb, hmem, hregs, hhalt, hpc, hfetched⟩ :=
      initial_inv cfg code ⟨wf_preloadImage cfg.dmemSize image, preloadImage_lt cfg.dmemSize image⟩
    rw [hc]
    exact ⟨hsb, oneHot_of_ok hok, hmem, hregs, hhalt, hpc, hfetched⟩

end Sys2Proof.Machine

/-! The pipeline refines the sequential machine (R78, R140, R147, R176, R177). The idea: what a program sees once the
issued instructions have finished is computed from what it sees now by finishing W, then M, then E, as functions of what
is seen. A unit of a cycle only carries such work out, so it keeps the result; decode alone adds to it, one instruction
whose operands are read as the finished instructions leave them. -/

namespace Sys2Proof.Machine

/-! Finishing the issued instructions -/

/-- The latch once memory has processed it (R156, R158). -/
def Latch.accessed (forwarding : Bool) (mem : List Cell) (l : Latch) : Latch :=
  if l.instr.isLoad then
    { l with result := Memory.read mem (cellIndex l.ea), rel := if forwarding then true else l.rel }
  else l

/-- The data memory once memory has processed the latch (R157). -/
def Latch.stores (mem : List Cell) (l : Latch) : List Cell :=
  if l.instr.isStore then Memory.write mem (cellIndex l.ea) l.v1 else mem

/-- What is seen once the instruction in W has committed. -/
def finishW (x : Option Latch) (a : Seen) : Seen :=
  match x with
  | none => a
  | some l => { a with regs := commitRegs l l.res a.regs, halted := a.halted || decide (l.instr = .halt) }

/-- What is seen once the instruction in M has accessed memory and committed. -/
def finishM (forwarding : Bool) (x : Option Latch) (a : Seen) : Seen :=
  match x with
  | none => a
  | some l => finishW (some (l.accessed forwarding a.mem)) { a with mem := l.stores a.mem }

/-- What is seen once the instruction in E has executed, accessed memory and committed. -/
def finishE (forwarding : Bool) (x : Option Latch) (a : Seen) : Seen :=
  match x with
  | none => a
  | some l =>
    finishM forwarding (some (executed l.instr l a.flags).latch)
      { a with
        flags := (executed l.instr l a.flags).flags
        next := (executed l.instr l a.flags).target.getD a.next }

/-- What is seen once W, then M has finished: the older instruction first. -/
def State.finishedMW (s : State) : Seen :=
  finishM s.cfg.forwarding s.m (finishW s.w s.seen)

/-- What is seen once all issued instructions have finished. -/
def State.finished (s : State) : Seen :=
  finishE s.cfg.forwarding s.e s.finishedMW

/-- Finishing an instruction writes no flag and no address. -/
theorem finishW_frame (x : Option Latch) (a : Seen) :
    (finishW x a).flags = a.flags ∧ (finishW x a).mem = a.mem ∧ (finishW x a).next = a.next := by
  cases x <;> simp [finishW]

theorem finishM_next (forwarding : Bool) (x : Option Latch) (a : Seen) :
    (finishM forwarding x a).next = a.next := by
  cases x with
  | none => rfl
  | some l => exact (finishW_frame _ _).2.2

/-- Where the program goes on has no part in finishing W and M. -/
theorem finishedMW_of_next {s t : State} (hcfg : t.cfg = s.cfg) (hm : t.m = s.m) (hw : t.w = s.w)
    (hseen : t.seen = { s.seen with next := t.nextAddress }) :
    t.finishedMW = { s.finishedMW with next := t.nextAddress } := by
  unfold State.finishedMW
  rw [hcfg, hm, hw, hseen]
  cases s.m <;> cases s.w <;> rfl

/-! Units carry it out -/

/-- Writeback finishes W. -/
theorem writebackState_seen {s : State} (h : (writebackState s).fault = false) :
    (writebackState s).seen = finishW s.w s.seen := by
  obtain ⟨hw, e⟩ | ⟨l, sb, hw, -, e⟩ := writebackState_cases h
  · rw [e, hw]
    rfl
  · rw [e, hw]
    rfl

theorem Latch.accessed_load (forwarding : Bool) (mem : List Cell) {l : Latch} (h : l.instr.isLoad = true) :
    l.accessed forwarding mem =
      { l with result := Memory.read mem (cellIndex l.ea), rel := if forwarding then true else l.rel } := if_pos h

theorem Latch.accessed_other (forwarding : Bool) (mem : List Cell) {l : Latch} (h : l.instr.isLoad = false) :
    l.accessed forwarding mem = l := if_neg (by simp [h])

theorem Latch.stores_store (mem : List Cell) {l : Latch} (h : l.instr.isStore = true) :
    l.stores mem = Memory.write mem (cellIndex l.ea) l.v1 := if_pos h

theorem Latch.stores_other (mem : List Cell) {l : Latch} (h : l.instr.isStore = false) : l.stores mem = mem :=
  if_neg (by simp [h])

/-- Once memory has processed M into W, finishing W finishes what was in M. -/
theorem finishW_memoryState {s : State} (h : (memoryState s).fault = false) :
    finishW (memoryState s).w (memoryState s).seen = finishM s.cfg.forwarding s.m s.seen := by
  obtain ⟨hm, e⟩ | ⟨l, hm, hl, hs, e⟩ | ⟨l, hm, hs, -, e⟩ | ⟨l, sb, hm, hl, -, -, e⟩ := memoryState_cases h
  · rw [e, hm]
    rfl
  · rw [e, hm, finishM, l.accessed_other _ _ hl, l.stores_other _ hs]
    rfl
  · rw [e, hm, finishM, l.accessed_other _ _ (isLoad_of_isStore hs), l.stores_store _ hs]
    rfl
  · have hs : l.instr.isStore = false := Bool.eq_false_iff.mpr fun hs => by simp [isLoad_of_isStore hs] at hl
    rw [e, hm, finishM, l.accessed_load _ _ hl, l.stores_other _ hs]
    rfl

/-- Once execute has moved E to M, finishing W and M finishes what was in W and E. -/
theorem finishedMW_executeState (s : State) :
    (executeState s).finishedMW = finishE s.cfg.forwarding s.e (finishW s.w s.seen) := by
  obtain ⟨he, e⟩ | ⟨l, he, ht, e⟩ | ⟨l, t, he, ht, e⟩ := executeState_cases s
  · rw [e, he]
    rfl
  all_goals
    have hflags : (finishW s.w s.seen).flags = s.flags := (finishW_frame s.w s.seen).1
    rw [e, he, State.finishedMW, finishE, hflags, ht]
    cases s.w <;> rfl

/-- Writeback, memory and execute finish nothing but what was issued: what is seen at the end stays. -/
theorem finishedMW_executeState_memoryState {s : State} (hw : (writebackState s).fault = false)
    (hm : (memoryState (writebackState s)).fault = false) :
    (executeState (memoryState (writebackState s))).finishedMW = s.finished := by
  have he : (memoryState (writebackState s)).e = s.e := by
    simp [memoryState_latches hm, writebackState_latches hw]
  rw [finishedMW_executeState, he, finishW_memoryState hm, writebackState_seen hw]
  simp [State.finished, State.finishedMW, writebackState_latches hw]

/-- Draining finishes the issued instructions. -/
theorem State.Settles.eq_finished {s : State} {a : Seen} (h : s.Settles a) : a = s.finished := by
  obtain ⟨u, hu, hf, rfl⟩ := h
  unfold drain at hu
  rw [writebackUnit_eq, andThen_next _ memoryUnit_eq, andThen_next _ executeUnit_eq, andThen_next _ writebackUnit_eq,
    andThen_next _ memoryUnit_eq, andThen_next _ writebackUnit_eq] at hu
  cases hu
  obtain ⟨h5, e5⟩ := thenState_fault hf
  obtain ⟨h4, e4⟩ := thenState_fault h5
  obtain ⟨h3, e3⟩ := thenState_fault h4
  obtain ⟨h2, e2⟩ := thenState_fault h3
  obtain ⟨h1, e1⟩ := thenState_fault h2
  rw [e5, e4, e3, e2, e1] at hf ⊢
  rw [e4, e3, e2, e1] at h5
  rw [e3, e2, e1] at h4
  rw [e1] at h2
  rw [writebackState_seen hf, finishW_memoryState h5, (writebackState_cfg_code _).1, writebackState_seen h4]
  rw [← finishedMW_executeState_memoryState h1 h2]
  simp [State.finishedMW, writebackState_latches h4]

/-! Decode and fetch -/

/-- Fetch moves on where the program goes on only where decode has let go of D (R142, R151). -/
theorem fetchState_nextAddress {s : State} (h : (fetchState s).fault = false) (hr : s.redirect = false) :
    (fetchState s).nextAddress = if s.stalled then s.nextAddress else s.pc := by
  obtain ⟨hr', -⟩ | ⟨-, hs, e⟩ | ⟨-, hs, -, e⟩ | ⟨w, i, -, hs, -, -, -, e⟩ := fetchState_cases h
  · cases hr.symm.trans hr'
  all_goals rw [e, hs]; rfl

/-! Operands -/

theorem mem_of_lastKind {r : RegIdx} {res : List Reservation} {k : Kind} (h : lastKind r res = some k) :
    ⟨r, k⟩ ∈ res := by
  induction res with
  | nil => cases h
  | cons p rest ih =>
    simp only [lastKind] at h
    cases hk : lastKind r rest with
    | some k' =>
      simp only [hk] at h
      exact List.mem_cons_of_mem _ (ih (hk.trans h))
    | none =>
      simp only [hk] at h
      split_ifs at h with hr
      cases h
      subst hr
      exact List.mem_cons_self ..

/-- What the latch will write with kind `alu` or `inc` stands in it before memory: loads reserve with other kinds. -/
theorem valueOf_accessed (forwarding : Bool) (mem : List Cell) {l : Latch} {r : RegIdx} {k : Kind}
    (hres : l.res = l.instr.dsts) (h : lastKind r l.res = some k) (hk : k ≠ .mem) :
    (l.accessed forwarding mem).valueOf k = l.valueOf k := by
  cases hl : l.instr.isLoad with
  | false => rw [l.accessed_other _ _ hl]
  | true =>
    rw [l.accessed_load _ _ hl]
    have hmem : (⟨r, k⟩ : Reservation) ∈ l.instr.dsts := hres ▸ mem_of_lastKind h
    cases k with
    | mem => exact absurd rfl hk
    | inc => rfl
    | alu => cases hi : l.instr <;> simp [hi, Instr.dsts, Instr.isLoad] at hmem hl

@[simp] theorem accessed_res (forwarding : Bool) (mem : List Cell) (l : Latch) :
    (l.accessed forwarding mem).res = l.res := by
  unfold Latch.accessed
  split_ifs <;> rfl

@[simp] theorem accessed_instr (forwarding : Bool) (mem : List Cell) (l : Latch) :
    (l.accessed forwarding mem).instr = l.instr := by
  unfold Latch.accessed
  split_ifs <;> rfl

/-- What W offers for a register is what it holds once W has committed, and without an offer the commit leaves it. -/
theorem regAt_finishW (x : Option Latch) (a : Seen) (r : RegIdx) :
    (∀ v, offer .xb x r = .ready v → regAt (finishW x a).regs r = v) ∧
      (offer .xb x r = .nothing → regAt (finishW x a).regs r = regAt a.regs r) := by
  cases x with
  | none => exact ⟨nofun, fun _ => rfl⟩
  | some l =>
    simp only [finishW, regAt_commitRegs, offer]
    cases lastKind r l.res with
    | none => simp
    | some k => cases k <;> simp [Latch.valueOf]

/-- The same of M, whose loads offer nothing that is ready. -/
theorem regAt_finishM (forwarding : Bool) {x : Option Latch} (hx : ∀ l ∈ x, l.res = l.instr.dsts) (a : Seen)
    (r : RegIdx) :
    (∀ v, offer .xa x r = .ready v → regAt (finishM forwarding x a).regs r = v) ∧
      (offer .xa x r = .nothing → regAt (finishM forwarding x a).regs r = regAt a.regs r) := by
  cases x with
  | none => exact ⟨nofun, fun _ => rfl⟩
  | some l =>
    simp only [finishM, finishW, regAt_commitRegs, offer, accessed_res]
    cases hk : lastKind r l.res with
    | none => simp
    | some k =>
      have hvalue := valueOf_accessed forwarding a.mem (hx l rfl) hk
      cases k with
      | mem => simp
      | alu => simpa [Latch.valueOf] using hvalue
      | inc => simpa [Latch.valueOf] using hvalue

/-- A latch without an outstanding reservation of a register offers nothing for it. -/
theorem offer_nothing {x : Option Latch} {r : RegIdx} (path : Path) (h : resCount r x = 0) :
    offer path x r = .nothing := by
  cases x with
  | none => rfl
  | some l => simp [offer, (countP_eq_zero_iff_lastKind r l.res).mp h]

/-- THE OPERAND IS THE PROGRAM-ORDER VALUE: decode gives a register the value it will hold once the issued instructions
have finished (R147 to R149, R177). -/
theorem operand_eq_finished {s : State} {r : RegIdx} {v : Word} (h : s.ScoreboardAtDecode) (hv : operand s r = some v) :
    regAt s.finishedMW.regs r = v := by
  obtain ⟨hcount, hm, hw⟩ := h
  obtain ⟨hMready, hMnothing⟩ :=
    regAt_finishM s.cfg.forwarding (fun l hl => (hm l hl).1) (finishW s.w s.seen) r
  obtain ⟨hWready, hWnothing⟩ := regAt_finishW s.w s.seen r
  unfold State.finishedMW
  have hregister : registerOperand s r = some v → s.reg r = v ∧ resCount r s.m = 0 ∧ heldCount r s.w = 0 := by
    intro hreg
    unfold registerOperand at hreg
    split_ifs at hreg with h0
    have hr := hcount r
    rw [h0] at hr
    have hz : (0 : Count).toNat = 0 := rfl
    exact ⟨Option.some.inj hreg, by omega, by omega⟩
  unfold operand at hv
  cases hf : s.cfg.forwarding with
  | true =>
    rw [hf, if_pos rfl] at hv
    rw [hf] at hMready hMnothing
    cases ha : offer .xa s.m r with
    | ready v' =>
      simp only [ha, Option.some.injEq] at hv
      exact (hMready v' ha).trans hv
    | notReady => simp [ha] at hv
    | nothing =>
      rw [hMnothing ha]
      cases hb : offer .xb s.w r with
      | ready v' =>
        simp only [ha, hb, Option.some.injEq] at hv
        exact (hWready v' hb).trans hv
      | notReady => simp [ha, hb] at hv
      | nothing =>
        simp only [ha, hb] at hv
        exact (hWnothing hb).trans (hregister hv).1
  | false =>
    rw [hf, if_neg (by simp)] at hv
    rw [hf] at hMready hMnothing
    obtain ⟨hreg, hm0, hw0⟩ := hregister hv
    have hw1 : resCount r s.w = 0 := by
      cases hx : s.w with
      | none => rfl
      | some l =>
        have hrel : l.rel = false := Bool.eq_false_iff.mpr fun hrel => by simpa [hf] using (hw l hx).2 hrel
        simpa [hx, hrel] using hw0
    rw [hMnothing (offer_nothing _ hm0), hWnothing (offer_nothing _ hw1)]
    exact hreg

/-! One more instruction -/

/-- Finishing E field by field, by the rules of its instruction. -/
theorem finishE_some (forwarding : Bool) (l : Latch) (a : Seen) :
    finishE forwarding (some l) a =
      { regs := commitRegs ((executed l.instr l a.flags).latch.accessed forwarding a.mem) l.res a.regs
        flags := l.flagsAfter a.flags
        mem := (executed l.instr l a.flags).latch.stores a.mem
        next := if l.instr.takes a.flags then l.target else a.next
        halted := if l.instr = .halt then true else a.halted } := by
  have hnext : (executed l.instr l a.flags).target.getD a.next =
      if l.instr.takes a.flags then l.target else a.next := by
    rw [executed_target]
    split_ifs <;> rfl
  have hhalted : (a.halted || decide (l.instr = .halt)) = if l.instr = .halt then true else a.halted := by
    split_ifs with h <;> simp [h]
  simp only [finishE, finishM, finishW, hnext, hhalted, executed_flagsAfter, accessed_res, accessed_instr,
    executed_res, executed_instr]

/-- An issued instruction whose operands are read as the older ones leave them has its sequential effect. -/
theorem finishE_eq_sequential (forwarding : Bool) {l : Latch} {a : Seen} (hres : l.res = l.instr.dsts)
    (h1 : ∀ r ∈ l.instr.src1, regAt a.regs r = l.v1) (h2 : ∀ r ∈ l.instr.src2, regAt a.regs r = l.v2) :
    finishE forwarding (some l) { a with next := wrap (sval l.pc + 4) } = sequential l.instr l.pc a := by
  obtain ⟨i, pc, v1, v2, result, ea, inc, res, rel⟩ := l
  have hres : res = i.dsts := hres
  subst hres
  rw [finishE_some]
  cases i with
  | movc rd imm | nop | halt | bz imm | bnz imm | bp imm | bnp imm | bn imm | bnn imm => rfl
  | addl rd rs1 imm | subl rd rs1 imm | cml rs1 imm | load rd rs1 imm | loadp rd rs1 imm | jump rs1 imm
  | jalr rd rs1 imm =>
    have hv1 : regAt a.regs rs1 = v1 := h1 _ rfl
    subst hv1
    rfl
  | add rd rs1 rs2 | sub rd rs1 rs2 | mul rd rs1 rs2 | and rd rs1 rs2 | or rd rs1 rs2 | xor rd rs1 rs2
  | cmp rs1 rs2 | store rs1 rs2 imm | storep rs1 rs2 imm =>
    have hv1 : regAt a.regs rs1 = v1 := h1 _ rfl
    have hv2 : regAt a.regs rs2 = v2 := h2 _ rfl
    subst hv1 hv2
    rfl

theorem sourceValue_eq_finished {s : State} (h : s.ScoreboardAtDecode) {src : Option RegIdx} {unused v : Word}
    (hv : sourceValue s src unused = some v) : ∀ r ∈ src, regAt s.finishedMW.regs r = v := by
  rintro r rfl
  exact operand_eq_finished h hv

theorem finishedMW_nextAddress (s : State) : s.finishedMW.next = s.nextAddress := by
  rw [State.finishedMW, finishM_next, (finishW_frame _ _).2.2]
  rfl

/-- Decode and fetch, not redirected, finish nothing: only where the program goes on may change. -/
theorem finishedMW_fetchState_decodeState {s : State} (hd : (decodeState s).fault = false)
    (hf : (fetchState (decodeState s)).fault = false) :
    (fetchState (decodeState s)).finishedMW =
      { s.finishedMW with next := (fetchState (decodeState s)).nextAddress } := by
  apply finishedMW_of_next
  · simp
  · simp [fetchState_latches hf, decodeState_latches hd]
  · simp [fetchState_latches hf, decodeState_latches hd]
  · simp [State.seen]

/-- Without a redirect, decode and fetch leave a bubble in E and what will be seen as it is, or issue the instruction in
D, which adds its sequential effect. -/
theorem finished_fetchState_decodeState {s : State} (hsb : s.ScoreboardAtDecode) (hr : s.redirect = false)
    (hs : s.stalled = false) (hd : (decodeState s).fault = false)
    (hf : (fetchState (decodeState s)).fault = false) :
    ((fetchState (decodeState s)).e = none ∧ (fetchState (decodeState s)).finished = s.finishedMW) ∨
    ∃ l l', s.d = some l ∧ (fetchState (decodeState s)).e = some l' ∧ l'.instr = l.instr ∧ l'.pc = l.pc ∧
      (s.pc = wrap (sval l.pc + 4) →
        (fetchState (decodeState s)).finished = sequential l.instr l.pc s.finishedMW) := by
  have hMW := finishedMW_fetchState_decodeState hd hf
  have hE := (fetchState_latches hf).1
  have hr' : (decodeState s).redirect = false := by simp [decodeState_latches hd, hr]
  rw [fetchState_nextAddress hf hr'] at hMW
  unfold State.finished
  rw [hMW, hE]
  obtain ⟨hnone, e⟩ | ⟨l, v1, v2, sb, hl, h1, h2, -, e⟩ | ⟨l, hl, -, e⟩ := decodeState_cases hd
  · refine .inl ⟨by rw [e], ?_⟩
    have hnext : s.pc = s.finishedMW.next := by simp [finishedMW_nextAddress, State.nextAddress, hnone]
    simp only [e, hs, finishE, Bool.false_eq_true, if_false, hnext]
  · refine .inr ⟨l, { l with v1 := v1, v2 := v2, res := l.instr.dsts, rel := false }, hl, by rw [e], rfl, rfl,
      fun hpc => ?_⟩
    simp only [e, hs, Bool.false_eq_true, if_false, hpc]
    exact finishE_eq_sequential _ rfl (sourceValue_eq_finished hsb h1) (sourceValue_eq_finished hsb h2)
  · refine .inl ⟨by rw [e], ?_⟩
    have hnext : (decodeState s).nextAddress = s.finishedMW.next := by
      rw [finishedMW_nextAddress, e]
      rfl
    rw [hnext]
    simp only [e, finishE, if_true]

/-- Execute redirects, with a bubble in D, or leaves D, `pc` and the signals (R154, R165). -/
theorem executeState_redirect (s : State) :
    ((executeState s).redirect = true ∧ (executeState s).d = none) ∨
      ((executeState s).redirect = s.redirect ∧ (executeState s).stalled = s.stalled ∧ (executeState s).d = s.d ∧
        (executeState s).pc = s.pc) := by
  obtain ⟨-, e⟩ | ⟨l, -, -, e⟩ | ⟨l, t, -, -, e⟩ := executeState_cases s
  · exact .inr (by simp [e])
  · exact .inr (by simp [e])
  · exact .inl (by simp [e])

/-- A cycle leaves a bubble in E and what will be seen as it is, or issues the instruction in D, at the address where
the program goes on, which adds its sequential effect. -/
theorem finished_cycleState {s : State} (hl : s.Live) (hsb : s.ScoreboardInv) (hpc : s.PcInv)
    (hf : (cycleState s).fault = false) :
    ((cycleState s).e = none ∧ (cycleState s).finished = s.finished) ∨
    ∃ l l', s.d = some l ∧ (cycleState s).e = some l' ∧ l'.instr = l.instr ∧ l'.pc = l.pc ∧
      l.pc = s.finished.next ∧ (cycleState s).finished = sequential l.instr l.pc s.finished := by
  obtain ⟨sw, sm, hsw, hsm, hwf, hmf, hdf, hff, e, -, -, hd, hp, -, hr, hs⟩ := cycleState_toExecute hf
  have hdone : (executeState sm).finishedMW = s.finished := by
    subst hsw hsm
    exact finishedMW_executeState_memoryState (s := beginCycle s) hwf hmf
  have hdecode : (executeState sm).ScoreboardAtDecode := by
    subst hsw hsm
    have hw := (writebackState_scoreboard (s := beginCycle s) hl.not_faulted hsb).2
    exact executeState_scoreboard ((memoryState_scoreboard hwf hw).1 hmf)
  rw [e, ← hdone]
  obtain ⟨hr', hd'⟩ | ⟨hr', hs', hd', hp'⟩ := executeState_redirect sm
  · rw [fetchState_decodeState_redirected hr' hd']
    exact .inl ⟨rfl, rfl⟩
  · obtain h | ⟨l, l', hdl, he, hi, hlpc, hseq⟩ :=
      finished_fetchState_decodeState hdecode (hr'.trans hr) (hs'.trans hs) hdf hff
    · exact .inl h
    · have hsd : s.d = some l := by rw [← hd, ← hd', hdl]
      have hnext : l.pc = (executeState sm).finishedMW.next := by
        rw [finishedMW_nextAddress, State.nextAddress, hdl]
      exact .inr ⟨l, l', hsd, he, hi, hlpc, hnext, hseq ((hp'.trans hp).trans (hpc hl.not_faulted l hsd))⟩

/-- Settles O53: draining finishes what is issued, a cycle finishes none of it otherwise, and it adds at most the
instruction that waits in D. -/
theorem pipelineRefinesSequentialExecution : Obligations.PipelineRefinesSequentialExecution := by
  unfold Obligations.PipelineRefinesSequentialExecution
  intro s t a b hl hsb hpc hfetched h hf ha hb
  rw [ha.eq_finished, hb.eq_finished]
  cases (step_live hl).symm.trans h
  obtain ⟨hnone, hsame⟩ | ⟨l, l', hd, he, hi, hp, hnext, hseq⟩ := finished_cycleState hl hsb hpc hf
  · exact ⟨fun _ => hsame, fun l hsome => by simp [hnone] at hsome⟩
  · refine ⟨fun hnone => by simp [hnone] at he, fun l'' hsome => ?_⟩
    cases he.symm.trans hsome
    obtain ⟨hin, -, -, -⟩ := hfetched hl.not_faulted
    exact ⟨hp.trans hnext, by simpa [Latch.FetchedFrom, hi, hp] using hin l hd, by rw [hi, hp]; exact hseq⟩

end Sys2Proof.Machine

/-! Bad data addresses (R76, R157, R301, R305): memory raises the fault instead of the access, and what stands is what
writeback had left. -/

namespace Sys2Proof.Machine

theorem inRange_eq_false {s : State} {ea : Word} (h : sval ea < 0 ∨ (s.cfg.dmemSize : Int) ≤ sval ea) :
    s.inRange ea = false := by
  simp only [State.inRange, Bool.and_eq_false_iff, decide_eq_false_iff_not]
  omega

/-- A load or store outside the data memory raises the fault in place of its memory step. -/
theorem memoryWork_badAddress {i : Instr} {s : State} {l : Latch} (hi : i.isLoad = true ∨ i.isStore = true)
    (hm : s.m = some l) (hr : s.inRange l.ea = false) :
    memoryWork i s = raise (.dataAddressOutOfRange l.ea l.pc) s := by
  unfold memoryWork
  split_ifs with hload hstore
  · simp [loadMemory, hm, hr]
  · simp [storeMemory, hm, hr]
  · simp [hload, hstore] at hi

/-- A fault in memory ends the cycle: execute, decode and fetch do nothing (R167). -/
theorem cycleState_of_memory_fault {s : State} (hw : (writebackState (beginCycle s)).fault = false)
    (hm : (memoryState (writebackState (beginCycle s))).fault = true) :
    cycleState s = endCycle (memoryState (writebackState (beginCycle s))) := by
  simp only [cycleState, beforeFetch, thenState_unfaulted _ hw, thenState_faulted _ hm]

/-- Settles O27: the memory step of a load or store is the fault, which ends the cycle on what W's commit left. -/
theorem badDataAddressFaults : Obligations.BadDataAddressFaults := by
  unfold Obligations.BadDataAddressFaults
  refine ⟨fun i s l hi hs hm hea => ?_, fun s l hl hsb hm hi hea => ⟨_, step_live hl, ?_⟩⟩
  · rw [exec_memory i hs, memoryWork_badAddress hi hm (inRange_eq_false hea)]
  · obtain ⟨hf, -⟩ := writebackState_scoreboard (s := beginCycle s) hl.not_faulted hsb
    have hm' : (writebackState (beginCycle s)).m = some l := by simpa [writebackState_latches hf] using hm
    have hraise : memoryState (writebackState (beginCycle s)) =
        raise (.dataAddressOutOfRange l.ea l.pc) ((writebackState (beginCycle s)).at .memory) := by
      rw [memoryState_some hm']
      exact memoryWork_badAddress hi hm' (inRange_eq_false (by simpa using hea))
    rw [cycleState_of_memory_fault hf (by rw [hraise]; rfl), hraise]
    refine ⟨rfl, rfl, rfl, by simp, by simp, ?_⟩
    obtain ⟨hw, e⟩ | ⟨lw, sb, hw, -, e⟩ := writebackState_cases hf
    all_goals
      rw [beginCycle_w] at hw
      simp [e, hw]

end Sys2Proof.Machine

/-! The operand is the program-order value, as the latches stand (R78, R147 to R149, R177): finishing the issued
instructions gives a register the value their latches already hold, unless a load in M is still to read it. -/

namespace Sys2Proof.Machine

theorem settledRegs_eq (s : State) : s.settledRegs = (finishW s.m (finishW s.w s.seen)).regs := by
  unfold State.settledRegs
  cases s.m <;> cases s.w <;> rfl

/-- Memory still changes what M will write to a register only where M offers that register as not ready. -/
theorem regAt_finishM_eq_finishW (forwarding : Bool) {x : Option Latch} {r : RegIdx}
    (hx : ∀ l ∈ x, l.res = l.instr.dsts) (hready : offer .xa x r ≠ .notReady) (a : Seen) :
    regAt (finishM forwarding x a).regs r = regAt (finishW x a).regs r := by
  cases x with
  | none => rfl
  | some l =>
    simp only [finishM, finishW, regAt_commitRegs, accessed_res]
    cases hk : lastKind r l.res with
    | none => rfl
    | some k =>
      have hmem : k ≠ .mem := by
        rintro rfl
        simp [offer, hk] at hready
      exact valueOf_accessed forwarding a.mem (hx l rfl) hk hmem

/-- Where decode gives a register a value, no load in M is still to read it, in either mode (R148, R149). -/
theorem offer_ne_notReady_of_operand {s : State} {r : RegIdx} {v : Word} (h : s.ScoreboardAtDecode)
    (hv : operand s r = some v) : offer .xa s.m r ≠ .notReady := by
  intro hnot
  cases hf : s.cfg.forwarding with
  | true => simp [operand, hf, hnot] at hv
  | false =>
    obtain ⟨hcount, -, -⟩ := h
    obtain ⟨hzero, -⟩ : s.count r = 0 ∧ s.reg r = v := by simpa [operand, hf, registerOperand] using hv
    obtain ⟨hm, -⟩ : resCount r s.m = 0 ∧ heldCount r s.w = 0 := by simpa [hzero] using (hcount r).symm
    cases hnot.symm.trans (offer_nothing .xa hm)

/-- Settles O36: the operand is what the register holds once W and M have finished, which their latches already hold. -/
theorem operandIsTheProgramOrderValue : Obligations.OperandIsTheProgramOrderValue := by
  unfold Obligations.OperandIsTheProgramOrderValue
  intro s r v h hv
  have hfinished := operand_eq_finished h hv
  have hready := offer_ne_notReady_of_operand h hv
  obtain ⟨-, hm, -⟩ := h
  rw [← hfinished, settledRegs_eq]
  exact regAt_finishM_eq_finishW _ (fun l hl => (hm l hl).1) hready _

end Sys2Proof.Machine

/-! The decoder and the encoder (spec/30_encoding.md): an instruction is read back from its own word, and the word of what
a word decodes to is that word with its unused fields cleared. -/

namespace Sys2Proof.Machine

/-- A word with every field its opcode does not use, and the reserved bits, replaced by zero (R104). -/
def clearUnused (w : InstrWord) : InstrWord :=
  pack (fieldOpc w) (if usesRd (fieldOpc w) then fieldRd w else 0) (if usesRs1 (fieldOpc w) then fieldRs1 w else 0)
    (if usesRs2 (fieldOpc w) then fieldRs2 w else 0) (if usesImm (fieldOpc w) then fieldImm w else 0)

/-! What a word unpacks to, and the word of it -/

theorem unpack_encode (i : Instr) : unpack (encode i) = some i := by
  cases i <;> simp [unpack, encode, Instr.opcode]

theorem opcode_of_unpack {w : InstrWord} {i : Instr} (h : unpack w = some i) : i.opcode = fieldOpc w := by
  apply BitVec.eq_of_toNat_eq
  unfold unpack at h
  split at h <;> cases h
  all_goals exact Eq.symm ‹(fieldOpc w).toNat = _›

/-- Each row of the decoder takes exactly the fields that the table of R104 gives its opcode number. -/
theorem encode_of_unpack {w : InstrWord} {i : Instr} (h : unpack w = some i) : encode i = clearUnused w := by
  unfold clearUnused
  rw [← opcode_of_unpack h]
  unfold unpack at h
  split at h <;> cases h
  all_goals rfl

theorem unpack_eq_none_iff (w : InstrWord) : unpack w = none ↔ 25 ≤ (fieldOpc w).toNat := by
  unfold unpack
  split
  case h_26 => simp only [imp_false, true_iff] at *; omega
  all_goals simp only [reduceCtorEq, false_iff]; omega

/-- A word unpacks by its opcode number and used fields alone: what is cleared of it plays no part (R107). -/
theorem unpack_eq_of_clearUnused_eq {w w' : InstrWord} (h : clearUnused w = clearUnused w') : unpack w = unpack w' := by
  have hopc : fieldOpc w = fieldOpc w' := by simpa [clearUnused] using congrArg fieldOpc h
  cases hu : unpack w with
  | none => exact ((unpack_eq_none_iff w').mpr (hopc ▸ (unpack_eq_none_iff w).mp hu)).symm
  | some i =>
    cases hu' : unpack w' with
    | none =>
      rw [unpack_eq_none_iff, ← hopc, ← unpack_eq_none_iff, hu] at hu'
      cases hu'
    | some i' =>
      have he : encode i = encode i' := by rw [encode_of_unpack hu, encode_of_unpack hu', h]
      rw [← unpack_encode i, ← unpack_encode i', he]

/-! Which words decode -/

theorem decode_eq_ok_iff (n : Nat) (w : InstrWord) (i : Instr) :
    decode n w = .ok i ↔ fieldRsv w = 0 ∧ unpack w = some i ∧ i.wf n = true := by
  unfold decode
  by_cases hrsv : fieldRsv w = 0
  · cases hu : unpack w with
    | none => simp [hrsv]
    | some j =>
      by_cases hji : j = i
      · simp [hrsv, hji]
      · simp only [hrsv, if_true, Option.some.injEq, hji, false_and, and_false, iff_false]
        split <;> simp [hji]
  · simp only [hrsv, if_false, false_and, reduceCtorEq]

/-- Decoding depends only on the reserved bits and on what the word unpacks to. -/
theorem decode_congr {w w' : InstrWord} (n : Nat) (hrsv : fieldRsv w = fieldRsv w') (hu : unpack w = unpack w') :
    decode n w = decode n w' := by
  unfold decode
  rw [hrsv, hu]

/-- The legality of an instruction, read off the register fields of its word (R104, R109). -/
theorem wf_iff_encode (n : Nat) (i : Instr) :
    i.wf n = true ↔
      (usesRd i.opcode = true → (fieldRd (encode i)).toNat < n) ∧
      (usesRs1 i.opcode = true → (fieldRs1 (encode i)).toNat < n) ∧
      (usesRs2 i.opcode = true → (fieldRs2 (encode i)).toNat < n) := by
  cases i <;> simp [Instr.wf, Instr.regFields, encode, Instr.opcode, usesRd, usesRs1, usesRs2]

theorem wf_iff_of_unpack (n : Nat) {w : InstrWord} {i : Instr} (h : unpack w = some i) :
    i.wf n = true ↔
      (usesRd (fieldOpc w) = true → (fieldRd w).toNat < n) ∧ (usesRs1 (fieldOpc w) = true → (fieldRs1 w).toNat < n) ∧
      (usesRs2 (fieldOpc w) = true → (fieldRs2 w).toNat < n) := by
  rw [wf_iff_encode, encode_of_unpack h, opcode_of_unpack h]
  simp +contextual [clearUnused]

/-- The words that do not decode are those of R109: unpacking gives nothing for an opcode number of 25 or more, and
otherwise an instruction whose register fields are the word's. -/
theorem decode_eq_error_iff (n : Nat) (w : InstrWord) :
    (∃ why, decode n w = .error why) ↔
      (25 ≤ (fieldOpc w).toNat ∨ fieldRsv w ≠ 0 ∨ (usesRd (fieldOpc w) = true ∧ n ≤ (fieldRd w).toNat) ∨
        (usesRs1 (fieldOpc w) = true ∧ n ≤ (fieldRs1 w).toNat) ∨
        (usesRs2 (fieldOpc w) = true ∧ n ≤ (fieldRs2 w).toNat)) := by
  have herror : (∃ why, decode n w = .error why) ↔ ¬ ∃ i, decode n w = .ok i := by
    cases decode n w <;> simp
  rw [herror]
  simp only [decode_eq_ok_iff, ← unpack_eq_none_iff]
  cases hu : unpack w with
  | none => simp
  | some j =>
    simp only [exists_and_left, Option.some.injEq, exists_eq_left', wf_iff_of_unpack n hu, not_and_or,
      Classical.not_imp, not_lt, reduceCtorEq, false_or, ne_eq]

/-! Fetching a word that decodes and one that does not (R143, R304) -/

theorem fetchInstr_illegal {s : State} {w : InstrWord} {why : Illegal} (hc : s.codeAt s.pc = some w)
    (hw : decode s.cfg.nregs w = .error why) :
    fetchInstr s = .next (raise (.illegalInstruction s.pc (highHalf w)) s) := by
  rw [fetchInstr_eq]
  simp [fetchInstrState, hc, hw]

theorem fetchInstr_legal {s : State} {w : InstrWord} {i : Instr} (hc : s.codeAt s.pc = some w)
    (hi : decode s.cfg.nregs w = .ok i) : fetchInstr s = .next (fetchWork i (s.at .fetch)) := by
  rw [fetchInstr_eq]
  simp [fetchInstrState, hc, hi]

/-- What fetch does with an instruction does not look at the store it came from. -/
theorem fetchWork_at_withCode (i : Instr) (s : State) (other : List InstrWord) :
    fetchWork i (State.at { s with code := other } .fetch) = { fetchWork i (s.at .fetch) with code := other } := by
  unfold fetchWork
  split <;> rfl

/-! The statements -/

/-- Settles O1: an instruction's own word has no reserved bit and unpacks to it, so legality is all that is left. -/
theorem decodeReadsBackEncode : Obligations.DecodeReadsBackEncode := by
  unfold Obligations.DecodeReadsBackEncode
  intro n i h
  obtain ⟨-, hrsv, -⟩ := encoding_statement i
  exact (decode_eq_ok_iff n _ i).mpr ⟨hrsv, unpack_encode i, h⟩

/-- Settles O2: the instruction's own word is the decoded one with its unused fields cleared. -/
theorem decodedInstructionHasTheWordsFields : Obligations.DecodedInstructionHasTheWordsFields := by
  unfold Obligations.DecodedInstructionHasTheWordsFields
  intro n w i h
  obtain ⟨-, hu, hwf⟩ := (decode_eq_ok_iff n w i).mp h
  exact ⟨hwf, opcode_of_unpack hu, encode_of_unpack hu⟩

/-- Settles O3: a word decodes where it unpacks to an instruction whose fields name registers, and fetch raises the fault
for every other. -/
theorem illegalWordsAreExactlyThoseOfTheRule : Obligations.IllegalWordsAreExactlyThoseOfTheRule := by
  unfold Obligations.IllegalWordsAreExactlyThoseOfTheRule
  refine ⟨decode_eq_error_iff, fun s w hc ⟨why, hw⟩ => ?_⟩
  exact ⟨fetchInstr_illegal hc hw, rfl, rfl, rfl⟩

/-- Settles O4: such words are the same once their unused fields are cleared, and fetch passes on the decoded instruction
only. -/
theorem unusedFieldsAreIgnored : Obligations.UnusedFieldsAreIgnored := by
  unfold Obligations.UnusedFieldsAreIgnored
  refine ⟨?_, ?_⟩
  · intro n w w' hopc hrsv hrd hrs1 hrs2 himm
    have hclear : clearUnused w = clearUnused w' := by
      unfold clearUnused
      rw [← hopc, ite_congr rfl hrd fun _ => rfl, ite_congr rfl hrs1 fun _ => rfl, ite_congr rfl hrs2 fun _ => rfl,
        ite_congr rfl himm fun _ => rfl]
    exact decode_congr n hrsv (unpack_eq_of_clearUnused_eq hclear)
  · intro s other w w' i hc hc' hi hi'
    exact ⟨_, fetchInstr_legal hc hi, (fetchInstr_legal hc' hi').trans (congrArg _ (fetchWork_at_withCode i s other))⟩

/-- Settles O5: the seven closed words are decoded. -/
theorem sampleWordsDecode : Obligations.SampleWordsDecode := by
  unfold Obligations.SampleWordsDecode
  decide

end Sys2Proof.Machine

/-! What a cycle without a fault does to the latches (R142, R151, R154, R164, R165): which of four things its front end,
decode and fetch, does, and where the issued instructions go. The statements about redirect, stall, HALT and `pc` are
read off these cases. -/

namespace Sys2Proof.Machine

/-- Decode lets go of D: a bubble passes, and an instruction moves to E with only its operand values and reservations
set (R151). -/
def IssuesInto (d e : Option Latch) : Prop :=
  (d = none ∧ e = none) ∨
    ∃ l v1 v2, d = some l ∧ e = some { l with v1 := v1, v2 := v2, res := l.instr.dsts, rel := false }

/-- What decode and fetch make of the front of the pipeline in a cycle from `s` to `t`. -/
inductive FrontEnd (s t : State) : Prop where
  /-- the instruction in E takes a transfer (R164, R165) -/
  | redirected (l : Latch) (he : s.e = some l) (htakes : l.instr.takes s.flags = true) (hpc : t.pc = l.target)
      (harmed : t.armed = true) (hd : t.d = none) (he' : t.e = none)
  /-- the instruction in D has to wait (R145, R151) -/
  | stalled (l : Latch) (htakes : ∀ l ∈ s.e, l.instr.takes s.flags = false) (hd : s.d = some l) (hd' : t.d = some l)
      (he' : t.e = none) (hpc : t.pc = s.pc) (harmed : t.armed = s.armed)
  /-- D has moved on and fetch is disarmed -/
  | disarmed (htakes : ∀ l ∈ s.e, l.instr.takes s.flags = false) (hissue : IssuesInto s.d t.e)
      (harmed : s.armed = false) (harmed' : t.armed = false) (hd' : t.d = none) (hpc : t.pc = s.pc)
  /-- D has moved on and the next instruction is fetched (R143, R144) -/
  | fetched (i : Instr) (htakes : ∀ l ∈ s.e, l.instr.takes s.flags = false) (hissue : IssuesInto s.d t.e)
      (harmed : s.armed = true) (harmed' : t.armed = decide (i ≠ .halt)) (hd' : t.d = some (fetchedLatch i s.pc))
      (hpc : t.pc = nextPc s.pc)

/-- Execute without a taken transfer leaves what decode and fetch work with. -/
theorem executeState_of_not_taken {s : State} (h : ∀ l ∈ s.e, l.instr.takes s.flags = false) :
    (executeState s).d = s.d ∧ (executeState s).pc = s.pc ∧ (executeState s).armed = s.armed ∧
      (executeState s).redirect = s.redirect ∧ (executeState s).stalled = s.stalled := by
  obtain ⟨-, e⟩ | ⟨l, -, -, e⟩ | ⟨l, pc, hl, ht, -⟩ := executeState_cases s
  · simp [e]
  · simp [e]
  · simp [executed_target, h l hl] at ht

/-- Execute of a taken transfer redirects and flushes (R163 to R165). -/
theorem executeState_of_taken {s : State} {l : Latch} (he : s.e = some l) (h : l.instr.takes s.flags = true) :
    (executeState s).d = none ∧ (executeState s).pc = l.target ∧ (executeState s).armed = true ∧
      (executeState s).redirect = true := by
  obtain ⟨hn, -⟩ | ⟨l', hl, ht, -⟩ | ⟨l', pc, hl, ht, e⟩ := executeState_cases s
  · cases he.symm.trans hn
  · cases he.symm.trans hl
    simp [executed_target, h] at ht
  · cases he.symm.trans hl
    have hpc : l.target = pc := by simpa [executed_target, h] using ht
    simp [e, hpc]

/-- Decode and fetch, with no signal raised, on a state that holds what the cycle began with. -/
theorem frontEnd_of_not_taken {s u : State} (htakes : ∀ l ∈ s.e, l.instr.takes s.flags = false)
    (hsame : u.d = s.d ∧ u.pc = s.pc ∧ u.armed = s.armed ∧ u.redirect = false ∧ u.stalled = false)
    (hdf : (decodeState u).fault = false) (hff : (fetchState (decodeState u)).fault = false) :
    FrontEnd s (endCycle (fetchState (decodeState u))) := by
  obtain ⟨hd, hpc, harmed, hr, hs⟩ := hsame
  have hr' : (decodeState u).redirect = false := by simp [decodeState_latches hdf, hr]
  have hissued : (decodeState u).stalled = false → IssuesInto s.d (decodeState u).e →
      FrontEnd s (endCycle (fetchState (decodeState u))) := by
    intro hs' hissue
    obtain ⟨h, -⟩ | ⟨-, h, -⟩ | ⟨-, -, ha, e⟩ | ⟨w, i, -, -, ha, -, -, e⟩ := fetchState_cases hff
    · cases hr'.symm.trans h
    · cases hs'.symm.trans h
    · rw [e]
      exact .disarmed htakes hissue (by simpa [decodeState_latches hdf, harmed] using ha) ha rfl
        (by simp [decodeState_latches hdf, hpc])
    · rw [e]
      simp only [decodeState_latches hdf, harmed, hpc] at ha ⊢
      exact .fetched i htakes hissue ha rfl rfl rfl
  obtain ⟨hn, e⟩ | ⟨l, v1, v2, sb, hl, -, -, -, e⟩ | ⟨l, hl, -, e⟩ := decodeState_cases hdf
  · exact hissued (by rw [e]; exact hs) (.inl ⟨hd ▸ hn, by rw [e]⟩)
  · exact hissued (by rw [e]; exact hs) (.inr ⟨l, v1, v2, hd ▸ hl, by rw [e]⟩)
  · have ef : fetchState (decodeState u) = decodeState u := by
      rw [e]
      simp [fetchState, hr]
    rw [ef, e]
    exact .stalled l htakes (hd ▸ hl) hl rfl hpc harmed

/-- A cycle without a fault does one of the four things. -/
theorem cycleState_frontEnd {s : State} (hf : (cycleState s).fault = false) : FrontEnd s (cycleState s) := by
  obtain ⟨sw, sm, rfl, rfl, -, -, hdf, hff, e, -, he, hsame⟩ := cycleState_toExecute hf
  have hflags : (memoryState (writebackState (beginCycle s))).flags = s.flags := by simp
  rw [e]
  by_cases h : ∃ l ∈ s.e, l.instr.takes s.flags = true
  · obtain ⟨l, hl, htakes⟩ := h
    obtain ⟨hd, hpc, ha, hr⟩ := executeState_of_taken (he.trans hl) (hflags ▸ htakes)
    rw [fetchState_decodeState_redirected hr hd]
    exact .redirected l hl htakes hpc ha hd rfl
  · have htakes : ∀ l ∈ s.e, l.instr.takes s.flags = false := by simpa using h
    have hkept := executeState_of_not_taken (s := memoryState (writebackState (beginCycle s)))
      (by rwa [he, hflags])
    simp only [hsame] at hkept
    exact frontEnd_of_not_taken htakes hkept hdf hff

/-- Execute moves E to M as its step leaves it (R152). -/
theorem executeState_m (s : State) : (executeState s).m = s.e.map fun l => (executed l.instr l s.flags).latch := by
  obtain ⟨hn, e⟩ | ⟨l, hl, -, e⟩ | ⟨l, t, hl, -, e⟩ := executeState_cases s
  · simp [e, hn]
  · simp [e, hl]
  · simp [e, hl]

/-- A cycle without a fault leaves in M what execute made of E. -/
theorem cycleState_m {s : State} (hf : (cycleState s).fault = false) :
    (cycleState s).m = s.e.map fun l => (executed l.instr l s.flags).latch := by
  obtain ⟨sw, sm, rfl, rfl, -, -, hdf, hff, e, -, he, -⟩ := cycleState_toExecute hf
  rw [e, endCycle_m, (fetchState_latches hff).2.1]
  simp [decodeState_latches hdf, executeState_m, he]

/-- M moves to W. -/
theorem cycleState_w_instr {s : State} (hl : s.Live) (hf : (cycleState s).fault = false) :
    (cycleState s).w.map Latch.instr = s.m.map Latch.instr := by
  obtain ⟨-, hw⟩ := instructionsMoveInProgramOrder s _ hl (step_live hl) hf
  simpa [Function.comp_def] using congrArg (Option.map Prod.fst) hw

/-- Settles O40: with a taken transfer in E the cycle's front end is redirected. -/
theorem takenTransferRedirectsAndFlushes : Obligations.TakenTransferRedirectsAndFlushes := by
  unfold Obligations.TakenTransferRedirectsAndFlushes
  intro s t l hl he htakes h hf
  cases (step_live hl).symm.trans h
  cases cycleState_frontEnd hf with
  | redirected l' he' _ hpc harmed hd hte =>
    cases he.symm.trans he'
    exact ⟨hpc, harmed, hd, hte⟩
  | stalled _ hno | disarmed hno | fetched _ hno => simp [hno l he] at htakes

/-- Settles O41: the front end issues D, flushes it or holds it. -/
theorem instructionInDecodeIsNeverDropped : Obligations.InstructionInDecodeIsNeverDropped := by
  unfold Obligations.InstructionInDecodeIsNeverDropped
  intro s t l hl hd h hf
  cases (step_live hl).symm.trans h
  cases cycleState_frontEnd hf with
  | redirected le he htakes hpc _ hd' he' => exact .inr (.inl ⟨he', hd', le, he, htakes, hpc⟩)
  | stalled l' _ hd' htd hte hpc harmed =>
    cases hd.symm.trans hd'
    exact .inr (.inr ⟨hte, htd, hpc, harmed⟩)
  | disarmed _ hissue | fetched _ _ hissue =>
    obtain ⟨hn, -⟩ | ⟨l', v1, v2, hd', hte⟩ := hissue
    · cases hd.symm.trans hn
    · cases hd.symm.trans hd'
      exact .inl ⟨v1, v2, hte⟩

/-- Settles O49: D is empty, waits with `pc`, or was fetched where `pc` stood. -/
theorem pcInvariantIsKept : Obligations.PcInvariantIsKept := by
  unfold Obligations.PcInvariantIsKept
  intro s t h hs
  refine step_keeps (fun u hl hu hf l hd => ?_) hs h
  cases cycleState_frontEnd hf with
  | redirected _ _ _ _ _ hn | disarmed _ _ _ _ hn => cases hd.symm.trans hn
  | stalled l' _ hd' htd _ hpc =>
    cases hd.symm.trans htd
    rw [hpc, hu hl.not_faulted l hd']
  | fetched i _ _ _ _ htd hpc =>
    cases hd.symm.trans htd
    exact hpc

/-! HALT -/

theorem isHalt_iff (x : Option Latch) : isHalt x ↔ x.map Latch.instr = some .halt := by
  simp [isHalt]

theorem not_isHalt_none : ¬ isHalt none := by
  simp [isHalt]

theorem takes_halt (f : Flags) : Instr.halt.takes f = false := rfl

/-- Where D is empty, fetch is disarmed and E takes no transfer, nothing enters the pipeline any more. -/
theorem FrontEnd.of_drained {s t : State} (h : FrontEnd s t) (harmed : s.armed = false) (hd : s.d = none)
    (htakes : ∀ l ∈ s.e, l.instr.takes s.flags = false) : t.armed = false ∧ t.d = none ∧ t.e = none := by
  cases h with
  | redirected l he ht => simp [htakes l he] at ht
  | stalled l _ hd' => cases hd.symm.trans hd'
  | disarmed _ hissue _ harmed' hd' =>
    obtain ⟨-, he'⟩ | ⟨l, v1, v2, hl, -⟩ := hissue
    · exact ⟨harmed', hd', he'⟩
    · cases hd.symm.trans hl
  | fetched i _ _ harmed' => cases harmed.symm.trans harmed'

/-- A HALT that the front end leaves in D has disarmed fetch, and one it has issued is followed by nothing. -/
theorem FrontEnd.halt {s t : State} (h : FrontEnd s t) (hinv : isHalt s.d → s.armed = false) :
    (isHalt t.d → t.armed = false) ∧ (isHalt t.e → t.armed = false ∧ t.d = none) := by
  have hissued : IssuesInto s.d t.e → isHalt t.e → s.armed = false := by
    rintro (⟨-, hn⟩ | ⟨l, v1, v2, hd, he⟩) ⟨l', he', hi⟩
    · cases hn.symm.trans he'
    · cases he.symm.trans he'
      exact hinv ⟨l, hd, hi⟩
  cases h with
  | redirected _ _ _ _ _ hd he =>
    exact ⟨fun hh => absurd (hd ▸ hh) not_isHalt_none, fun hh => absurd (he ▸ hh) not_isHalt_none⟩
  | stalled l _ hd hd' he _ ha =>
    exact ⟨fun hh => ha.trans (hinv (hd.trans hd'.symm ▸ hh)), fun hh => absurd (he ▸ hh) not_isHalt_none⟩
  | disarmed _ hissue _ ha hd => exact ⟨fun _ => ha, fun _ => ⟨ha, hd⟩⟩
  | fetched i _ hissue ha ha' hd =>
    refine ⟨fun ⟨l, hl, hi⟩ => ?_, fun hh => by simp [hissued hissue hh] at ha⟩
    cases hd.symm.trans hl
    have hi : i = .halt := hi
    simpa [hi] using ha'

/-- A cycle without a fault halts a live engine only by the commit of HALT (R161). -/
theorem isHalt_of_cycleState_halted {s : State} (hl : s.Live) (hf : (cycleState s).fault = false)
    (hh : (cycleState s).halted = true) : isHalt s.w := by
  obtain ⟨sw, -, rfl, -, hwf, -⟩ := cycleState_toExecute hf
  rw [cycleState_halted] at hh
  obtain ⟨-, e⟩ | ⟨l, sb, hw, -, e⟩ := writebackState_cases hwf
  · simp [e, hl.not_halted] at hh
  · exact ⟨l, hw, by simpa [e, hl.not_halted] using hh⟩

/-- Settles O48: a HALT moves on latch by latch, and the front end lets nothing in behind it. -/
theorem haltInvariantIsKept : Obligations.HaltInvariantIsKept := by
  unfold Obligations.HaltInvariantIsKept
  intro s t h hs
  refine step_keeps (fun u hl hu hf => ?_) hs h
  obtain ⟨hD, hE, hM, hW, -⟩ := hu hl.not_faulted
  have hfront := cycleState_frontEnd hf
  have hm := cycleState_m hf
  have hw := cycleState_w_instr hl hf
  obtain ⟨hD', hE'⟩ := hfront.halt hD
  have hempty : u.armed = false → u.d = none → u.e = none →
      (cycleState u).armed = false ∧ (cycleState u).d = none ∧ (cycleState u).e = none ∧ (cycleState u).m = none := by
    intro ha hd he
    obtain ⟨ha', hd', he'⟩ := hfront.of_drained ha hd (by simp [he])
    exact ⟨ha', hd', he', by simp [hm, he]⟩
  refine ⟨hD', hE', fun hh => ?_, fun hh => ?_, fun hh => ?_⟩
  · have he : isHalt u.e := by simpa [isHalt_iff, hm, Function.comp_def] using hh
    obtain ⟨ha, hd⟩ := hE he
    obtain ⟨l, hl, hi⟩ := he
    exact hfront.of_drained ha hd (by simp [hl, hi, takes_halt])
  · obtain ⟨ha, hd, he⟩ := hM (by rwa [isHalt_iff, ← hw, ← isHalt_iff])
    exact hempty ha hd he
  · obtain ⟨ha, hd, he, hn⟩ := hW (isHalt_of_cycleState_halted hl hf hh)
    obtain ⟨ha', hd', he', hm'⟩ := hempty ha hd he
    exact ⟨ha', hd', he', hm', by simpa [hn] using hw⟩

end Sys2Proof.Machine

/-! What decode waits for (R147 to R150), and what each unit does with an instruction that raises no fault: the steps of
full and of empty pipelines (R140, R142), HALT's five units (R291), and the engine that no longer runs (R172). -/

namespace Sys2Proof.Machine

/-! Forwarding and the scoreboard -/

/-- The kind of a register's last reservation, found where it stands in the list (R149). -/
theorem lastKind_eq_some_iff {r : RegIdx} {res : List Reservation} {k : Kind} :
    lastKind r res = some k ↔ ∃ before after, res = before ++ ⟨r, k⟩ :: after ∧ ∀ p ∈ after, p.reg ≠ r := by
  refine ⟨fun h => ?_, fun ⟨before, after, hres, hafter⟩ => hres ▸ lastKind_last before r k hafter⟩
  induction res with
  | nil => cases h
  | cons p rest ih =>
    simp only [lastKind] at h
    cases hk : lastKind r rest with
    | some k' =>
      rw [hk] at h
      cases h
      obtain ⟨before, after, hres, hafter⟩ := ih hk
      exact ⟨p :: before, after, by rw [hres]; rfl, hafter⟩
    | none =>
      rw [hk] at h
      simp only at h
      split_ifs at h with hr
      cases h
      exact ⟨[], rest, by simp [← hr], (lastKind_none_iff r rest).mp hk⟩

/-- Path (a) is not ready exactly for a load in execute (R149). -/
theorem offer_xa_notReady_iff (x : Option Latch) (r : RegIdx) :
    offer .xa x r = .notReady ↔ ∃ l, x = some l ∧ lastKind r l.res = some .mem := by
  cases x with
  | none => simp [offer]
  | some l =>
    cases hk : lastKind r l.res with
    | none => simp [offer, hk]
    | some k => cases k <;> simp [offer, hk]

theorem offer_xb_ne_notReady (x : Option Latch) (r : RegIdx) : offer .xb x r ≠ .notReady := by
  cases x with
  | none => simp [offer]
  | some l =>
    cases hk : lastKind r l.res with
    | none => simp [offer, hk]
    | some k => cases k <;> simp [offer, hk]

/-- A latch that offers nothing for a register has no reservation of it. -/
theorem resCount_of_offer_nothing {path : Path} {x : Option Latch} {r : RegIdx} (h : offer path x r = .nothing) :
    resCount r x = 0 := by
  cases x with
  | none => rfl
  | some l =>
    rw [resCount_some, countP_eq_zero_iff_lastKind]
    cases hk : lastKind r l.res with
    | none => rfl
    | some k => cases k <;> cases path <;> simp [offer, hk] at h

theorem resCount_ne_zero_iff (r : RegIdx) (x : Option Latch) :
    resCount r x ≠ 0 ↔ ∃ l, x = some l ∧ ∃ p ∈ l.res, p.reg = r := by
  cases x with
  | none => simp
  | some l => simp [List.countP_eq_zero]

theorem operand_of_not_forwarding {s : State} (hf : s.cfg.forwarding = false) (r : RegIdx) :
    operand s r = registerOperand s r := by
  simp [operand, hf]

theorem registerOperand_eq_none_iff (s : State) (r : RegIdx) : registerOperand s r = none ↔ s.count r ≠ 0 := by
  simp [registerOperand]

/-- Settles O37: an offer is the kind of the register's last reservation, and an operand goes down the paths. -/
theorem forwardingPathsAndPriority : Obligations.ForwardingPathsAndPriority := by
  unfold Obligations.ForwardingPathsAndPriority
  refine ⟨fun _ _ => rfl, fun path l r hne => ?_, fun path l r before after k hres hafter => ?_,
    fun s r hf => ?_, fun s r hf => operand_of_not_forwarding hf r⟩
  · simp [offer, (lastKind_none_iff r l.res).mpr hne]
  · have hk : lastKind r l.res = some k := lastKind_eq_some_iff.mpr ⟨before, after, hres, hafter⟩
    cases k <;> cases path <;> simp [offer, hk]
  · refine ⟨fun v ha => ?_, fun ha => ?_, fun v ha hb => ?_, fun ha hb => ?_⟩
    · simp [operand, hf, ha]
    · simp [operand, hf, ha]
    · simp [operand, hf, ha, hb]
    · simp [operand, hf, ha, hb, registerOperand]

/-- Settles O38: where neither path has the register reserved, its counter is 0. -/
theorem forwardingStallsOnlyOnLoadUse : Obligations.ForwardingStallsOnlyOnLoadUse := by
  unfold Obligations.ForwardingStallsOnlyOnLoadUse
  intro s r hf hsb
  have hload : offer .xa s.m r = .notReady ↔
      ∃ l before after, s.m = some l ∧ l.res = before ++ ⟨r, .mem⟩ :: after ∧ ∀ p ∈ after, p.reg ≠ r := by
    simp only [offer_xa_notReady_iff, lastKind_eq_some_iff, exists_and_left]
  rw [← hload]
  obtain ⟨-, -, hpaths, -⟩ := forwardingPathsAndPriority.2
  obtain ⟨hready, hnotReady, hready', hregister⟩ := hpaths s r hf
  cases ha : offer .xa s.m r with
  | ready v => simp [hready v ha]
  | notReady => simp [hnotReady ha]
  | nothing =>
    cases hb : offer .xb s.w r with
    | ready v => simp [hready' v ha hb]
    | notReady => exact absurd hb (offer_xb_ne_notReady s.w r)
    | nothing =>
      have h0 : s.count r = 0 := by
        obtain ⟨hcount, -⟩ := hsb
        have hr := hcount r
        have hle := heldCount_le_resCount r s.w
        rw [resCount_of_offer_nothing ha] at hr
        rw [resCount_of_offer_nothing hb] at hle
        exact BitVec.eq_of_toNat_eq (by simpa using (by omega : (s.count r).toNat = 0))
      simp [hregister ha hb, h0]

/-- Without FORWARDING a source has a value exactly where its counter is 0. -/
theorem sourceValue_eq_none_iff {s : State} (hf : s.cfg.forwarding = false) (src : Option RegIdx) (unused : Word) :
    sourceValue s src unused = none ↔ ∃ r, src = some r ∧ s.count r ≠ 0 := by
  cases src with
  | none => simp [sourceValue]
  | some r => simp [sourceValue, operand_of_not_forwarding hf, registerOperand_eq_none_iff]

/-- Without FORWARDING memory releases nothing early, so the counter counts what M and W will write (R48, R158). -/
theorem count_ne_zero_iff {s : State} (hf : s.cfg.forwarding = false) (h : s.ScoreboardAtDecode) (r : RegIdx) :
    s.count r ≠ 0 ↔ resCount r s.m ≠ 0 ∨ resCount r s.w ≠ 0 := by
  obtain ⟨hcount, -, hw⟩ := h
  have hheld : heldCount r s.w = resCount r s.w := by
    cases hx : s.w with
    | none => rfl
    | some l =>
      have hrel : l.rel = false := Bool.eq_false_iff.mpr fun hrel => by simpa [hf] using (hw l hx).2 hrel
      simp [hrel]
  have hr := hcount r
  rw [hheld] at hr
  have hz : s.count r = 0 ↔ (s.count r).toNat = 0 := by simp [← BitVec.toNat_inj]
  rw [ne_eq, hz]
  omega

/-- Settles O39: without FORWARDING the register file and its counter are all that decode looks at. -/
theorem withoutForwardingBusySourcesStall : Obligations.WithoutForwardingBusySourcesStall := by
  unfold Obligations.WithoutForwardingBusySourcesStall
  refine ⟨fun s r hf => operand_of_not_forwarding hf r, fun s t l hf hst hd hs h ht => ?_, fun s r hf hsb => ?_⟩
  · rw [exec_decode _ hst] at h
    cases h
    obtain ⟨v1, v2, sb, h1, h2, -, e⟩ | ⟨hnone, e⟩ | ⟨r, -, e⟩ :=
      issue_cases l.instr.src1 l.instr.src2 l.instr.dsts hd
    · rw [e]
      refine ⟨fun _ r hr => ?_, fun _ => ⟨_, rfl⟩⟩
      by_contra hne
      obtain hr | hr := hr
      · simp [(sourceValue_eq_none_iff hf _ _).mpr ⟨r, hr, hne⟩] at h1
      · simp [(sourceValue_eq_none_iff hf _ _).mpr ⟨r, hr, hne⟩] at h2
    · rw [e]
      refine ⟨nofun, fun hfree => ?_⟩
      simp only [sourceValue_eq_none_iff hf] at hnone
      obtain ⟨r, hr, hne⟩ | ⟨r, hr, hne⟩ := hnone
      · exact absurd (hfree r (.inl hr)) hne
      · exact absurd (hfree r (.inr hr)) hne
    · simp [e] at ht
  · rw [operand_of_not_forwarding hf, registerOperand_eq_none_iff, count_ne_zero_iff hf hsb, resCount_ne_zero_iff,
      resCount_ne_zero_iff]

/-! The engine that no longer runs -/

/-- Settles O8: such an engine's step answers the state it was given, and a clock edge without reset is a step or none. -/
theorem haltedOrFaultedEngineIsStuck : Obligations.HaltedOrFaultedEngineIsStuck := by
  unfold Obligations.HaltedOrFaultedEngineIsStuck
  intro s hc hstop
  have hr : s.running = false := by
    obtain h | h := hstop <;> simp [State.running, h]
  have hstep : step s = .next s := by simp [step, engineStep, State.noStore, hc, hr]
  refine ⟨hstep, ?_, fun stepPin _ _ _ => ?_⟩
  · unfold State.status
    split_ifs with hf hh
    · nofun
    · nofun
    · simp [hf, hh] at hstop
  · cases stepPin
    · rfl
    · exact hstep

/-! Steps of full and of empty pipelines -/

/-- Settles O29: the four cases are those of the unit's definition, and a legal word is given to its meaning. -/
theorem fetchUnitHasFourCases : Obligations.FetchUnitHasFourCases := by
  unfold Obligations.FetchUnitHasFourCases
  intro s
  refine ⟨fun hr => ?_, fun hr hs => ?_, fun hr hs ha => ?_, fun hr hs ha => ⟨?_, fun w i hc hi => ?_⟩⟩
  · simp [fetchUnit, hr]
  · simp [fetchUnit, hr, hs]
  · simp [fetchUnit, hr, hs, ha]
  · simp [fetchUnit, hr, hs, ha]
  · rw [fetchInstr_legal hc hi, exec_at_fetch]

/-- The step of a live engine is the fetch unit on what the other units leave, where they raise no fault. -/
theorem step_eq_closeCycle_fetchUnit {s : State} (hl : s.Live) (hf : (beforeFetch s).fault = false) :
    step s = closeCycle (fetchUnit (beforeFetch s)) := by
  rw [step_live hl, cycleState, thenState_unfaulted _ hf, fetchUnit_eq]
  rfl

theorem decodeState_bubble {s : State} (hd : s.d = none) : decodeState s = { s with e := none } := by
  simp only [decodeState, hd]

/-- With bubbles in W, M and E only decode and fetch do anything (R42). -/
theorem beforeFetch_of_none_issued {s : State} (hf : s.fault = false) (he : s.e = none) (hm : s.m = none)
    (hw : s.w = none) : beforeFetch s = decodeState (beginCycle s) := by
  have hbubble : ∀ u : State, u.fault = false → u.e = none → u.m = none → u.w = none →
      thenState (thenState (writebackState u) memoryState) executeState = u := by
    rintro ⟨⟩ hf he hm hw
    simp only at hf he hm hw
    subst hf he hm hw
    rfl
  rw [beforeFetch, hbubble (beginCycle s) hf he hm hw, thenState_unfaulted _ (by simpa using hf)]

/-- With bubbles in all four latches only fetch does. -/
theorem beforeFetch_of_empty {s : State} (hf : s.fault = false) (hd : s.d = none) (he : s.e = none)
    (hm : s.m = none) (hw : s.w = none) : beforeFetch s = beginCycle s := by
  rw [beforeFetch_of_none_issued hf he hm hw]
  have he' : (beginCycle s).e = none := he
  rw [decodeState_bubble (s := beginCycle s) hd, ← he']

/-- Settles O14: nothing but fetch happens, and fetch is exec of the decoded instruction. -/
theorem stepRunsTheFetchedInstruction : Obligations.StepRunsTheFetchedInstruction := by
  unfold Obligations.StepRunsTheFetchedInstruction
  intro s w i hl ha hd he hm hw hc hi
  have hb := beforeFetch_of_empty hl.not_faulted hd he hm hw
  rw [step_eq_closeCycle_fetchUnit hl (by simpa [hb] using hl.not_faulted), hb]
  obtain ⟨-, -, -, hfetch⟩ := fetchUnitHasFourCases (beginCycle s)
  obtain ⟨hunit, hlegal⟩ := hfetch rfl rfl ha
  have hc' : (beginCycle s).codeAt (beginCycle s).pc = some w := hc
  rw [hunit, hlegal w i hc' hi]

/-- Settles O15: each unit is exec of the instruction in its latch, which the units before it leave where it was. -/
theorem stepRunsTheInstructionOfEveryLatch : Obligations.StepRunsTheInstructionOfEveryLatch := by
  unfold Obligations.StepRunsTheInstructionOfEveryLatch
  intro s s1 s2 s3 lw lm le ld hl hw hm he hd h1 hf1 h2 hf2 h3
  have e1 : s1 = writebackState (beginCycle s) := by
    rw [writebackState_some (s := beginCycle s) hw]
    exact Host.Outcome.next.inj (h1.symm.trans (exec_at_writeback _ _))
  obtain ⟨-, -, hd1, he1, hm1, hr1, -⟩ := writebackState_latches (e1 ▸ hf1)
  rw [← e1] at hd1 he1 hm1 hr1
  have e2 : s2 = memoryState s1 := by
    rw [memoryState_some (hm1.trans hm)]
    exact Host.Outcome.next.inj (h2.symm.trans (exec_at_memory _ _))
  obtain ⟨-, -, hd2, he2, hr2, -⟩ := memoryState_latches (e2 ▸ hf2)
  rw [← e2] at hd2 he2 hr2
  have e3 : s3 = executeState s2 := by
    rw [executeState_some ((he2.trans he1).trans he)]
    exact Host.Outcome.next.inj (h3.symm.trans (exec_at_execute _ _))
  have hf3 : s3.fault = false := by simpa [e3] using hf2
  have hbefore : beforeFetch s = decodeState s3 := by
    rw [beforeFetch, ← e1, thenState_unfaulted _ hf1, ← e2, thenState_unfaulted _ hf2, ← e3, thenState_unfaulted _ hf3]
  have hstep : (decodeState s3).fault = false → step s = closeCycle (fetchUnit (decodeState s3)) := by
    rw [← hbefore]
    exact step_eq_closeCycle_fetchUnit hl
  have hr : s2.redirect = false := (hr2.trans hr1).trans rfl
  obtain ⟨hr3, hd3⟩ | ⟨hr3, -, hd3, -⟩ := e3 ▸ executeState_redirect s2
  · have ed := decodeState_bubble hd3
    refine ⟨fun _ => ?_, fun hno => by simp [hr3] at hno⟩
    rw [hstep (by rw [ed]; exact hf3), ed]
  · refine ⟨fun hyes => by simp [hr3, hr] at hyes, fun _ s4 h4 hf4 => ?_⟩
    have hd3' : s3.d = some ld := ((hd3.trans hd2).trans hd1).trans hd
    have e4 : s4 = decodeState s3 := by
      rw [decodeState_some hd3']
      exact Host.Outcome.next.inj (h4.symm.trans (exec_at_decode _ _))
    rw [e4]
    exact hstep (e4 ▸ hf4)

/-! What the units of an instruction do where they raise no fault -/

/-- Decode of every instruction, with the sources and reservations of its rule (R147, R151). -/
theorem decodeIssues (i : Instr) : DecodeIssues i i.src1 i.src2 i.dsts := by
  have hvalue : ∀ (s : State) (src : Option RegIdx) (unused v : Word), (∀ r ∈ src, operand s r = some v) →
      (src = none → v = unused) → sourceValue s src unused = some v := by
    intro s src unused v hsome hnone
    cases src with
    | none => rw [hnone rfl, sourceValue]
    | some r => exact hsome r rfl
  refine ⟨fun s l v1 v2 hst hd h1 h1' h2 h2' hres => ?_, fun s l r hst hd hr hnone => ?_⟩
  · rw [exec_decode i hst]
    simp only [issue, hd, hvalue s i.src1 l.v1 v1 h1 h1', hvalue s i.src2 l.v2 v2 h2 h2', reserveAll_eq hres]
  · rw [exec_decode i hst]
    simp only [issue, hd]
    obtain hr | hr := hr
    · simp [sourceValue, Option.mem_def.mp hr, hnone, stall, hd]
    · cases sourceValue s i.src1 l.v1 <;> simp [sourceValue, Option.mem_def.mp hr, hnone, stall, hd]

/-- Memory of every instruction that is no load or store (R156). -/
theorem memoryPasses {i : Instr} (hload : i.isLoad = false) (hstore : i.isStore = false) : MemoryPasses i := by
  intro s l hst hm
  rw [exec_memory i hst]
  simp [memoryWork, hload, hstore, passMemory, hm]

/-- Writeback of every instruction (R159 to R161). -/
theorem writebackCommits (i : Instr) (dsts : List Reservation) :
    WritebackCommits i dsts (fun l => commitRegs l dsts) (decide (i = .halt)) := by
  intro s l hst hw hres hrel
  rw [exec_writeback i hst]
  cases hr : l.rel with
  | true => simp [commitWith, hw, hr, hres]
  | false => simp [commitWith, hw, hr, hres, releaseAll_eq (hrel hr)]

/-- Settles O26: HALT has the units that every instruction has, and disarms fetch when it is delivered. -/
theorem haltDisarmsAndHalts : Obligations.HaltDisarmsAndHalts := by
  unfold Obligations.HaltDisarmsAndHalts
  refine ⟨by decide, fun s hst => ?_, decodeIssues .halt, fun s l hst he => ?_, memoryPasses rfl rfl,
    writebackCommits .halt []⟩
  · rw [exec_fetch .halt hst]
    rfl
  · rw [exec_execute .halt hst]
    simp [executeWith, he, executed, executeNothing]

end Sys2Proof.Machine

/-! Cycles in which no unit before fetch raises a fault (R142, R148, R150, R157, R306): what a fetch fault leaves of the
older instructions' work, and the four cycles of an instruction alone in the pipeline. -/

namespace Sys2Proof.Machine

/-! The units before fetch -/

/-- No load or store in M has a bad address (R157). -/
def State.AddressesInRange (s : State) : Prop :=
  ∀ l ∈ s.m, l.instr.isLoad = true ∨ l.instr.isStore = true → 0 ≤ sval l.ea ∧ sval l.ea < s.cfg.dmemSize

/-- Memory raises no fault where the address is good and the early release cannot go below 0. -/
theorem memoryState_fault {s : State} (hf : s.fault = false) (haddr : s.AddressesInRange)
    (hrel : ∀ l ∈ s.m, ∀ r, (l.res.countP fun p => p.reg = r) ≤ (s.count r).toNat) :
    (memoryState s).fault = false := by
  obtain hm | ⟨l, hm⟩ := Option.eq_none_or_eq_some s.m
  · simpa [memoryState, hm] using hf
  have hrange : l.instr.isLoad = true ∨ l.instr.isStore = true → s.inRange l.ea = true := by
    simpa [State.inRange] using haddr l hm
  rw [memoryState_some hm]
  unfold memoryWork
  split_ifs with hload hstore
  · obtain ⟨hr, -⟩ | ⟨-, -, e⟩ | ⟨sb, -, -, -, e⟩ | ⟨r, -, -, herr, -⟩ := loadMemory_cases (s := s.at .memory) hm
    · cases hr.symm.trans (hrange (.inl hload))
    · simpa [e] using hf
    · simpa [e] using hf
    · obtain ⟨sb, hok⟩ := releaseAll_ok (hrel l hm)
      cases herr.symm.trans hok
  · obtain ⟨hr, -⟩ | ⟨-, e⟩ := storeMemory_cases (s := s.at .memory) hm
    · cases hr.symm.trans (hrange (.inr hstore))
    · simpa [e] using hf
  · simpa [passMemory] using hf

/-- With good addresses and the scoreboard invariant, the four units before fetch run without a fault, and execute finds
E, D, the flags, `pc` and fetch as the cycle did. -/
theorem beforeFetch_runs {s : State} (hl : s.Live) (hsb : s.ScoreboardInv) (haddr : s.AddressesInRange) :
    ∃ sw sm, sw = writebackState (beginCycle s) ∧ sm = memoryState sw ∧ sw.fault = false ∧ sm.fault = false ∧
      (executeState sm).ScoreboardAtDecode ∧ (decodeState (executeState sm)).fault = false ∧
      beforeFetch s = decodeState (executeState sm) ∧ sw.m = s.m ∧ sm.e = s.e ∧ sm.flags = s.flags ∧
      sm.d = s.d ∧ sm.pc = s.pc ∧ sm.armed = s.armed ∧ sm.redirect = false ∧ sm.stalled = false := by
  obtain ⟨hwf, hwsb⟩ := writebackState_scoreboard (s := beginCycle s) hl.not_faulted hsb
  have hm : (writebackState (beginCycle s)).m = s.m := by simp [writebackState_latches hwf]
  have hmf : (memoryState (writebackState (beginCycle s))).fault = false := by
    refine memoryState_fault hwf ?_ fun l hl r => ?_
    · simpa only [State.AddressesInRange, hm, writebackState_cfg_code, beginCycle_cfg] using haddr
    · obtain ⟨hcount, -⟩ := hwsb
      rw [hcount r, Option.mem_def.mp hl, resCount_some]
      omega
  have hatDecode := executeState_scoreboard ((memoryState_scoreboard hwf hwsb).1 hmf)
  have hef : (executeState (memoryState (writebackState (beginCycle s)))).fault = false := by simpa using hmf
  refine ⟨_, _, rfl, rfl, hwf, hmf, hatDecode, (decodeState_scoreboard hef hatDecode).1, ?_, hm, ?_⟩
  · rw [beforeFetch, thenState_unfaulted _ hwf, thenState_unfaulted _ hmf, thenState_unfaulted _ hef]
  · simp [memoryState_latches hmf, writebackState_latches hwf]

/-- A cycle in which fetch does not read the store raises no fault if the other units raise none. -/
theorem cycleState_fault_of_no_fetch {s : State} (hf : (beforeFetch s).fault = false)
    (hno : (beforeFetch s).redirect = true ∨ (beforeFetch s).armed = false) : (cycleState s).fault = false := by
  rw [cycleState, thenState_unfaulted _ hf, endCycle_fault]
  unfold fetchState
  split_ifs with hr hs ha
  · exact hf
  · exact hf
  · simp [hr, ha] at hno
  · exact hf

/-- So a taken transfer, behind which nothing is fetched, leaves no fault (R164). -/
theorem cycleState_fault_of_taken {s : State} {l : Latch} (hl : s.Live) (hsb : s.ScoreboardInv)
    (haddr : s.AddressesInRange) (he : s.e = some l) (htakes : l.instr.takes s.flags = true) :
    (cycleState s).fault = false := by
  obtain ⟨-, sm, -, -, -, -, -, hdf, e, -, hsame, hflags, -⟩ := beforeFetch_runs hl hsb haddr
  obtain ⟨-, -, -, hr⟩ := executeState_of_taken (hsame.trans he) (hflags ▸ htakes)
  refine cycleState_fault_of_no_fetch (e ▸ hdf) (.inl ?_)
  simp [e, decodeState_latches hdf, hr]

/-! A fetch fault -/

theorem memoryState_w_res {s : State} (h : (memoryState s).fault = false) :
    (memoryState s).w.map Latch.res = s.m.map Latch.res := by
  obtain ⟨hm, e⟩ | ⟨l, hm, -, -, e⟩ | ⟨l, hm, -, -, e⟩ | ⟨l, sb, hm, -, -, -, e⟩ := memoryState_cases h <;>
    simp [e, hm]

theorem executeState_w (s : State) : (executeState s).w = s.w := by
  obtain ⟨-, e⟩ | ⟨l, -, -, e⟩ | ⟨l, t, -, -, e⟩ := executeState_cases s <;> rw [e]

/-- Decode has no value for a register only where the latches at the start of the cycle held it back (R148, R150). -/
theorem holdsBack_of_operand_eq_none {s u : State} {r : RegIdx} (hcfg : u.cfg = s.cfg)
    (hm : u.m.map Latch.res = s.e.map Latch.res) (hw : u.w.map Latch.res = s.m.map Latch.res)
    (hsb : u.ScoreboardAtDecode) (h : operand u r = none) : s.HoldsBack r := by
  have hreserved : ∀ {x y : Option Latch}, x.map Latch.res = y.map Latch.res → ∀ l, x = some l →
      ∃ l', y = some l' ∧ l'.res = l.res := by
    rintro x y hxy l rfl
    simpa using hxy.symm
  unfold State.HoldsBack
  split_ifs with hf
  · obtain ⟨l, before, after, hl, hres, hafter⟩ := (forwardingStallsOnlyOnLoadUse u r (by rw [hcfg, hf]) hsb).mp h
    obtain ⟨l', hl', hres'⟩ := hreserved hm l hl
    exact ⟨l', before, after, hl', hres'.trans hres, hafter⟩
  · obtain ⟨-, -, hbusy⟩ := withoutForwardingBusySourcesStall
    obtain ⟨l, hl, p, hp, hpr⟩ | ⟨l, hl, p, hp, hpr⟩ := (hbusy u r (by simpa [hcfg] using hf) hsb).mp h
    · obtain ⟨l', hl', hres'⟩ := hreserved hm l hl
      exact .inl ⟨l', hl', p, hres' ▸ hp, hpr⟩
    · obtain ⟨l', hl', hres'⟩ := hreserved hw l hl
      exact .inr ⟨l', hl', p, hres' ▸ hp, hpr⟩

theorem sourceValue_eq_none {s : State} {src : Option RegIdx} {unused : Word} (h : sourceValue s src unused = none) :
    ∃ r ∈ src, operand s r = none := by
  cases src with
  | none => cases h
  | some r => exact ⟨r, rfl, h⟩

/-- Where fetch is to read the store, the units before it leave it to, at the `pc` the cycle began with (R142). -/
theorem beforeFetch_of_willFetch {s : State} (hl : s.Live) (hsb : s.ScoreboardInv) (h : s.WillFetch) :
    (beforeFetch s).fault = false ∧ (beforeFetch s).redirect = false ∧ (beforeFetch s).stalled = false ∧
      (beforeFetch s).armed = true ∧ (beforeFetch s).pc = s.pc := by
  obtain ⟨haddr, htakes, hfree, harmed⟩ := h
  obtain ⟨sw, sm, -, hsm, -, hmf, hatDecode, hdf, e, hwm, he, hflags, hd, hpc, ha, hr, hs⟩ :=
    beforeFetch_runs hl hsb haddr
  have hcfg : (executeState sm).cfg = s.cfg := by
    simpa [e] using (beforeFetch_cfg_code s).1
  have hkept := executeState_of_not_taken (s := sm) (by rwa [he, hflags])
  rw [hd, hpc, ha, hr, hs] at hkept
  obtain ⟨hd, hpc, ha, hr, hs⟩ := hkept
  rw [e]
  refine ⟨hdf, by simp [decodeState_latches hdf, hr], ?_, by simp [decodeState_latches hdf, ha, harmed],
    by simp [decodeState_latches hdf, hpc]⟩
  obtain ⟨-, ed⟩ | ⟨l, v1, v2, sb, -, -, -, -, ed⟩ | ⟨l, hdl, hnone, -⟩ := decodeState_cases hdf
  · simp [ed, hs]
  · simp [ed, hs]
  · have hm : (executeState sm).m.map Latch.res = s.e.map Latch.res := by
      simp [executeState_m, he, Function.comp_def]
    have hw : (executeState sm).w.map Latch.res = s.m.map Latch.res := by
      rw [executeState_w, hsm, memoryState_w_res (hsm ▸ hmf), hwm]
    have hheld : ∀ r, operand (executeState sm) r = none → s.HoldsBack r := fun r =>
      holdsBack_of_operand_eq_none hcfg hm hw hatDecode
    have hsd : s.d = some l := hd ▸ hdl
    obtain h | h := hnone
    · obtain ⟨r, hr, hrn⟩ := sourceValue_eq_none h
      exact absurd (hheld r hrn) (hfree l hsd r (.inl hr))
    · obtain ⟨r, hr, hrn⟩ := sourceValue_eq_none h
      exact absurd (hheld r hrn) (hfree l hsd r (.inr hr))

/-- What the commit, the memory access and the execution of a cycle leave where they do not fault, whatever fetch
does. -/
theorem cycleState_olderWork {s : State} (hl : s.Live) (hsb : s.ScoreboardInv) (haddr : s.AddressesInRange) :
    (cycleState s).regs = s.w.elim s.regs (fun l => commitRegs l l.res s.regs) ∧
      (cycleState s).mem = s.m.elim s.mem (Latch.stores s.mem) ∧
      (cycleState s).flags = s.e.elim s.flags (fun l => l.flagsAfter s.flags) := by
  obtain ⟨sw, sm, hsw, hsm, hwf, hmf, -, -, -, hm, he, hflags, -⟩ := beforeFetch_runs hl hsb haddr
  rw [cycleState_regs, cycleState_mem, cycleState_flags, ← hsw, thenState_unfaulted _ hwf, ← hsm,
    thenState_unfaulted _ hmf]
  subst hsw
  have hmem : (writebackState (beginCycle s)).mem = s.mem := by simp
  refine ⟨?_, ?_, ?_⟩
  · obtain ⟨hn, e⟩ | ⟨l, sb, hw, -, e⟩ := writebackState_cases hwf
    · rw [beginCycle_w] at hn
      simp [e, hn]
    · rw [beginCycle_w] at hw
      simp [e, hw]
  · rw [← hm, ← hmem]
    rw [hsm] at hmf ⊢
    obtain ⟨hn, e⟩ | ⟨l, hm, -, hs, e⟩ | ⟨l, hm, hs, -, e⟩ | ⟨l, sb, hm, hload, -, -, e⟩ := memoryState_cases hmf
    · simp [e, hn]
    · simp [e, hm, l.stores_other _ hs]
    · simp [e, hm, l.stores_store _ hs]
    · have hs : l.instr.isStore = false := Bool.eq_false_iff.mpr fun hs => by simp [isLoad_of_isStore hs] at hload
      simp [e, hm, l.stores_other _ hs]
  · rw [← he, ← hflags]
    obtain ⟨hn, e⟩ | ⟨l, hl, -, e⟩ | ⟨l, pc, hl, -, e⟩ := executeState_cases sm
    · simp [e, hn]
    · simp [e, hl, executed_flagsAfter]
    · simp [e, hl, executed_flagsAfter]

/-- Settles O55: fetch works on what the other units leave, at the `pc` and on the store of the cycle's beginning. -/
theorem fetchFaultKeepsTheOlderWork : Obligations.FetchFaultKeepsTheOlderWork := by
  unfold Obligations.FetchFaultKeepsTheOlderWork
  intro s hl hsb hfetch
  obtain ⟨hf, hr, hs, ha, hpc⟩ := beforeFetch_of_willFetch hl hsb hfetch
  obtain ⟨hcfg, hcode⟩ := beforeFetch_cfg_code s
  have hunit : ∀ t, fetchUnit (beforeFetch s) = .next t → cycleState s = endCycle t := by
    intro t ht
    have hstep := step_eq_closeCycle_fetchUnit hl hf
    rw [ht, step_live hl] at hstep
    exact Host.Outcome.next.inj hstep
  refine ⟨_, step_live hl, fun hbad => ?_, fun w why hbase hmod hword hwhy => ?_, fun _ => ?_⟩
  · obtain ⟨hfault, -⟩ := fetchOutOfRangeFaults (beforeFetch s) hr hs ha (by rwa [hpc, hcfg, hcode])
    rw [hunit _ hfault, hpc]
    exact ⟨rfl, rfl, rfl⟩
  · have hword' : (beforeFetch s).codeAt (beforeFetch s).pc = some w := by
      rw [codeAt_eq_some, hpc, hcfg, hcode]
      exact ⟨hbase, hmod, hword⟩
    obtain ⟨-, -, -, hreads⟩ := fetchUnitHasFourCases (beforeFetch s)
    obtain ⟨hread, -⟩ := hreads hr hs ha
    have hfault := hread.trans (fetchInstr_illegal hword' (by rwa [hcfg]))
    rw [hunit _ hfault, hpc]
    exact ⟨rfl, rfl, rfl⟩
  · obtain ⟨hregs, hmem, hflags⟩ := cycleState_olderWork hl hsb hfetch.1
    refine ⟨cycleState_cycleCount s, retiredCountCountsCommits.1 s _ hl hsb (step_live hl), ?_, ?_, ?_⟩
    · rw [hregs]
      cases s.w <;> rfl
    · rw [hmem]
      cases s.m <;> rfl
    · rw [hflags]
      cases s.e <;> rfl

end Sys2Proof.Machine

/-! An instruction alone in the pipeline (R350): it issues at once, and what is seen once it has finished is its
sequential effect; the cycles after that finish it. -/

namespace Sys2Proof.Machine

/-! Issue -/

/-- The instruction as decode issues it where nothing is in flight: its operands come from the register file. -/
def Latch.issuedFrom (l : Latch) (s : State) : Latch :=
  { l with v1 := l.instr.src1.elim l.v1 s.reg, v2 := l.instr.src2.elim l.v2 s.reg, res := l.instr.dsts, rel := false }

/-- With nothing in flight and no register busy every source has its register's value, in either mode. -/
theorem sourceValue_of_idle {s : State} (hm : s.m = none) (hw : s.w = none) (hcount : ∀ r, s.count r = 0)
    (src : Option RegIdx) (unused : Word) : sourceValue s src unused = some (src.elim unused s.reg) := by
  cases src with
  | none => rfl
  | some r => simp [sourceValue, operand, offer, hm, hw, registerOperand, hcount r]

/-- The first cycle of a lone instruction issues it and fetches nothing. -/
theorem cycleState_lone {s : State} {l : Latch} (h : s.Lone l) :
    cycleState s =
      { s with
        cycleCount := s.cycleCount + 1, d := none, e := some (l.issuedFrom s), sb := reserved l.instr.dsts s.sb
        stage := .writeback, stalled := false, redirect := false } := by
  obtain ⟨hl, hd, he, hm, hw, ha, hcount⟩ := h
  have hissue : decodeState (beginCycle s) =
      { (beginCycle s).at .decode with e := some (l.issuedFrom s), sb := reserved l.instr.dsts s.sb } := by
    have hsb : reserveAll l.instr.dsts s.sb = .ok (reserved l.instr.dsts s.sb) := by
      refine reserveAll_eq fun r => ?_
      have h0 := hcount r
      rw [count_eq_countAt] at h0
      have := countP_dsts_le l.instr r
      simp [h0]
      omega
    rw [decodeState_some (s := beginCycle s) hd]
    simp only [issue, State.at_d, beginCycle_d, hd, State.at_sb, beginCycle_sb, hsb,
      sourceValue_of_idle (s := (beginCycle s).at .decode) hm hw hcount]
    rfl
  rw [cycleState, beforeFetch_of_none_issued hl.not_faulted he hm hw, hissue,
    thenState_unfaulted _ (by simpa using hl.not_faulted)]
  simp [fetchState, ha, endCycle, State.at, beginCycle]

theorem issuedFrom_operands (l : Latch) (s : State) :
    (∀ r ∈ l.instr.src1, regAt s.regs r = (l.issuedFrom s).v1) ∧
      (∀ r ∈ l.instr.src2, regAt s.regs r = (l.issuedFrom s).v2) := by
  constructor
  all_goals
    intro r hr
    simp [Latch.issuedFrom, Option.mem_def.mp hr, reg_eq_regAt]

theorem State.Lone.live {s : State} {l : Latch} (h : s.Lone l) : s.Live := h.1

theorem scoreboardInv_of_lone {s : State} {l : Latch} (h : s.Lone l) : s.ScoreboardInv := by
  obtain ⟨-, -, he, hm, hw, -, hcount⟩ := h
  intro _
  simp [he, hm, hw, hcount]

/-- After the first cycle the engine is still live and meets the scoreboard invariant. -/
theorem cycleState_lone_live {s : State} {l : Latch} (h : s.Lone l) :
    (cycleState s).Live ∧ (cycleState s).ScoreboardInv := by
  have hl := h.live
  have hlive : (cycleState s).Live := by
    rw [cycleState_lone h]
    exact hl
  exact ⟨hlive, (cycleState_scoreboard hl.not_faulted (scoreboardInv_of_lone h)).1 hlive.not_faulted⟩

/-- The address execute computes for a load or store is the one the sequential machine accesses (R240). -/
theorem dataAddress_eq_executed_ea {l : Latch} {regs : Vector Word 32} (f : Flags)
    (hi : l.instr.isLoad = true ∨ l.instr.isStore = true) (h1 : ∀ r ∈ l.instr.src1, regAt regs r = l.v1)
    (h2 : ∀ r ∈ l.instr.src2, regAt regs r = l.v2) :
    dataAddress l.instr regs = some (executed l.instr l f).latch.ea := by
  obtain ⟨i, pc, v1, v2, result, ea, inc, res, rel⟩ := l
  cases i with
  | load rd rs1 imm | loadp rd rs1 imm =>
    have hv1 : regAt regs rs1 = v1 := h1 _ rfl
    subst hv1
    rfl
  | store rs1 rs2 imm | storep rs1 rs2 imm =>
    have hv2 : regAt regs rs2 = v2 := h2 _ rfl
    subst hv2
    rfl
  | _ => simp [Instr.isLoad, Instr.isStore] at hi

/-! Finishing -/

/-- Fetch is disarmed behind the issued instructions, and what will be seen once they have finished is `a`. -/
structure State.Finishing (s : State) (a : Seen) : Prop where
  live : s.Live
  scoreboard : s.ScoreboardInv
  armed : s.armed = false
  d : s.d = none
  finished : s.finished = a

/-- A cycle takes the issued instructions on towards the same end, unless one faults, transfers control or halts. -/
theorem State.Finishing.cycle {s : State} {a : Seen} (h : s.Finishing a) (haddr : s.AddressesInRange)
    (htakes : ∀ l ∈ s.e, l.instr.takes s.flags = false) :
    (cycleState s).fault = false ∧ (cycleState s).ScoreboardInv ∧ (cycleState s).armed = false ∧
      (cycleState s).d = none ∧ (cycleState s).e = none ∧ (cycleState s).finished = a := by
  have hf : (cycleState s).fault = false := by
    obtain ⟨-, sm, -, -, -, -, -, hdf, e, -, hsame, hflags, -, -, harmed, -⟩ :=
      beforeFetch_runs h.live h.scoreboard haddr
    obtain ⟨-, -, ha, -⟩ := executeState_of_not_taken (s := sm) (by rwa [hsame, hflags])
    refine cycleState_fault_of_no_fetch (e ▸ hdf) (.inr ?_)
    simp [e, decodeState_latches hdf, ha, harmed, h.armed]
  obtain ⟨ha, hd, he⟩ := (cycleState_frontEnd hf).of_drained h.armed h.d htakes
  refine ⟨hf, (cycleState_scoreboard h.live.not_faulted h.scoreboard).1 hf, ha, hd, he, ?_⟩
  have hpc : s.PcInv := fun _ l hdl => by simp [h.d] at hdl
  obtain ⟨-, hsame⟩ | ⟨l, -, hdl, -⟩ := finished_cycleState h.live h.scoreboard hpc hf
  · exact hsame.trans h.finished
  · cases h.d.symm.trans hdl

/-- Only a commit halts the engine or counts as retired (R160, R161). -/
theorem cycleState_of_w_none {s : State} (hw : s.w = none) :
    (cycleState s).halted = s.halted ∧ (cycleState s).retiredCount = s.retiredCount := by
  simp [cycleState_halted, cycleState_retiredCount, writebackState, hw]

/-- So without one they stay on their way. -/
theorem State.Finishing.cycle_of_w_none {s : State} {a : Seen} (h : s.Finishing a) (haddr : s.AddressesInRange)
    (htakes : ∀ l ∈ s.e, l.instr.takes s.flags = false) (hw : s.w = none) :
    (cycleState s).Finishing a ∧ (cycleState s).e = none := by
  obtain ⟨hf, hsb, ha, hd, he, hfin⟩ := h.cycle haddr htakes
  have hh : (cycleState s).halted = false := (cycleState_of_w_none hw).1.trans h.live.not_halted
  exact ⟨⟨⟨by simpa using h.live.1, hh, hf⟩, hsb, ha, hd, hfin⟩, he⟩

/-- Once nothing is in flight, what is seen is what will be. -/
theorem finished_of_empty {s : State} (he : s.e = none) (hm : s.m = none) (hw : s.w = none) : s.finished = s.seen := by
  simp only [State.finished, State.finishedMW, he, hm, hw]
  rfl

theorem run_of_live {s : State} (k : Nat) (h : s.Live) :
    Host.Core.run core (k + 1) s = Host.Core.run core k (cycleState s) := by
  rw [run_succ, step_live h]

theorem sequential_halted (i : Instr) (pc : Word) (a : Seen) :
    (sequential i pc a).halted = (a.halted || decide (i = .halt)) := by
  cases i <;> simp [sequential]

/-- The issued instruction will have its sequential effect. -/
theorem finishE_issuedFrom (forwarding : Bool) (l : Latch) (s : State) :
    finishE forwarding (some (l.issuedFrom s)) { s.seen with next := wrap (sval l.pc + 4) } =
      sequential l.instr l.pc s.seen := by
  obtain ⟨h1, h2⟩ := issuedFrom_operands l s
  exact finishE_eq_sequential forwarding (l := l.issuedFrom s) (a := s.seen) rfl h1 h2

/-- After its first cycle a lone instruction is on its way to its sequential effect. -/
theorem finishing_of_lone {s : State} {l : Latch} (h : s.Lone l) (hpc : s.PcInv) :
    (cycleState s).Finishing (sequential l.instr l.pc s.seen) := by
  obtain ⟨hlive, hsb⟩ := cycleState_lone_live h
  have hlone := cycleState_lone h
  obtain ⟨hl, hd, -, hm, hw, ha, -⟩ := h
  refine ⟨hlive, hsb, by rw [hlone]; exact ha, by rw [hlone], ?_⟩
  rw [hlone, ← finishE_issuedFrom s.cfg.forwarding, ← hpc hl.not_faulted l hd]
  simp only [State.finished, State.finishedMW, hm, hw]
  rfl

/-- Its second cycle, which takes no transfer, moves it to M with its data address computed. -/
theorem finishing_of_lone_executed {s : State} {l : Latch} (h : s.Lone l) (hpc : s.PcInv)
    (htakes : l.instr.takes s.flags = false)
    (haddr : ∀ ea ∈ dataAddress l.instr s.regs, 0 ≤ sval ea ∧ sval ea < s.cfg.dmemSize) :
    (cycleState (cycleState s)).Finishing (sequential l.instr l.pc s.seen) ∧ (cycleState (cycleState s)).e = none ∧
      (cycleState (cycleState s)).w = none ∧ (cycleState (cycleState s)).m.isSome ∧
      (cycleState (cycleState s)).AddressesInRange := by
  have h1 := finishing_of_lone h hpc
  have hlone := cycleState_lone h
  obtain ⟨-, -, -, hm, hw, -, -⟩ := h
  have he1 : (cycleState s).e = some (l.issuedFrom s) := by rw [hlone]
  have hm1 : (cycleState s).m = none := by rw [hlone]; exact hm
  have hw1 : (cycleState s).w = none := by rw [hlone]; exact hw
  have hflags1 : (cycleState s).flags = s.flags := by rw [hlone]
  obtain ⟨h2, he2⟩ := h1.cycle_of_w_none (by simp [State.AddressesInRange, hm1])
    (by simpa [he1, hflags1, Latch.issuedFrom] using htakes) hw1
  have hm2 : (cycleState (cycleState s)).m = some (executed l.instr (l.issuedFrom s) s.flags).latch := by
    rw [cycleState_m h2.live.not_faulted, he1, hflags1]
    rfl
  refine ⟨h2, he2, by simpa [hm1] using cycleState_w_instr h1.live h2.live.not_faulted, by simp [hm2],
    fun l2 hl2 hi => ?_⟩
  cases hm2.symm.trans hl2
  obtain ⟨hv1, hv2⟩ := issuedFrom_operands l s
  simp only [cycleState_cfg_code]
  rw [executed_instr] at hi
  exact haddr _ (dataAddress_eq_executed_ea (l := l.issuedFrom s) s.flags hi hv1 hv2)

/-- An instruction alone in M moves to W. -/
theorem State.Finishing.cycle_of_only_m {s : State} {a : Seen} (h : s.Finishing a) (haddr : s.AddressesInRange)
    (he : s.e = none) (hw : s.w = none) (hm : s.m.isSome) :
    (cycleState s).Finishing a ∧ (cycleState s).e = none ∧ (cycleState s).m = none ∧ (cycleState s).w.isSome := by
  obtain ⟨h', he'⟩ := h.cycle_of_w_none haddr (by simp [he]) hw
  have hmoved := congrArg Option.isSome (cycleState_w_instr h.live h'.live.not_faulted)
  exact ⟨h', he', by simp [cycleState_m h'.live.not_faulted, he], by simpa [hm] using hmoved⟩

/-- An instruction alone in W commits, and nothing is left. -/
theorem State.Finishing.cycle_of_only_w {s : State} {a : Seen} (h : s.Finishing a) (he : s.e = none) (hm : s.m = none)
    (hw : s.w.isSome) :
    (cycleState s).fault = false ∧ (cycleState s).Drained ∧ (cycleState s).seen = a ∧
      (cycleState s).retiredCount = s.retiredCount + 1 := by
  obtain ⟨hf, hsb, -, hd, he', hfin⟩ := h.cycle (by simp [State.AddressesInRange, hm]) (by simp [he])
  have hm' : (cycleState s).m = none := by simp [cycleState_m hf, he]
  have hw' : (cycleState s).w = none := by simpa [hm] using cycleState_w_instr h.live hf
  have hcount : ∀ r, (cycleState s).count r = 0 := by
    intro r
    obtain ⟨hc, -⟩ := hsb hf
    exact BitVec.eq_of_toNat_eq (by simpa [he', hm', hw'] using hc r)
  refine ⟨hf, ⟨hd, he', hm', hw', hcount⟩, by rw [← hfin, finished_of_empty he' hm' hw'], ?_⟩
  rw [retiredCountCountsCommits.1 s _ h.live h.scoreboard (step_live h.live), if_pos hw]

/-- Settles O51: the instruction is issued with its operands, executes, passes memory and commits, a cycle for each. -/
theorem loneInstructionTakesFourCycles : Obligations.LoneInstructionTakesFourCycles := by
  unfold Obligations.LoneInstructionTakesFourCycles
  intro s l h hpc htakes haddr
  have hl := h.live
  have h1 := finishing_of_lone h hpc
  obtain ⟨h2, he2, hw2, hm2, haddr2⟩ := finishing_of_lone_executed h hpc htakes haddr
  obtain ⟨h3, he3, hm3, hw3⟩ := h2.cycle_of_only_m haddr2 he2 hw2 hm2
  obtain ⟨hf4, hdrained, hseen, hretired⟩ := h3.cycle_of_only_w he3 hm3 hw3
  have hw1 : (cycleState s).w = none := by
    obtain ⟨-, -, -, -, hw, -, -⟩ := id h
    rw [cycleState_lone h]
    exact hw
  refine ⟨_, ?_, hdrained, hseen, ?_, ?_, hf4, ?_⟩
  · rw [run_of_live 3 hl, run_of_live 2 h1.live, run_of_live 1 h2.live, run_of_live 0 h3.live]
    rfl
  · simp only [cycleState_cycleCount]
    bv_omega
  · rw [hretired, (cycleState_of_w_none hw2).2, (cycleState_of_w_none hw1).2, cycleState_lone h]
  · have hh := congrArg Seen.halted hseen
    rw [sequential_halted] at hh
    simpa [State.seen, hl.not_halted] using hh

/-- Settles O52: decode issues the transfer with its operands, and the next cycle redirects. -/
theorem loneTakenTransferRedirectsInTwoCycles : Obligations.LoneTakenTransferRedirectsInTwoCycles := by
  unfold Obligations.LoneTakenTransferRedirectsInTwoCycles
  intro s l h htakes
  have hlone := cycleState_lone h
  obtain ⟨hlive, hsb⟩ := cycleState_lone_live h
  obtain ⟨hl, -, -, hm, -, -, -⟩ := h
  set s1 := cycleState s
  have he1 : s1.e = some (l.issuedFrom s) := by rw [hlone]
  have hm1 : s1.m = none := by rw [hlone]; exact hm
  have htakes1 : (l.issuedFrom s).instr.takes s1.flags = true := by rwa [hlone]
  have hf := cycleState_fault_of_taken hlive hsb (by simp [State.AddressesInRange, hm1]) he1 htakes1
  obtain ⟨hpc2, ha2, hd2, he2⟩ := takenTransferRedirectsAndFlushes s1 _ _ hlive he1 htakes1 (step_live hlive) hf
  have hm2 := cycleState_m hf
  rw [he1, Option.map_some] at hm2
  refine ⟨cycleState s1, _, ?_, hf, ?_, ha2, hd2, he2, hm2, ?_, ?_, ?_⟩
  · rw [run_of_live 1 hl, run_of_live 0 hlive]
    rfl
  · have hnext := congrArg Seen.next (finishE_issuedFrom s.cfg.forwarding l s)
    rw [finishE_some] at hnext
    rw [← hnext, hpc2]
    exact (if_pos htakes).symm
  · simp [Latch.issuedFrom]
  · simp [Latch.issuedFrom]
  · intro rd rs1 imm hi
    rw [show (l.issuedFrom s).instr = .jalr rd rs1 imm from hi]
    refine ⟨rfl, ?_⟩
    simp [Latch.issuedFrom, hi, Instr.dsts]

end Sys2Proof.Machine

/-! Runs (R171, R313, R333). A run that returns has made some number of steps, each from a state from which the budget
lets a running engine go on, and stands on one from which it does not; everything said of runs is read off that. -/

namespace Sys2Proof.Machine

/-- The engine is running and the budget allows one step more (R171). -/
def Budget.goesOn (budget : Budget) (s : State) : Bool := s.running && budget.allows s.cycleCount

/-- `k` steps, each from a state that lets the run go on, lead from `s` to the state `t`, which does not. -/
def EndsAfter (budget : Budget) (k : Nat) (s t : State) : Prop :=
  Host.Core.run core k s = .next t ∧
    (∀ j < k, ∃ u, Host.Core.run core j s = .next u ∧ budget.goesOn u = true) ∧ budget.goesOn t = false

theorem Budget.goesOn_running {budget : Budget} {s : State} (h : budget.goesOn s = true) : s.running = true := by
  simp only [goesOn, Bool.and_eq_true] at h
  exact h.1

theorem Budget.goesOn_cycles {bound : Nat} {s : State} :
    (Budget.cycles bound).goesOn s = true ↔ s.running = true ∧ s.cycleCount.toNat < bound := by
  simp [goesOn, allows]

/-- A running engine that exists steps to an engine that exists, with one cycle more counted. -/
theorem step_of_running {s : State} (hc : s.code ≠ []) (hr : s.running = true) :
    ∃ t, step s = .next t ∧ t.code ≠ [] ∧ t.cycleCount = s.cycleCount + 1 := by
  have hl : s.halted = false ∧ s.fault = false := by simpa [State.running] using hr
  exact ⟨_, step_live ⟨hc, hl⟩, by simpa using hc, cycleState_cycleCount s⟩

theorem run_of_step {s u : State} (k : Nat) (h : step s = .next u) :
    Host.Core.run core (k + 1) s = Host.Core.run core k u := by
  rw [run_succ, h]

/-- Where the run goes on from `s`, it ends one step later than from the next state. -/
theorem endsAfter_succ {budget : Budget} {k : Nat} {s u t : State} (hgo : budget.goesOn s = true)
    (hs : step s = .next u) : EndsAfter budget (k + 1) s t ↔ EndsAfter budget k u t := by
  unfold EndsAfter
  rw [run_of_step k hs]
  have hsteps : (∀ j < k + 1, ∃ v, Host.Core.run core j s = .next v ∧ budget.goesOn v = true) ↔
      ∀ j < k, ∃ v, Host.Core.run core j u = .next v ∧ budget.goesOn v = true := by
    refine ⟨fun h j hj => ?_, fun h j hj => ?_⟩
    · rw [← run_of_step j hs]
      exact h (j + 1) (by omega)
    · cases j with
      | zero => exact ⟨s, rfl, hgo⟩
      | succ j =>
        rw [run_of_step j hs]
        exact h j (by omega)
  rw [hsteps]

/-- A run from where it does not go on ends at once, and no other does. -/
theorem endsAfter_zero {budget : Budget} {s t : State} :
    EndsAfter budget 0 s t ↔ t = s ∧ budget.goesOn s = false := by
  constructor
  · rintro ⟨h, -, hstop⟩
    cases h
    exact ⟨rfl, hstop⟩
  · rintro ⟨rfl, hstop⟩
    exact ⟨rfl, by simp, hstop⟩

theorem endsAfter_of_stopped {budget : Budget} {k : Nat} {s t : State} (hstop : budget.goesOn s = false)
    (h : EndsAfter budget k s t) : k = 0 ∧ t = s := by
  cases k with
  | zero => exact ⟨rfl, (endsAfter_zero.mp h).1⟩
  | succ k =>
    obtain ⟨-, hsteps, -⟩ := h
    obtain ⟨u, hu, hgo⟩ := hsteps 0 (by omega)
    cases hu
    cases hstop.symm.trans hgo

/-- What a watched run answers: it has returned where it ends within the watch, with what the state it ends on
returns. -/
theorem runFor_eq_returned_iff {budget : Budget} {n : Nat} {s t : State} {r : RunResult} (hc : s.code ≠ []) :
    runFor budget n s = .next (.returned t r) ↔ (∃ k ≤ n, EndsAfter budget k s t) ∧ r = t.runResult := by
  induction n generalizing s with
  | zero =>
    cases hgo : budget.goesOn s with
    | false =>
      rw [runFor_returns 0 hc hgo]
      simp only [Host.Outcome.next.injEq, RunProgress.returned.injEq, Nat.le_zero, exists_eq_left, endsAfter_zero, hgo,
        and_true]
      constructor <;> (rintro ⟨rfl, rfl⟩; exact ⟨rfl, rfl⟩)
    | true =>
      rw [runFor_watched hc hgo]
      simp [endsAfter_zero, hgo]
  | succ n ih =>
    cases hgo : budget.goesOn s with
    | false =>
      rw [runFor_returns (n + 1) hc hgo]
      constructor
      · intro h
        cases h
        exact ⟨⟨0, by omega, endsAfter_zero.mpr ⟨rfl, hgo⟩⟩, rfl⟩
      · rintro ⟨⟨k, -, hk⟩, rfl⟩
        obtain ⟨-, rfl⟩ := endsAfter_of_stopped hgo hk
        rfl
    | true =>
      obtain ⟨u, hs, hcu, -⟩ := step_of_running hc (Budget.goesOn_running hgo)
      rw [runFor_steps n hc hgo hs, ih hcu]
      refine and_congr_left fun _ => ⟨fun ⟨k, hk, h⟩ => ⟨k + 1, by omega, (endsAfter_succ hgo hs).mpr h⟩, ?_⟩
      rintro ⟨k, hk, h⟩
      cases k with
      | zero => cases hgo.symm.trans (endsAfter_zero.mp h).2
      | succ k => exact ⟨k, by omega, (endsAfter_succ hgo hs).mp h⟩

/-- A watched run of an engine that exists has returned or is still stepping. -/
theorem runFor_answers (budget : Budget) (n : Nat) {s : State} (hc : s.code ≠ []) :
    (∃ t r, runFor budget n s = .next (.returned t r)) ∨ ∃ t, runFor budget n s = .next (.stepping t) := by
  induction n generalizing s with
  | zero =>
    cases hgo : budget.goesOn s with
    | false => exact .inl ⟨_, _, runFor_returns 0 hc hgo⟩
    | true => exact .inr ⟨_, runFor_watched hc hgo⟩
  | succ n ih =>
    cases hgo : budget.goesOn s with
    | false => exact .inl ⟨_, _, runFor_returns (n + 1) hc hgo⟩
    | true =>
      obtain ⟨u, hs, hcu, -⟩ := step_of_running hc (Budget.goesOn_running hgo)
      rw [runFor_steps n hc hgo hs]
      exact ih hcu

theorem code_ne_nil_of_runFor {budget : Budget} {n : Nat} {s : State} {p : RunProgress}
    (h : runFor budget n s = .next p) : s.code ≠ [] := by
  intro hc
  cases n <;> simp [runFor, State.noStore, hc] at h

/-! Bounds -/

/-- A run comes no further than its bound: cycle_count rises by 1 in each step and does not wrap below it. -/
theorem cycleCount_le_of_endsAfter {bound k : Nat} {s t : State} (hc : s.code ≠ [])
    (h : EndsAfter (.cycles bound) k s t) (hs : s.cycleCount.toNat ≤ bound) : t.cycleCount.toNat ≤ bound := by
  induction k generalizing s with
  | zero => rwa [(endsAfter_zero.mp h).1]
  | succ k ih =>
    obtain ⟨u, hu, hgo⟩ := h.2.1 0 (by omega)
    cases hu
    obtain ⟨hr, hlt⟩ := Budget.goesOn_cycles.mp hgo
    obtain ⟨u, hs, hcu, hcount⟩ := step_of_running hc hr
    refine ih hcu ((endsAfter_succ hgo hs).mp h) ?_
    have hsum : u.cycleCount.toNat = (s.cycleCount.toNat + 1) % 2 ^ 64 := by simp [hcount, BitVec.toNat_add]
    omega

/-- A run with a bound below 2^64 has returned once it has been watched for the steps that are left. -/
theorem runFor_cycles_returns {bound : Nat} (hbound : bound < 2 ^ 64) {n : Nat} {s : State} (hc : s.code ≠ [])
    (hn : bound - s.cycleCount.toNat ≤ n) : ∃ t r, runFor (.cycles bound) n s = .next (.returned t r) := by
  induction n generalizing s with
  | zero =>
    have hgo : (Budget.cycles bound).goesOn s = false := by
      rw [Bool.eq_false_iff, ne_eq, Budget.goesOn_cycles]
      omega
    exact ⟨_, _, runFor_returns 0 hc hgo⟩
  | succ n ih =>
    cases hgo : (Budget.cycles bound).goesOn s with
    | false => exact ⟨_, _, runFor_returns (n + 1) hc hgo⟩
    | true =>
      obtain ⟨hr, hlt⟩ := Budget.goesOn_cycles.mp hgo
      obtain ⟨u, hs, hcu, hcount⟩ := step_of_running hc hr
      rw [runFor_steps n hc hgo hs]
      refine ih hcu ?_
      have hsum : u.cycleCount.toNat = (s.cycleCount.toNat + 1) % 2 ^ 64 := by simp [hcount, BitVec.toNat_add]
      omega

/-- Where a run stops, the engine no longer runs or the bound is reached. -/
theorem goesOn_eq_false {budget : Budget} {s : State} (h : budget.goesOn s = false) :
    s.running = false ∨ ∃ bound, budget = .cycles bound ∧ bound ≤ s.cycleCount.toNat := by
  cases hr : s.running with
  | false => exact .inl rfl
  | true =>
    cases budget with
    | cycles bound => exact .inr ⟨bound, rfl, by simpa [Budget.goesOn, Budget.allows, hr] using h⟩
    | unbounded => simp [Budget.goesOn, Budget.allows, hr] at h

/-- The status a run returns, read off the state it ends on (R171, R333). -/
theorem runResult_status (t : State) : t.runResult.status =
    if t.fault then .fault t.faultCause t.faultInfo else if t.halted then .halted else .budgetExhausted := by
  cases hf : t.fault <;> cases hh : t.halted <;> simp [State.runResult, State.status, hf, hh]

/-- Settles O12: a returned run is one that ends within the watch, and a bound that cycle_count can reach is reached. -/
theorem runStopsAtTheBoundOrTheEnd : Obligations.RunStopsAtTheBoundOrTheEnd := by
  unfold Obligations.RunStopsAtTheBoundOrTheEnd
  refine ⟨fun s bound hc hbound => runFor_cycles_returns hbound hc le_rfl, fun s budget n t r h => ?_⟩
  have hc := code_ne_nil_of_runFor h
  obtain ⟨⟨k, hk, hends⟩, hr⟩ := (runFor_eq_returned_iff hc).mp h
  obtain ⟨hrun, hsteps, hstop⟩ := id hends
  refine ⟨⟨k, hk, hrun, fun j hj => ?_⟩, goesOn_eq_false hstop, fun bound hb htr hs => ?_, by rw [hr]; rfl,
    by rw [hr]; rfl, hr ▸ runResult_status t, fun m hm => ?_⟩
  · obtain ⟨u, hu, hgo⟩ := hsteps j hj
    refine ⟨u, hu, Budget.goesOn_running hgo, fun bound hb => ?_⟩
    subst hb
    exact (Budget.goesOn_cycles.mp hgo).2
  · subst hb
    have hle := cycleCount_le_of_endsAfter hc hends hs
    rw [Bool.eq_false_iff, ne_eq, Budget.goesOn_cycles] at hstop
    exact le_antisymm hle (not_lt.mp fun hlt => hstop ⟨htr, hlt⟩)
  · exact (runFor_eq_returned_iff hc).mpr ⟨⟨k, by omega, hends⟩, hr⟩

/-! Run-to-completion -/

/-- An unbounded budget and one that the 64-bit cycle_count never reaches let every running engine go on (R313). -/
theorem goesOn_of_unreachable {budget : Budget}
    (h : budget = .unbounded ∨ ∃ bound, budget = .cycles bound ∧ 2 ^ 64 ≤ bound) (s : State) :
    budget.goesOn s = s.running := by
  obtain rfl | ⟨bound, rfl, hb⟩ := h
  · simp [Budget.goesOn, Budget.allows]
  · have hlt : s.cycleCount.toNat < bound := lt_of_lt_of_le s.cycleCount.isLt hb
    simp [Budget.goesOn, Budget.allows, hlt]

/-- Such a run ends on the first state, if there is one, in which the engine no longer runs. -/
theorem exists_endsAfter {budget : Budget} (hgo : ∀ s : State, budget.goesOn s = s.running) {k : Nat} {s t : State}
    (hc : s.code ≠ []) (hrun : Host.Core.run core k s = .next t) (ht : t.running = false) :
    ∃ j u, EndsAfter budget j s u := by
  induction k generalizing s with
  | zero =>
    cases hrun
    exact ⟨0, t, endsAfter_zero.mpr ⟨rfl, by rw [hgo, ht]⟩⟩
  | succ k ih =>
    cases hr : s.running with
    | false => exact ⟨0, s, endsAfter_zero.mpr ⟨rfl, by rw [hgo, hr]⟩⟩
    | true =>
      obtain ⟨u, hs, hcu, -⟩ := step_of_running hc hr
      rw [run_of_step k hs] at hrun
      obtain ⟨j, v, hv⟩ := ih hcu hrun
      exact ⟨j + 1, v, (endsAfter_succ (by rw [hgo, hr]) hs).mpr hv⟩

/-- A run returns exactly if it ends. -/
theorem runReturns_iff {budget : Budget} {s t : State} {r : RunResult} (hc : s.code ≠ []) :
    RunReturns budget s t r ↔ (∃ k, EndsAfter budget k s t) ∧ r = t.runResult := by
  simp only [RunReturns, runFor_eq_returned_iff hc]
  exact ⟨fun ⟨_, ⟨k, _, hk⟩, hr⟩ => ⟨⟨k, hk⟩, hr⟩, fun ⟨⟨k, hk⟩, hr⟩ => ⟨k, ⟨k, le_rfl, hk⟩, hr⟩⟩

/-- A run is endless exactly if it does not return. -/
theorem runEndless_iff {budget : Budget} {s : State} (hc : s.code ≠ []) :
    RunEndless budget s ↔ ¬ ∃ t r, RunReturns budget s t r := by
  constructor
  · rintro h ⟨t, r, n, hn⟩
    obtain ⟨u, hu⟩ := h n
    cases hu.symm.trans hn
  · intro h n
    obtain ⟨t, r, hn⟩ | hn := runFor_answers budget n hc
    · exact absurd ⟨t, r, n, hn⟩ h
    · exact hn

/-- Settles O56: such a run ends where the engine stops running, and nowhere else. -/
theorem runToCompletionReturnsOnlyAtTheEnd : Obligations.RunToCompletionReturnsOnlyAtTheEnd := by
  unfold Obligations.RunToCompletionReturnsOnlyAtTheEnd
  intro s budget hc hbudget
  have hgo := goesOn_of_unreachable hbudget
  have hreturns : (∃ t r, RunReturns budget s t r) ↔
      ∃ k t, Host.Core.run core k s = .next t ∧ t.running = false := by
    simp only [runReturns_iff hc]
    constructor
    · rintro ⟨t, -, ⟨k, hrun, -, hstop⟩, -⟩
      exact ⟨k, t, hrun, by rwa [← hgo]⟩
    · rintro ⟨k, t, hrun, ht⟩
      obtain ⟨j, u, hu⟩ := exists_endsAfter hgo hc hrun ht
      exact ⟨u, _, ⟨j, hu⟩, rfl⟩
  refine ⟨fun t r h => ?_, hreturns, ?_⟩
  · obtain ⟨⟨k, -, -, hstop⟩, rfl⟩ := (runReturns_iff hc).mp h
    have hr : t.running = false := by rwa [← hgo]
    refine ⟨hr, ?_⟩
    rw [runResult_status]
    split_ifs with hf hh
    · nofun
    · nofun
    · simp [State.running, hf, hh] at hr
  · rw [runEndless_iff hc, hreturns]
    simp only [not_exists, not_and, Bool.not_eq_false]

end Sys2Proof.Machine

/-! The arithmetic, logical, move and compare instructions in each of the five units (spec/41_alu_compare.md): what each
unit does with an instruction of their shape, and the statements assembled from that. -/

namespace Sys2Proof.Machine

/-! What the units do, by the shape of the instruction's rule -/

/-- Fetch of every instruction but HALT (R143). -/
theorem fetchDelivers {i : Instr} (hhalt : i ≠ .halt) : FetchDelivers i := by
  intro s hst
  rw [exec_fetch i hst, fetchWork, if_neg hhalt]
  rfl

/-- Execute of an instruction that takes no transfer: its step's latch and flags, and nothing else (R152, R153). -/
theorem exec_execute_of_not_taken (i : Instr) {s : State} {l : Latch} (hst : s.stage = .execute) (he : s.e = some l)
    (ht : (executed i l s.flags).target = none) :
    exec i s = .next { s with m := some (executed i l s.flags).latch, flags := (executed i l s.flags).flags } := by
  rw [exec_execute i hst]
  simp only [executeWith, he, ht, redirectTo]

/-- Execute of an instruction that computes a result and sets the flags from it (R200). -/
theorem exec_execute_of_computeResult {i : Instr} {result : Latch → Word} (hi : executed i = computeResult result)
    {s : State} {l : Latch} (hst : s.stage = .execute) (he : s.e = some l) :
    exec i s = .next { s with m := some { l with result := result l }, flags := flagsOf (result l) } := by
  rw [exec_execute_of_not_taken i hst he (by rw [hi]; rfl), hi]
  rfl

/-- Writeback of an instruction that reserves `rd` for its result (R159). -/
theorem writebackCommits_result {i : Instr} (hhalt : i ≠ .halt) (rd : RegIdx) :
    WritebackCommits i [⟨rd, .alu⟩] (fun l regs => setReg regs rd l.result) false := by
  rw [← decide_eq_false hhalt]
  exact writebackCommits i [⟨rd, .alu⟩]

/-- Writeback of an instruction that reserves no register (R159). -/
theorem writebackCommits_nothing {i : Instr} (hhalt : i ≠ .halt) :
    WritebackCommits i [] (fun _ regs => regs) false := by
  rw [← decide_eq_false hhalt]
  exact writebackCommits i []

/-- The result of a latch that reserves `rd` for it is ready on both paths (R149). -/
theorem offersResult (rd : RegIdx) : OffersResult [⟨rd, .alu⟩] rd := by
  intro l hres
  simp [offer, hres, lastKind]

/-- An instruction that reserves one register, for a result of execute, accesses no memory and is not HALT (R108). -/
theorem accessesNothing_of_dsts {i : Instr} {rd : RegIdx} (h : i.dsts = [⟨rd, .alu⟩]) :
    i.isLoad = false ∧ i.isStore = false ∧ i ≠ .halt := by
  cases i
  case add | sub | mul | and | or | xor | addl | subl | movc | jalr => exact ⟨rfl, rfl, nofun⟩
  all_goals simp [Instr.dsts] at h

/-- All units of an instruction that computes a result for `rd` and sets the flags from it (R200, R212). -/
theorem computeResult_units (i : Instr) {rd : RegIdx} {result : Latch → Word} (hdsts : i.dsts = [⟨rd, .alu⟩])
    (hi : executed i = computeResult result) :
    FetchDelivers i ∧ DecodeIssues i i.src1 i.src2 [⟨rd, .alu⟩] ∧
      (∀ (s : State) (l : Latch), s.stage = .execute → s.e = some l →
        exec i s = .next { s with m := some { l with result := result l }, flags := flagsOf (result l) }) ∧
      MemoryPasses i ∧ WritebackCommits i [⟨rd, .alu⟩] (fun l regs => setReg regs rd l.result) false ∧
      OffersResult [⟨rd, .alu⟩] rd := by
  obtain ⟨hload, hstore, hhalt⟩ := accessesNothing_of_dsts hdsts
  exact ⟨fetchDelivers hhalt, hdsts ▸ decodeIssues i, fun _ _ => exec_execute_of_computeResult hi,
    memoryPasses hload hstore, writebackCommits_result hhalt rd, offersResult rd⟩

/-- The eight instructions of the flag rule compute a result and set the flags from it (R200). -/
theorem executed_eq_computeResult {i : Instr} (h : i.opcode.toNat ≤ 7) : ∃ result, executed i = computeResult result := by
  cases i
  case add | sub | mul | and | or | xor | addl | subl => exact ⟨_, rfl⟩
  all_goals simp [Instr.opcode] at h

/-! The statements -/

/-- Settles O16: each computes a result from its two operands. -/
theorem registerRegisterInstructions : Obligations.RegisterRegisterInstructions := by
  unfold Obligations.RegisterRegisterInstructions
  intro p hp rd rs1 rs2
  simp only [List.mem_cons, List.not_mem_nil, or_false] at hp
  obtain rfl | rfl | rfl | rfl | rfl | rfl := hp
  · exact ⟨rfl, computeResult_units (.add rd rs1 rs2) rfl rfl⟩
  · exact ⟨rfl, computeResult_units (.sub rd rs1 rs2) rfl rfl⟩
  · exact ⟨rfl, computeResult_units (.mul rd rs1 rs2) rfl rfl⟩
  · exact ⟨rfl, computeResult_units (.and rd rs1 rs2) rfl rfl⟩
  · exact ⟨rfl, computeResult_units (.or rd rs1 rs2) rfl rfl⟩
  · exact ⟨rfl, computeResult_units (.xor rd rs1 rs2) rfl rfl⟩

/-- Settles O17: both compute a result from the one operand and the immediate. -/
theorem registerImmediateInstructions : Obligations.RegisterImmediateInstructions := by
  unfold Obligations.RegisterImmediateInstructions
  intro p hp rd rs1 imm
  simp only [List.mem_cons, List.not_mem_nil, or_false] at hp
  obtain rfl | rfl := hp
  · exact ⟨rfl, computeResult_units (.addl rd rs1 imm) rfl rfl⟩
  · exact ⟨rfl, computeResult_units (.subl rd rs1 imm) rfl rfl⟩

/-- Settles O18: all eight set the flags from the result they leave in the latch. -/
theorem arithmeticFlagRule : Obligations.ArithmeticFlagRule := by
  unfold Obligations.ArithmeticFlagRule
  intro i s l hop hst he
  obtain ⟨result, hi⟩ := executed_eq_computeResult hop
  exact ⟨_, _, exec_execute_of_computeResult hi hst he, rfl, decide_eq_true_iff, decide_eq_true_iff, decide_eq_true_iff⟩

/-- Settles O20: execute passes the latch on and sets the flags by the three-way test of the two integers. -/
theorem compareInstructions : Obligations.CompareInstructions := by
  unfold Obligations.CompareInstructions
  refine ⟨fun rs1 rs2 => ?_, fun rs1 imm => ?_⟩
  · exact ⟨rfl, fetchDelivers nofun, decodeIssues (.cmp rs1 rs2),
      fun _ _ hst he => exec_execute_of_not_taken (.cmp rs1 rs2) hst he rfl, memoryPasses rfl rfl,
      writebackCommits_nothing nofun⟩
  · exact ⟨rfl, fetchDelivers nofun, decodeIssues (.cml rs1 imm),
      fun _ _ hst he => exec_execute_of_not_taken (.cml rs1 imm) hst he rfl, memoryPasses rfl rfl,
      writebackCommits_nothing nofun⟩

/-- Settles O19: execute passes the flags on and takes the immediate for the result. -/
theorem moveConstant : Obligations.MoveConstant := by
  unfold Obligations.MoveConstant
  intro rd imm
  have hhalt : Instr.movc rd imm ≠ .halt := nofun
  exact ⟨rfl, fetchDelivers hhalt, decodeIssues (.movc rd imm),
    fun _ _ hst he => exec_execute_of_not_taken (.movc rd imm) hst he rfl, memoryPasses rfl rfl,
    writebackCommits_result hhalt rd, offersResult rd⟩

end Sys2Proof.Machine

/-! The loads and stores in each of the five units (spec/42_load_store.md): what is theirs alone, the memory access, the
base register's second reservation and the offers that follow from it, and the statements assembled from that. -/

namespace Sys2Proof.Machine

/-! Memory -/

theorem inRange_iff (s : State) (ea : Word) : s.inRange ea = true ↔ 0 ≤ sval ea ∧ sval ea < s.cfg.dmemSize := by
  simp [State.inRange]

/-- A load of a cell that exists reads it, and with FORWARDING releases its reservations (R156, R158). -/
theorem exec_memory_of_load {i : Instr} {s : State} {l : Latch} (hload : i.isLoad = true) (hst : s.stage = .memory)
    (hm : s.m = some l) (hr : s.inRange l.ea = true) (hrel : s.cfg.forwarding = true → CanRelease l.res s) :
    exec i s = .next
      { s with
        w := some { l with
          result := Memory.read s.mem (sval l.ea).toNat
          rel := if s.cfg.forwarding then true else l.rel }
        sb := if s.cfg.forwarding then released l.res s.sb else s.sb } := by
  rw [exec_memory i hst, memoryWork, if_pos hload]
  obtain ⟨hbad, -⟩ | ⟨-, hf, e⟩ | ⟨sb, -, hf, hsb, e⟩ | ⟨r, -, hf, herr, -⟩ := loadMemory_cases hm
  · cases hr.symm.trans hbad
  · simp [e, hf, State.memRead, cellIndex]
  · cases hsb.symm.trans (releaseAll_eq (hrel hf))
    simp [e, hf, State.memRead, cellIndex]
  · cases herr.symm.trans (releaseAll_eq (hrel hf))

/-- A store to a cell that exists writes the latch's first operand value there (R156). -/
theorem exec_memory_of_store {i : Instr} {s : State} {l : Latch} (hstore : i.isStore = true) (hst : s.stage = .memory)
    (hm : s.m = some l) (hr : s.inRange l.ea = true) :
    exec i s = .next { s with mem := Memory.write s.mem (sval l.ea).toNat l.v1, w := some l } := by
  rw [exec_memory i hst, memoryWork, if_neg (by simp [isLoad_of_isStore hstore]), if_pos hstore]
  obtain ⟨hbad, -⟩ | ⟨-, e⟩ := storeMemory_cases hm
  · cases hr.symm.trans hbad
  · rw [e, cellIndex]

/-- A load or store of a cell that does not exist raises the fault (R157). -/
theorem exec_memory_of_badAddress {i : Instr} {s : State} {l : Latch} (hi : i.isLoad = true ∨ i.isStore = true)
    (hst : s.stage = .memory) (hm : s.m = some l) (hbad : ¬ (0 ≤ sval l.ea ∧ sval l.ea < s.cfg.dmemSize)) :
    exec i s = .next (raise (.dataAddressOutOfRange l.ea l.pc) s) := by
  rw [exec_memory i hst, memoryWork_badAddress hi hm]
  exact Bool.eq_false_iff.mpr (mt (inRange_iff s l.ea).mp hbad)

/-! Writeback and the offers, by the reservations -/

/-- Writeback of every instruction but HALT (R159, R160). -/
theorem writebackCommits_of_ne_halt (i : Instr) (hhalt : i ≠ .halt) (dsts : List Reservation) :
    WritebackCommits i dsts (fun l => commitRegs l dsts) false := by
  rw [← decide_eq_false hhalt]
  exact writebackCommits i dsts

theorem offersLoaded {dsts : List Reservation} {r : RegIdx} (h : lastKind r dsts = some .mem) : OffersLoaded dsts r := by
  intro l hres
  simp [offer, hres, h]

theorem offersIncrement {dsts : List Reservation} {r : RegIdx} (h : lastKind r dsts = some .inc) :
    OffersIncrement dsts r := by
  intro l hres
  simp [offer, hres, h]

theorem offersNothing : OffersNothing [] := by
  intro l path r hres
  exact offer_nothing path (by simp [hres])

/-! The statements -/

/-- Settles O21: the base is LOADP's last reservation, so it is written last and offered where rd is the same register. -/
theorem loadInstructions : Obligations.LoadInstructions := by
  unfold Obligations.LoadInstructions
  refine ⟨fun rd rs1 imm => ?_, fun rd rs1 imm => ?_, fun i s l hload hst hm h0 hlt hrel => ?_,
    fun i s l hload hst hm hbad => exec_memory_of_badAddress (.inl hload) hst hm hbad⟩
  · exact ⟨rfl, fetchDelivers nofun, decodeIssues (.load rd rs1 imm),
      fun _ _ hst he => exec_execute_of_not_taken (.load rd rs1 imm) hst he rfl,
      writebackCommits_of_ne_halt (.load rd rs1 imm) nofun [⟨rd, .mem⟩], offersLoaded (lastKind_last [] rd .mem nofun)⟩
  · exact ⟨rfl, fetchDelivers nofun, decodeIssues (.loadp rd rs1 imm),
      fun _ _ hst he => exec_execute_of_not_taken (.loadp rd rs1 imm) hst he rfl,
      writebackCommits_of_ne_halt (.loadp rd rs1 imm) nofun [⟨rd, .mem⟩, ⟨rs1, .inc⟩],
      offersIncrement (lastKind_last [⟨rd, .mem⟩] rs1 .inc nofun),
      fun hne => offersLoaded (lastKind_last [] rd .mem (by simpa using hne.symm))⟩
  · exact exec_memory_of_load hload hst hm ((inRange_iff s l.ea).mpr ⟨h0, hlt⟩) hrel

/-- Settles O22: execute takes the base from the second operand, memory stores the first, and only STOREP has a
reservation, its base's. -/
theorem storeInstructions : Obligations.StoreInstructions := by
  unfold Obligations.StoreInstructions
  refine ⟨fun rs1 rs2 imm => ?_, fun rs1 rs2 imm => ?_, fun i s l hstore hst hm h0 hlt => ?_,
    fun i s l hstore hst hm hbad => exec_memory_of_badAddress (.inr hstore) hst hm hbad⟩
  · exact ⟨rfl, fetchDelivers nofun, decodeIssues (.store rs1 rs2 imm),
      fun _ _ hst he => exec_execute_of_not_taken (.store rs1 rs2 imm) hst he rfl,
      writebackCommits_nothing nofun, offersNothing⟩
  · exact ⟨rfl, fetchDelivers nofun, decodeIssues (.storep rs1 rs2 imm),
      fun _ _ hst he => exec_execute_of_not_taken (.storep rs1 rs2 imm) hst he rfl,
      writebackCommits_of_ne_halt (.storep rs1 rs2 imm) nofun [⟨rs2, .inc⟩],
      offersIncrement (lastKind_last [] rs2 .inc nofun)⟩
  · exact exec_memory_of_store hstore hst hm ((inRange_iff s l.ea).mpr ⟨h0, hlt⟩)

end Sys2Proof.Machine

/-! The control-transfer instructions in each of the five units (spec/43_control_transfer.md): execute where the
transfer is taken, the two outcomes of a branch's flag test, and the statements assembled from that. -/

namespace Sys2Proof.Machine

/-! Execute -/

/-- Execute of an instruction that takes its transfer: its step's latch and flags, and the redirect (R154, R163, R165). -/
theorem exec_execute_of_taken (i : Instr) {s : State} {l : Latch} {target : Word} (hst : s.stage = .execute)
    (he : s.e = some l) (ht : (executed i l s.flags).target = some target) :
    exec i s = .next
      { s with
        m := some (executed i l s.flags).latch, flags := (executed i l s.flags).flags
        pc := target, armed := true, d := none, redirect := true } := by
  rw [exec_execute i hst]
  simp only [executeWith, he, ht, redirectTo]

/-- Execute of a conditional branch whose flag test holds (R263). -/
theorem exec_execute_of_branch_taken {i : Instr} {test : Flags → Bool} {imm : Word}
    (hi : executed i = computeBranch test imm) {s : State} {l : Latch} (hst : s.stage = .execute) (he : s.e = some l)
    (htest : test s.flags = true) :
    exec i s = .next
      { s with m := some l, pc := wrap (sval l.pc + sval imm), armed := true, d := none, redirect := true } := by
  have ht : (executed i l s.flags).target = some (transferTarget l.pc imm) := by rw [hi]; exact if_pos htest
  rw [exec_execute_of_taken i hst he ht, hi]
  rfl

/-- Execute of a conditional branch whose flag test does not hold (R263). -/
theorem exec_execute_of_branch_not_taken {i : Instr} {test : Flags → Bool} {imm : Word}
    (hi : executed i = computeBranch test imm) {s : State} {l : Latch} (hst : s.stage = .execute) (he : s.e = some l)
    (htest : test s.flags = false) : exec i s = .next { s with m := some l } := by
  have ht : (executed i l s.flags).target = none := by rw [hi]; exact if_neg (Bool.eq_false_iff.mp htest)
  rw [exec_execute_of_not_taken i hst he ht, hi]
  rfl

/-! All units of a branch -/

/-- An instruction with no register field has no source and no reservation, and accesses no memory (R104, R108). -/
theorem usesNothing_of_regFields {i : Instr} (h : i.regFields = []) :
    i.src1 = none ∧ i.src2 = none ∧ i.dsts = [] ∧ i.isLoad = false ∧ i.isStore = false := by
  cases i
  case bz | bnz | bp | bnp | bn | bnn | nop | halt => exact ⟨rfl, rfl, rfl, rfl, rfl⟩
  all_goals simp [Instr.regFields] at h

/-- All units of a conditional branch (R263). -/
theorem computeBranch_units (i : Instr) {test : Flags → Bool} {imm : Word} (hregs : i.regFields = [])
    (hhalt : i ≠ .halt) (hi : executed i = computeBranch test imm) :
    FetchDelivers i ∧ DecodeIssues i none none [] ∧
      (∀ (s : State) (l : Latch), s.stage = .execute → s.e = some l → test s.flags = true →
        exec i s = .next
          { s with m := some l, pc := wrap (sval l.pc + sval imm), armed := true, d := none, redirect := true }) ∧
      (∀ (s : State) (l : Latch), s.stage = .execute → s.e = some l → test s.flags = false →
        exec i s = .next { s with m := some l }) ∧
      MemoryPasses i ∧ WritebackCommits i [] (fun _ regs => regs) false := by
  obtain ⟨hsrc1, hsrc2, hdsts, hload, hstore⟩ := usesNothing_of_regFields hregs
  have hdecode : DecodeIssues i none none [] := by
    simpa only [hsrc1, hsrc2, hdsts] using decodeIssues i
  exact ⟨fetchDelivers hhalt, hdecode, fun _ _ => exec_execute_of_branch_taken hi,
    fun _ _ => exec_execute_of_branch_not_taken hi, memoryPasses hload hstore, writebackCommits_nothing hhalt⟩

/-! The statements -/

/-- Settles O23: both take the one transfer, and JALR's step leaves the link value in the latch for `rd`. -/
theorem jumpInstructions : Obligations.JumpInstructions := by
  unfold Obligations.JumpInstructions
  refine ⟨fun rs1 imm => ?_, fun rd rs1 imm => ?_⟩
  · exact ⟨rfl, fetchDelivers nofun, decodeIssues (.jump rs1 imm),
      fun _ _ hst he => exec_execute_of_taken (.jump rs1 imm) hst he rfl, memoryPasses rfl rfl,
      writebackCommits_nothing nofun⟩
  · have hhalt : Instr.jalr rd rs1 imm ≠ .halt := nofun
    exact ⟨rfl, fetchDelivers hhalt, decodeIssues (.jalr rd rs1 imm),
      fun _ _ hst he => exec_execute_of_taken (.jalr rd rs1 imm) hst he rfl, memoryPasses rfl rfl,
      writebackCommits_result hhalt rd, offersResult rd⟩

/-- Settles O24: the six differ in their opcode and flag test alone. -/
theorem conditionalBranches : Obligations.ConditionalBranches := by
  unfold Obligations.ConditionalBranches
  intro p hp imm
  simp only [List.mem_cons, List.not_mem_nil, or_false] at hp
  obtain rfl | rfl | rfl | rfl | rfl | rfl := hp
  · exact ⟨rfl, computeBranch_units (.bz imm) rfl nofun rfl⟩
  · exact ⟨rfl, computeBranch_units (.bnz imm) rfl nofun rfl⟩
  · exact ⟨rfl, computeBranch_units (.bp imm) rfl nofun rfl⟩
  · exact ⟨rfl, computeBranch_units (.bnp imm) rfl nofun rfl⟩
  · exact ⟨rfl, computeBranch_units (.bn imm) rfl nofun rfl⟩
  · exact ⟨rfl, computeBranch_units (.bnn imm) rfl nofun rfl⟩

end Sys2Proof.Machine

/-! NOP in each of the five units (spec/44_nop_halt.md): the units that every instruction but HALT has, with nothing to
reserve, compute or access. -/

namespace Sys2Proof.Machine

/-- Settles O25: NOP's rule has no source, reservation, transfer or memory access, so a unit passes its latch or commits
nothing. -/
theorem nopDoesNothingButRetire : Obligations.NopDoesNothingButRetire := by
  unfold Obligations.NopDoesNothingButRetire
  exact ⟨by decide, fetchDelivers nofun, decodeIssues .nop,
    fun _ _ hst he => exec_execute_of_not_taken .nop hst he rfl, memoryPasses rfl rfl,
    writebackCommits_nothing nofun, offersNothing⟩

end Sys2Proof.Machine

/-! What the host sees of a raised fault (R170, R301): all that inspection reads is outside the internal state that a fault
leaves unspecified. -/

namespace Sys2Proof.Machine

/-- A fault outranks `halted` in what a step reports (R169). -/
theorem status_of_fault {s : State} (hf : s.fault = true) : s.status = .fault s.faultCause s.faultInfo :=
  if_pos hf

/-- Of what inspection reads, `raise` writes the fault state alone (R301). -/
theorem raise_inspect (f : Fault) (s : State) :
    (raise f s).inspect = { s.inspect with fault := true, faultCause := f.code, faultInfo := f.info } := by
  simp only [State.inspect, raise_cfg, raise_regs, raise_flags, raise_mem, raise_cycleCount, raise_retiredCount,
    raise_halted, raise_fault, raise_faultCause, raise_faultInfo]

/-- The status after `raise` is the raised fault, also where the engine had halted (R169, R301). -/
theorem raise_status (f : Fault) (s : State) : (raise f s).status = .fault f.code f.info := by
  simpa only [raise_faultCause, raise_faultInfo] using status_of_fault (raise_fault f s)

/-- Settles O30: what inspection reads and what the status reports are each read off the fields of `raise`. -/
theorem raisingAFaultKeepsWhatTheHostInspects : Obligations.RaisingAFaultKeepsWhatTheHostInspects := by
  unfold Obligations.RaisingAFaultKeepsWhatTheHostInspects
  exact fun f s => ⟨raise_inspect f s, raise_status f s⟩

end Sys2Proof.Machine
